-- ==== Sys2Proof/Word.lean ====
section
/-! DEFINITION. The data the block moves: bytes, byte sequences and the two block lengths
(spec/00_scope.md R9, R11; spec/20_memory.md R74: the finest unit of data is the byte). -/

namespace Sys2Proof

/-- A byte, an integer 0..255 (R11). -/
abbrev Byte := BitVec 8

/-- A byte sequence, index 0 first (R11). -/
abbrev Bytes := List Byte

/-- The block lengths the spec admits for the attached cipher, `BL` in {8, 16} (R9; U9). -/
inductive BlockLen
  | b8
  | b16
  deriving DecidableEq, Repr, Inhabited

/-- `BL` in bytes. -/
def BlockLen.bytes : BlockLen → Nat
  | .b8 => 8
  | .b16 => 16

/-- `BL` in bits, the collaborator's `block_length_bits` (R10). -/
def BlockLen.bits : BlockLen → Nat
  | .b8 => 64
  | .b16 => 128

@[simp] theorem BlockLen.bytes_b8 : BlockLen.b8.bytes = 8 := rfl

@[simp] theorem BlockLen.bytes_b16 : BlockLen.b16.bytes = 16 := rfl

/-- A block has `8 * BL` bits. -/
theorem BlockLen.bits_eq (bl : BlockLen) : bl.bits = 8 * bl.bytes := by cases bl <;> rfl

theorem BlockLen.bytes_pos (bl : BlockLen) : 0 < bl.bytes := by cases bl <;> decide

end Sys2Proof
end

