-- ==== Sys2Proof/Machine/Bytes.lean ====
section
/-! DEFINITION. The byte-sequence notation of spec/00_scope.md R11 to R13 as total functions.
Outside the precondition a rule states (equal lengths, a fitting value) a function answers as its
body says; no rule reaches such a use from a state a run reaches (notes/assumptions/9.md). -/

namespace Sys2Proof

/-- `zeros(n)` (R11). -/
def zeros (n : Nat) : Bytes := List.replicate n 0

/-- `rep(v, n)` (R11). -/
def rep (v : Byte) (n : Nat) : Bytes := List.replicate n v

/-- The half-open slice `b[i..j)` (R11). -/
def slice (b : Bytes) (i j : Nat) : Bytes := (b.drop i).take (j - i)

/-- `be_n(v)`, the `n`-byte big-endian encoding (R12). -/
def beN : Nat → Nat → Bytes
  | 0, _ => []
  | n + 1, v => BitVec.ofNat 8 (v >>> (8 * n)) :: beN n v

/-- `int_be(b)`, the inverse of `be_n` (R12). -/
def intBe (b : Bytes) : Nat := b.foldl (fun a x => a * 256 + x.toNat) 0

/-- `xor(a, b)`, byte-wise exclusive or of sequences of one length (R13). -/
def bxor (a b : Bytes) : Bytes := List.zipWith (· ^^^ ·) a b

/-- `padz(b, n)`: zeros after `b` up to `n` bytes (R13). -/
def padz (b : Bytes) (n : Nat) : Bytes := b ++ zeros (n - b.length)

/-- `first(b, t)`, the first `t` bytes (R13). -/
def first (b : Bytes) (t : Nat) : Bytes := b.take t

/-- `pad80(b, n)`: `b`, the byte 0x80, zeros up to `n` bytes (R13). -/
def pad80 (b : Bytes) (n : Nat) : Bytes := b ++ [0x80] ++ zeros (n - b.length - 1)

/-- `bitm(B, i)`: bit `i` counted from the most significant bit of `B[0]` (R13). -/
def bitm (b : Bytes) (i : Nat) : Bool := (b.getD (i / 8) 0).getLsbD (7 - i % 8)

/-- The first `k` pieces of `n` bytes of `s`, in order (the cutting of R121, R209, R240). -/
def cut (n : Nat) : Nat → Bytes → List Bytes
  | 0, _ => []
  | k + 1, s => s.take n :: cut n k (s.drop n)

/-- The full `n`-byte blocks of `s`: `len(s) div n` of them (R121). -/
def fullBlocks (n : Nat) (s : Bytes) : List Bytes := cut n (s.length / n) s

/-- The bytes of `s` after its full `n`-byte blocks (R121). -/
def remainder (n : Nat) (s : Bytes) : Bytes := s.drop (s.length / n * n)

/-- `s` cut every `n` bytes, the last piece possibly shorter (R209, R170). -/
def pieces (n : Nat) (s : Bytes) : List Bytes := cut n ((s.length + (n - 1)) / n) s

/-- `pad16(s)`: the fewest zero bytes that make the length a multiple of 16 (R169). -/
def pad16 (s : Bytes) : Bytes := s ++ zeros ((16 - s.length % 16) % 16)

end Sys2Proof
end

