-- ==== Sys2Proof/Syntax.lean ====
section
/-! DEFINITION. The seventeen commands (spec/30_encoding.md R90, R93, R97): one constructor per
row of spec/opcode_table.json, with the operands of R93. The payload is the frame's payload and
`LEN` is its length (R100). -/

namespace Sys2Proof

/-- The direction bit `d` (R94): 0 encrypt, 1 decrypt. -/
inductive Dir
  | encrypt
  | decrypt
  deriving DecidableEq, Repr, Inhabited

/-- The MAC variant `vv` (R94): 0 CMAC, 1 OMAC2, 2 XCBC; 3 is an illegal encoding. -/
inductive Variant
  | cmac
  | omac2
  | xcbc
  deriving DecidableEq, Repr, Inhabited

/-- A command (R93, R97). -/
inductive Instr
  | sysReset
  | sysStatus
  | bbOpen (blen : Byte)
  | bbPut (payload : Bytes)
  | bbFlush
  | gcmInit (d : Dir) (klen : Byte) (tlen : Byte) (payload : Bytes)
  | gcmAad (payload : Bytes)
  | gcmUpdate (payload : Bytes)
  | gcmFinal (payload : Bytes)
  | ccmInit (d : Dir) (klen : Byte) (tlen : Byte) (payload : Bytes)
  | ccmAad (payload : Bytes)
  | ccmUpdate (payload : Bytes)
  | ccmFinal (payload : Bytes)
  | macInit (vv : Variant) (klen : Byte) (tlen : Byte) (payload : Bytes)
  | macUpdate (payload : Bytes)
  | macSign (payload : Bytes)
  | macVerify (payload : Bytes)
  deriving DecidableEq, Repr, Inhabited

/-- The payload of the frame; the commands whose `LEN` must be 0 have none (R93). -/
def Instr.payload : Instr → Bytes
  | .sysReset | .sysStatus | .bbOpen _ | .bbFlush => []
  | .bbPut p | .gcmAad p | .gcmUpdate p | .gcmFinal p | .ccmAad p | .ccmUpdate p
  | .ccmFinal p | .macUpdate p | .macSign p | .macVerify p => p
  | .gcmInit _ _ _ p | .ccmInit _ _ _ p | .macInit _ _ _ p => p

end Sys2Proof
end

