-- ==== Sys2Proof/WellFormed.lean ====
section
/-! DEFINITION. Which commands a frame can carry: `LEN` is a 32-bit field (spec/30_encoding.md
R91), so a payload has fewer than `2^32` bytes (spec/20_memory.md R73). Every other operand is
bounded by its type: `BLEN`, `KLEN`, `TLEN` are bytes, `d` and `vv` have no illegal value. -/

namespace Sys2Proof

/-- The command has an encoding (R91, R73). -/
abbrev Instr.wf (i : Instr) : Prop := i.payload.length < 2 ^ 32

end Sys2Proof
end

