-- ==== Sys2Proof/Decode.lean ====
section
/-! DEFINITION. The command frame, its decoder and its encoder (spec/30_encoding.md R91 to R100),
the opcode map as match and mask (R97), and the reading of a row's bits as a frame. -/

namespace Sys2Proof

/-! ## The opcode bytes (R97) -/

def opcSysReset : Byte := 0x01
def opcSysStatus : Byte := 0x02
def opcBbOpen : Byte := 0x10
def opcBbPut : Byte := 0x11
def opcBbFlush : Byte := 0x12
def opcGcmInit : Byte := 0x30
def opcGcmAad : Byte := 0x31
def opcGcmUpdate : Byte := 0x32
def opcGcmFinal : Byte := 0x33
def opcCcmInit : Byte := 0x40
def opcCcmAad : Byte := 0x41
def opcCcmUpdate : Byte := 0x42
def opcCcmFinal : Byte := 0x43
def opcMacInit : Byte := 0x50
def opcMacUpdate : Byte := 0x51
def opcMacSign : Byte := 0x52
def opcMacVerify : Byte := 0x53

/-! ## The header -/

/-- The five fields of the 8-byte header (R91). -/
structure Header where
  opc : Byte
  arg0 : Byte
  arg1 : Byte
  arg2 : Byte
  /-- The payload length, `int_be` of header bytes 4..7. -/
  len : Nat
  deriving DecidableEq, Repr, Inhabited

/-- `UNIT`, the high nibble of `OPC` (R91, R92). -/
def Header.unit (h : Header) : Nat := h.opc.toNat / 16

/-- `OP`, the low nibble of `OPC` (R91, R92). -/
def Header.op (h : Header) : Nat := h.opc.toNat % 16

/-- The header as the 64-bit integer `hdr` (R91). -/
def Header.hdr (h : Header) : BitVec 64 :=
  BitVec.ofNat 64 (intBe ([h.opc, h.arg0, h.arg1, h.arg2] ++ beN 4 h.len))

/-- The header at the front of a stream, with the bytes after it; none when fewer than 8 bytes
remain (R100). -/
def takeHeader : Bytes → Option (Header × Bytes)
  | o :: a0 :: a1 :: a2 :: l3 :: l2 :: l1 :: l0 :: rest =>
    some (⟨o, a0, a1, a2, intBe [l3, l2, l1, l0]⟩, rest)
  | _ => none

/-! ## Decoding one frame -/

/-- Why a header selects no row of the opcode map (R98). -/
inductive Reject
  /-- `UNIT` is 2 or 6..15. -/
  | reservedUnit
  /-- `OP` is not listed for its unit. -/
  | reservedOp
  /-- A must-be-zero field, `LEN` of a command without payload among them, is not zero. -/
  | mustBeZero
  /-- MAC.INIT with `vv = 3`. -/
  | macVariantThree
  deriving DecidableEq, Repr, Inhabited

/-- The direction bit `d = ARG0[0]`, when the other bits of `ARG0` are zero (R93, R94). -/
def decodeDir (arg0 : Byte) : Except Reject Dir :=
  if arg0 = 0 then .ok .encrypt else if arg0 = 1 then .ok .decrypt else .error .mustBeZero

/-- The variant `vv = ARG0[1:0]`, when the other bits of `ARG0` are zero and `vv` is not 3
(R93, R94, R98). -/
def decodeVariant (arg0 : Byte) : Except Reject Variant :=
  if arg0 = 0 then .ok .cmac
  else if arg0 = 1 then .ok .omac2
  else if arg0 = 2 then .ok .xcbc
  else if arg0 = 3 then .error .macVariantThree
  else .error .mustBeZero

/-- A command whose three argument bytes must be zero (R93). -/
def needZeroArgs (h : Header) (i : Instr) : Except Reject Instr :=
  if h.arg0 = 0 ∧ h.arg1 = 0 ∧ h.arg2 = 0 then .ok i else .error .mustBeZero

/-- A command whose three argument bytes and `LEN` must be zero (R93). -/
def needZeroArgsLen (h : Header) (i : Instr) : Except Reject Instr :=
  if h.arg0 = 0 ∧ h.arg1 = 0 ∧ h.arg2 = 0 ∧ h.len = 0 then .ok i else .error .mustBeZero

/-- The row of R97 the header selects, with the operands of R93 and R94. -/
def decodeCommand (h : Header) (payload : Bytes) : Except Reject Instr :=
  match h.unit with
  | 0 =>
    match h.op with
    | 1 => needZeroArgsLen h .sysReset
    | 2 => needZeroArgsLen h .sysStatus
    | _ => .error .reservedOp
  | 1 =>
    match h.op with
    | 0 => if h.arg1 = 0 ∧ h.arg2 = 0 ∧ h.len = 0 then .ok (.bbOpen h.arg0) else .error .mustBeZero
    | 1 => needZeroArgs h (.bbPut payload)
    | 2 => needZeroArgsLen h .bbFlush
    | _ => .error .reservedOp
  | 3 =>
    match h.op with
    | 0 =>
      match decodeDir h.arg0 with
      | .ok d => .ok (.gcmInit d h.arg1 h.arg2 payload)
      | .error e => .error e
    | 1 => needZeroArgs h (.gcmAad payload)
    | 2 => needZeroArgs h (.gcmUpdate payload)
    | 3 => needZeroArgs h (.gcmFinal payload)
    | _ => .error .reservedOp
  | 4 =>
    match h.op with
    | 0 =>
      match decodeDir h.arg0 with
      | .ok d => .ok (.ccmInit d h.arg1 h.arg2 payload)
      | .error e => .error e
    | 1 => needZeroArgs h (.ccmAad payload)
    | 2 => needZeroArgs h (.ccmUpdate payload)
    | 3 => needZeroArgs h (.ccmFinal payload)
    | _ => .error .reservedOp
  | 5 =>
    match h.op with
    | 0 =>
      match decodeVariant h.arg0 with
      | .ok v => .ok (.macInit v h.arg1 h.arg2 payload)
      | .error e => .error e
    | 1 => needZeroArgs h (.macUpdate payload)
    | 2 => needZeroArgs h (.macSign payload)
    | 3 => needZeroArgs h (.macVerify payload)
    | _ => .error .reservedOp
  | _ => .error .reservedUnit

/-- What the front of the command port's byte stream is (R100). -/
inductive Fetched
  /-- Not yet a whole frame: no command is issued and no byte consumed. -/
  | wait
  /-- A whole frame of a command, and the bytes after it. -/
  | command (i : Instr) (rest : Bytes)
  /-- A whole frame whose header is illegal, its `OPC`, why, and the bytes after it (R98). -/
  | illegal (opc : Byte) (why : Reject) (rest : Bytes)
  deriving DecidableEq, Repr, Inhabited

/-- `decode(stream)` (R100). -/
def fetchFrame (stream : Bytes) : Fetched :=
  match takeHeader stream with
  | none => .wait
  | some (h, body) =>
    if body.length < h.len then .wait
    else
      match decodeCommand h (body.take h.len) with
      | .ok i => .command i (body.drop h.len)
      | .error e => .illegal h.opc e (body.drop h.len)

/-! ## The encoder -/

/-- The `OPC` byte of a command (R97). -/
def opcodeOf : Instr → Byte
  | .sysReset => opcSysReset
  | .sysStatus => opcSysStatus
  | .bbOpen _ => opcBbOpen
  | .bbPut _ => opcBbPut
  | .bbFlush => opcBbFlush
  | .gcmInit .. => opcGcmInit
  | .gcmAad _ => opcGcmAad
  | .gcmUpdate _ => opcGcmUpdate
  | .gcmFinal _ => opcGcmFinal
  | .ccmInit .. => opcCcmInit
  | .ccmAad _ => opcCcmAad
  | .ccmUpdate _ => opcCcmUpdate
  | .ccmFinal _ => opcCcmFinal
  | .macInit .. => opcMacInit
  | .macUpdate _ => opcMacUpdate
  | .macSign _ => opcMacSign
  | .macVerify _ => opcMacVerify

/-- `d` as the value of `ARG0` (R94). -/
def dirByte : Dir → Byte
  | .encrypt => 0
  | .decrypt => 1

/-- `vv` as the value of `ARG0` (R94). -/
def variantByte : Variant → Byte
  | .cmac => 0
  | .omac2 => 1
  | .xcbc => 2

/-- `ARG0`, `ARG1`, `ARG2` of a command (R93). -/
def argsOf : Instr → Byte × Byte × Byte
  | .bbOpen blen => (blen, 0, 0)
  | .gcmInit d klen tlen _ => (dirByte d, klen, tlen)
  | .ccmInit d klen tlen _ => (dirByte d, klen, tlen)
  | .macInit vv klen tlen _ => (variantByte vv, klen, tlen)
  | .sysReset | .sysStatus | .bbFlush | .bbPut _ | .gcmAad _ | .gcmUpdate _ | .gcmFinal _
  | .ccmAad _ | .ccmUpdate _ | .ccmFinal _ | .macUpdate _ | .macSign _ | .macVerify _ => (0, 0, 0)

/-- The header of a command's frame (R91, R93). -/
def headerOf (i : Instr) : Header :=
  ⟨opcodeOf i, (argsOf i).1, (argsOf i).2.1, (argsOf i).2.2, i.payload.length⟩

/-- The frame of a command: 8 header bytes, byte 0 first, then the payload (R72, R91). -/
def encode (i : Instr) : Bytes :=
  [opcodeOf i, (argsOf i).1, (argsOf i).2.1, (argsOf i).2.2] ++ beN 4 i.payload.length ++ i.payload

/-! ## The opcode map as match and mask -/

/-- A row of R97: a header selects it when `hdr & mask = match`. -/
structure OpcodeRow where
  mnemonic : String
  pattern : BitVec 64
  mask : BitVec 64
  deriving DecidableEq, Repr

/-- The complete opcode map (R97). -/
def opcodeRows : List OpcodeRow := [
  ⟨"SYS.RESET", 0x0100000000000000, 0xFFFFFFFFFFFFFFFF⟩,
  ⟨"SYS.STATUS", 0x0200000000000000, 0xFFFFFFFFFFFFFFFF⟩,
  ⟨"BB.OPEN", 0x1000000000000000, 0xFF00FFFFFFFFFFFF⟩,
  ⟨"BB.PUT", 0x1100000000000000, 0xFFFFFFFF00000000⟩,
  ⟨"BB.FLUSH", 0x1200000000000000, 0xFFFFFFFFFFFFFFFF⟩,
  ⟨"GCM.INIT", 0x3000000000000000, 0xFFFE000000000000⟩,
  ⟨"GCM.AAD", 0x3100000000000000, 0xFFFFFFFF00000000⟩,
  ⟨"GCM.UPDATE", 0x3200000000000000, 0xFFFFFFFF00000000⟩,
  ⟨"GCM.FINAL", 0x3300000000000000, 0xFFFFFFFF00000000⟩,
  ⟨"CCM.INIT", 0x4000000000000000, 0xFFFE000000000000⟩,
  ⟨"CCM.AAD", 0x4100000000000000, 0xFFFFFFFF00000000⟩,
  ⟨"CCM.UPDATE", 0x4200000000000000, 0xFFFFFFFF00000000⟩,
  ⟨"CCM.FINAL", 0x4300000000000000, 0xFFFFFFFF00000000⟩,
  ⟨"MAC.INIT", 0x5000000000000000, 0xFFFC000000000000⟩,
  ⟨"MAC.UPDATE", 0x5100000000000000, 0xFFFFFFFF00000000⟩,
  ⟨"MAC.SIGN", 0x5200000000000000, 0xFFFFFFFF00000000⟩,
  ⟨"MAC.VERIFY", 0x5300000000000000, 0xFFFFFFFF00000000⟩]

/-- `hdr` selects the row: match under the mask and, for MAC.INIT, `vv != 3` (R97). -/
def OpcodeRow.selects (r : OpcodeRow) (hdr : BitVec 64) : Prop :=
  hdr &&& r.mask = r.pattern ∧ (r.mnemonic = "MAC.INIT" → (hdr >>> 48) &&& 3 ≠ 3)

/-- The mnemonic of a command, as R97 and spec/opcode_table.json spell it. -/
def mnemonicOf : Instr → String
  | .sysReset => "SYS.RESET"
  | .sysStatus => "SYS.STATUS"
  | .bbOpen _ => "BB.OPEN"
  | .bbPut _ => "BB.PUT"
  | .bbFlush => "BB.FLUSH"
  | .gcmInit .. => "GCM.INIT"
  | .gcmAad _ => "GCM.AAD"
  | .gcmUpdate _ => "GCM.UPDATE"
  | .gcmFinal _ => "GCM.FINAL"
  | .ccmInit .. => "CCM.INIT"
  | .ccmAad _ => "CCM.AAD"
  | .ccmUpdate _ => "CCM.UPDATE"
  | .ccmFinal _ => "CCM.FINAL"
  | .macInit .. => "MAC.INIT"
  | .macUpdate _ => "MAC.UPDATE"
  | .macSign _ => "MAC.SIGN"
  | .macVerify _ => "MAC.VERIFY"

/-! ## A row's bits as a frame -/

/-- The first `n` bytes of `v` from its least significant end on. -/
def tablePayload : Nat → Nat → Bytes
  | 0, _ => []
  | n + 1, v => BitVec.ofNat 8 v :: tablePayload n (v / 256)

/-- The frame whose bits are the low `nbits` bits of `w`, every bit above them zero. The first word
is the 64-bit header `hdr` of R91, most significant byte first on the port (R72); payload byte `j`
is bits `64 + 8j + 7 .. 64 + 8j`. DEDUCED: notes/assumptions/7.md. -/
def tableFrame (nbits w : Nat) : Bytes :=
  beN 8 (w % 2 ^ nbits % 2 ^ 64) ++
    tablePayload (w % 2 ^ nbits % 2 ^ 32) (w % 2 ^ nbits / 2 ^ 64)

/-- The instruction the decoder reads from a frame whose bits are `w`. -/
def decodeTableWord (nbits w : Nat) : Option Instr :=
  match fetchFrame (tableFrame nbits w) with
  | .command i _ => some i
  | .wait => none
  | .illegal _ _ _ => none

end Sys2Proof
end

