-- ==== Sys2Proof/Config.lean ====
section
/-! DEFINITION. The implementation parameters of spec/00_scope.md R9. Those that are plain data
are the structure `Params` (the machine carries its own in State, notes/assumptions/1.md); those
that are functions, and the sink's answers, are opaque constants: nothing is known of them but
their types (R10, R126; notes/assumptions/2.md, 3.md, 4.md). -/

namespace Sys2Proof

/-- `GCM_INC_BITS`: width of the GCM counter increment (R9, D9). -/
inductive IncWidth
  | w32
  | w128
  deriving DecidableEq, Repr, Inhabited

/-- `GCM_IV_NON96`: what GCM.INIT does with an IV that is not 12 bytes (R9, D10). -/
inductive IvNon96
  | derive
  | refuse
  deriving DecidableEq, Repr, Inhabited

/-- The plain-data parameters of R9, fixed for the life of a device instance. -/
structure Params where
  /-- `BL`, the block length of the attached cipher. -/
  blockLen : BlockLen
  /-- `KEYLEN_OK` as the list of accepted key lengths in bytes. -/
  keyLens : List Nat
  /-- `GCM_INC_BITS`. -/
  gcmInc : IncWidth
  /-- `GCM_IV_NON96`. -/
  gcmIvNon96 : IvNon96
  /-- `GCM_PT_LIMIT_BITS`, at most `2^64 - 1`. -/
  gcmPtLimit : BitVec 64
  /-- `GCM_TAG_LENS`, a set of byte counts within 1..16. -/
  gcmTagLens : List Nat
  /-- `RB(8)`, the low byte of the doubling reduction constant of 8-byte blocks; the one of 16-byte
  blocks is not open (R9, R146). -/
  rb8 : Byte
  deriving DecidableEq, Repr

/-- The setting the spec's vectors use: AES key lengths and block length, and the defaults of R9.
DESIGN CHOICE (notes/assumptions/1.md): State.reset carries it; no statement rests on it. -/
def Params.specDefault : Params where
  blockLen := .b16
  keyLens := [16, 24, 32]
  gcmInc := .w32
  gcmIvNon96 := .derive
  gcmPtLimit := 0xFFFFFFFFFFFFFFFF
  gcmTagLens := [4, 8, 12, 13, 14, 15, 16]
  rb8 := 0x1B

/-- The two kinds of event on BB0's sink port (R126). -/
inductive SinkKind
  | write
  | flush
  deriving DecidableEq, Repr, Inhabited

/-- One event on the sink port: the document's `block_write` or `block_flush` (R126). -/
structure SinkEvent where
  kind : SinkKind
  bytes : Bytes
  deriving DecidableEq, Repr, Inhabited

/-- The external block cipher: under each key a permutation of blocks, so that `D k (E k b) = b`
and nothing else is known (R10, R140). -/
opaque Config.cipher : (bl : BlockLen) → Bytes → Equiv.Perm (BitVec bl.bits)

/-- `OMAC2_K2 : Block -> Block`, open, no default (R9, R232, D17). -/
opaque Config.omac2K2 : (bl : BlockLen) → BitVec bl.bits → BitVec bl.bits

/-- The `SINK` oracle: the answer byte to the event with the given number (R9, R126, D6). -/
opaque Config.sink : Nat → SinkEvent → Byte

/-- `RLEN` of a response whose payload does not fit 32 bits: the spec states no value
(DESIGN CHOICE, notes/assumptions/6.md). -/
opaque Config.rlenOver : Nat → BitVec 32

/-- The external functions a command may call, gathered as one argument of the operations. -/
structure Ext where
  /-- The block cipher of the cipher ports (R140). -/
  cipher : (bl : BlockLen) → Bytes → Equiv.Perm (BitVec bl.bits)
  /-- The open second subkey of OMAC2 (R232). -/
  omac2K2 : (bl : BlockLen) → BitVec bl.bits → BitVec bl.bits
  /-- The external listener of BB0 (R126). -/
  sink : Nat → SinkEvent → Byte

/-- The collaborators attached to this device. -/
def Config.ext : Ext where
  cipher := Config.cipher
  omac2K2 := Config.omac2K2
  sink := Config.sink

end Sys2Proof
end

