-- ==== Sys2Proof/Machine/State.lean ====
section
/-! DEFINITION. The state of the block (spec/10_state.md): the registers of the four units (R27,
R30, R42, R50), the parameters the device was built with (R9, notes/assumptions/1.md), and what
stands on its ports (R14, R20, R126, notes/assumptions/4.md, 5.md). There is no memory and no
address space (R62). -/

namespace Sys2Proof.Machine

/-- The values of a unit's `PHASE` register (R24). -/
inductive Phase
  | idle
  | aad
  | data
  | done
  | fault
  | ready
  deriving DecidableEq, Repr, Inhabited

/-- The four units (R1, R23). -/
inductive UnitId
  | bb0
  | gcm
  | ccm
  | mac
  deriving DecidableEq, Repr, Inhabited

/-- The status codes of a response (R270). -/
inductive Status
  | ok
  | invalidParameterLength
  | messageTooLong
  | authenticationFailure
  | ioFailure
  | sequenceError
  | illegalCommand
  deriving DecidableEq, Repr, Inhabited

/-- A response frame (R96); header byte 3 is always 0 and `RLEN` is the payload's length. -/
structure Response where
  status : Status
  /-- `ROPC`, the `OPC` byte of the command answered. -/
  ropc : Byte
  /-- `RPHASE`, the phase code of the addressed unit after the command. -/
  rphase : Byte
  payload : Bytes
  deriving DecidableEq, Repr, Inhabited

/-- One event placed on BB0's sink port and the byte the sink answered (R126). -/
structure SinkRecord where
  event : SinkEvent
  answer : Byte
  deriving DecidableEq, Repr, Inhabited

/-- The registers of unit `BB0` (R27). -/
structure BbRegs where
  phase : Phase
  err : Byte
  blen : Byte
  carry : Bytes
  deriving DecidableEq, Repr

/-- The registers of unit `GCM` (R30). -/
structure GcmRegs where
  phase : Phase
  err : Byte
  dir : Dir
  tlen : Byte
  kv : Bool
  k : Bytes
  h : Bytes
  j0 : Bytes
  ctr : Bytes
  x : Bytes
  alen : BitVec 64
  clen : BitVec 64
  /-- `GCM.ABUF.CARRY`. -/
  abuf : Bytes
  /-- `GCM.DBUF.CARRY`. -/
  dbuf : Bytes
  hold : Bytes
  deriving DecidableEq, Repr

/-- The registers of unit `CCM` (R42). -/
structure CcmRegs where
  phase : Phase
  err : Byte
  dir : Dir
  tlen : Byte
  nlen : Byte
  kv : Bool
  k : Bytes
  n : Bytes
  astore : Bytes
  mstore : Bytes
  y : Bytes
  a : Bytes
  s0 : Bytes
  deriving DecidableEq, Repr

/-- The registers of unit `MAC` (R50). -/
structure MacRegs where
  phase : Phase
  err : Byte
  var : Variant
  tlen : Byte
  kv : Bool
  k : Bytes
  kc : Bytes
  l : Bytes
  k1 : Bytes
  k2 : Bytes
  k3 : Bytes
  x : Bytes
  /-- `MAC.BUF.CARRY`. -/
  buf : Bytes
  held : Bytes
  heldv : Bool
  deriving DecidableEq, Repr

/-- The whole state of the block between commands (R59), its parameters and its ports. -/
structure State where
  /-- The parameters of R9; no command writes them. -/
  par : Params
  bb0 : BbRegs
  gcm : GcmRegs
  ccm : CcmRegs
  mac : MacRegs
  /-- The bytes on the command port not yet consumed, next byte first (R100). -/
  cmdIn : Bytes
  /-- The response frames put on the response port, oldest first (R79, R96). -/
  respOut : List Response
  /-- The events emitted on the sink port with their answers, oldest first (R126). -/
  sinkOut : List SinkRecord
  /-- The answers the sink is going to give, next first; when none is listed the answer is the
  oracle's (R126, notes/assumptions/4.md). -/
  sinkIn : Bytes
  deriving DecidableEq, Repr

/-- Why the machine stops. NO CONSTRUCTOR: nothing in the spec stops the block; every error is a
response and a phase (R76, R96, R277), and an incomplete frame is waited for (R100). -/
inductive Fault
  deriving DecidableEq, Repr

/-- Why a command is given no meaning. -/
inductive Refusal
  /-- Raised by exec's arm of a command that has no meaning yet (none is left). Safe: the model
  stops. -/
  | notModelled (mnemonic : String)
  deriving DecidableEq, Repr

/-- `BB0` after reset (R27, R63). -/
def BbRegs.reset : BbRegs where
  phase := .idle
  err := 0
  blen := 0
  carry := []

/-- `GCM` after reset (R30, R63). -/
def GcmRegs.reset : GcmRegs where
  phase := .idle
  err := 0
  dir := .encrypt
  tlen := 0
  kv := false
  k := []
  h := zeros 16
  j0 := zeros 16
  ctr := zeros 16
  x := zeros 16
  alen := 0
  clen := 0
  abuf := []
  dbuf := []
  hold := []

/-- `CCM` after reset (R42, R63). -/
def CcmRegs.reset : CcmRegs where
  phase := .idle
  err := 0
  dir := .encrypt
  tlen := 0
  nlen := 0
  kv := false
  k := []
  n := []
  astore := []
  mstore := []
  y := zeros 16
  a := zeros 16
  s0 := zeros 16

/-- `MAC` after reset; its block-wide registers are `BL` zero bytes (R50, R63). -/
def MacRegs.reset (bl : BlockLen) : MacRegs where
  phase := .idle
  err := 0
  var := .cmac
  tlen := 0
  kv := false
  k := []
  kc := []
  l := zeros bl.bytes
  k1 := zeros bl.bytes
  k2 := zeros bl.bytes
  k3 := zeros bl.bytes
  x := zeros bl.bytes
  buf := []
  held := zeros bl.bytes
  heldv := false

/-- The machine at power-on (R63, R300): every unit reset, nothing on any port. The parameters are
the ones the spec's vectors use (DESIGN CHOICE, notes/assumptions/1.md). -/
def State.reset : State where
  par := Params.specDefault
  bb0 := BbRegs.reset
  gcm := GcmRegs.reset
  ccm := CcmRegs.reset
  mac := MacRegs.reset .b16
  cmdIn := []
  respOut := []
  sinkOut := []
  sinkIn := []

end Sys2Proof.Machine
end

