-- ==== Sys2Proof/Machine/Ops.lean ====
section
/-! DEFINITION. The operations every command is written over: reading and resetting a unit, the
response port (spec/30_encoding.md R96), raising an error (spec/60_exceptions.md R277), the sink
port (spec/40_blockbuffer.md R126, R127) and the BlockBuffer (R121, R122). -/

namespace Sys2Proof.Machine

/-! ## Codes -/

/-- The one-byte code of a phase (R24). -/
def phaseCode : Phase → Byte
  | .idle => 0
  | .aad => 1
  | .data => 2
  | .done => 3
  | .fault => 4
  | .ready => 5

/-- The one-byte status code (R270). -/
def statusCode : Status → Byte
  | .ok => 0
  | .invalidParameterLength => 1
  | .messageTooLong => 2
  | .authenticationFailure => 3
  | .ioFailure => 4
  | .sequenceError => 5
  | .illegalCommand => 6

/-- The answer byte that means `ACK`; every other byte means `NAK` (R126). -/
def ackByte : Byte := 0

/-! ## Parameters -/

/-- `KEYLEN_OK(n)` (R9, R141). -/
def keyLenOk (p : Params) (n : Nat) : Bool := p.keyLens.contains n

/-- `TLEN` is in `GCM_TAG_LENS` (R9, R160). -/
def tagLenOk (p : Params) (n : Nat) : Bool := p.gcmTagLens.contains n

/-- The number of low counter bytes `incr_w` steps in the GCM unit, `GCM_INC_BITS / 8` (R145). -/
def gcmIncBytes (p : Params) : Nat :=
  match p.gcmInc with
  | .w32 => 4
  | .w128 => 16

/-! ## Units -/

/-- `U.PHASE` (R23). -/
def phaseOf (u : UnitId) (s : State) : Phase :=
  match u with
  | .bb0 => s.bb0.phase
  | .gcm => s.gcm.phase
  | .ccm => s.ccm.phase
  | .mac => s.mac.phase

/-- `U.ERR` (R25). -/
def errOf (u : UnitId) (s : State) : Byte :=
  match u with
  | .bb0 => s.bb0.err
  | .gcm => s.gcm.err
  | .ccm => s.ccm.err
  | .mac => s.mac.err

/-- Set every register of `U` to its reset value (R63); INIT and OPEN begin so, which is how a unit
leaves `FAULT` (R281). -/
def resetUnit (u : UnitId) (s : State) : State :=
  match u with
  | .bb0 => { s with bb0 := BbRegs.reset }
  | .gcm => { s with gcm := GcmRegs.reset }
  | .ccm => { s with ccm := CcmRegs.reset }
  | .mac => { s with mac := MacRegs.reset s.par.blockLen }

/-- `U.PHASE <- p; U.ERR <- e` with `U`'s other registers at their reset values: the state an AEAD
unit is left in on `DONE`, and any unit on `FAULT` (R166, R204, R277). -/
def wipeUnit (u : UnitId) (p : Phase) (e : Byte) (s : State) : State :=
  match u with
  | .bb0 => { s with bb0 := { BbRegs.reset with phase := p, err := e } }
  | .gcm => { s with gcm := { GcmRegs.reset with phase := p, err := e } }
  | .ccm => { s with ccm := { CcmRegs.reset with phase := p, err := e } }
  | .mac => { s with mac := { MacRegs.reset s.par.blockLen with phase := p, err := e } }

/-! ## The response port -/

/-- Put one response frame on the response port (R79, R96). -/
def respond (st : Status) (opc : Byte) (rphase : Byte) (payload : Bytes) (s : State) : State :=
  { s with respOut := s.respOut ++ [⟨st, opc, rphase, payload⟩] }

/-- `resp(status, bytes)` of a command addressed to `U`: `RPHASE` is `U`'s phase after it (R96). -/
def reply (u : UnitId) (st : Status) (opc : Byte) (payload : Bytes) (s : State) : State :=
  respond st opc (phaseCode (phaseOf u s)) payload s

/-- `RLEN` of a response (R96); of a payload too long for 32 bits the spec states none
(notes/assumptions/6.md). -/
def Response.rlen (r : Response) : BitVec 32 :=
  if r.payload.length < 2 ^ 32 then BitVec.ofNat 32 r.payload.length
  else Config.rlenOver r.payload.length

/-- The response frame as the bytes on the port, byte 0 first (R72, R96). -/
def Response.wire (r : Response) : Bytes :=
  [statusCode r.status, r.ropc, r.rphase, 0] ++ beN 4 r.rlen.toNat ++ r.payload

/-! ## Taking an error -/

/-- `raise K` by a command addressed to `U` (R277): every register of `U` to its reset value, then
`PHASE <- FAULT` and `ERR` the code of `K`, or the first cause if `U` was already in `FAULT`
(R25, R278); the response carries the code of `K` and no payload. There is no return: INIT, OPEN
and SYS.RESET leave `FAULT` (R281). -/
def raise (u : UnitId) (k : Status) (opc : Byte) (s : State) : State :=
  reply u k opc [] (wipeUnit u .fault (if phaseOf u s = .fault then errOf u s else statusCode k) s)

/-! ## The sink port -/

/-- The sink's answer to the event that comes after `n` further events (R126): the next listed
answer, or the oracle's. -/
def sinkAnswerAt (x : Ext) (s : State) (n : Nat) (ev : SinkEvent) : Byte :=
  match s.sinkIn[n]? with
  | some a => a
  | none => x.sink (s.sinkOut.length + n) ev

/-- `emit(kind, bytes)` (R126): one event is placed on the sink port and its answer taken; the
Boolean says `ACK`. -/
def emit (x : Ext) (ev : SinkEvent) (s : State) : Bool × State :=
  let a := sinkAnswerAt x s 0 ev
  (a == ackByte, { s with sinkOut := s.sinkOut ++ [⟨ev, a⟩], sinkIn := s.sinkIn.tail })

/-- Emit one `WRITE` event per block, in order, stopping at the first `NAK` (R127, R131). -/
def emitWrites (x : Ext) : List Bytes → State → Bool × State
  | [], s => (true, s)
  | b :: bs, s =>
    match emit x ⟨.write, b⟩ s with
    | (true, s') => emitWrites x bs s'
    | (false, s') => (false, s')

/-- The wire form of a sink event: kind, length, bytes (R126). -/
def sinkWire (e : SinkEvent) : Bytes :=
  [match e.kind with | .write => 0 | .flush => 1, BitVec.ofNat 8 e.bytes.length] ++ e.bytes

/-! ## The BlockBuffer -/

/-- `bb_put(b, data)` of an instance `(bl, carry)`: the blocks forwarded, in order, and the new
carry (R121). -/
def bbCut (bl : Nat) (carry data : Bytes) : List Bytes × Bytes :=
  (fullBlocks bl (carry ++ data), remainder bl (carry ++ data))

end Sys2Proof.Machine
end

