-- ==== Sys2Proof/Machine/Bb.lean ====
section
/-! DEFINITION. The host-visible BlockBuffer (spec/40_blockbuffer.md): BB.OPEN (R130), BB.PUT (R131)
and BB.FLUSH (R132). -/

namespace Sys2Proof.Machine

/-- BB.OPEN: the unit is reset, then a zero block length is refused (R130). -/
def bbOpen (blen : Byte) (s : State) : State :=
  let s0 := resetUnit .bb0 s
  if blen = 0 then raise .bb0 .invalidParameterLength opcBbOpen s0
  else
    reply .bb0 .ok opcBbOpen [] { s0 with bb0 := { s0.bb0 with blen := blen, phase := .ready } }

/-- BB.PUT: `bb_put` with the sink port as listener (R131). -/
def bbPut (x : Ext) (payload : Bytes) (s : State) : State :=
  if s.bb0.phase ≠ .ready then raise .bb0 .sequenceError opcBbPut s
  else
    let r := bbCut s.bb0.blen.toNat s.bb0.carry payload
    match emitWrites x r.1 s with
    | (true, s') => reply .bb0 .ok opcBbPut [] { s' with bb0 := { s'.bb0 with carry := r.2 } }
    | (false, s') => raise .bb0 .ioFailure opcBbPut s'

/-- BB.FLUSH: `bb_flush` with the sink port as listener, also on an empty carry (R132). -/
def bbFlush (x : Ext) (s : State) : State :=
  if s.bb0.phase ≠ .ready then raise .bb0 .sequenceError opcBbFlush s
  else
    match emit x ⟨.flush, s.bb0.carry⟩ s with
    | (true, s') => reply .bb0 .ok opcBbFlush [] { s' with bb0 := { s'.bb0 with carry := [] } }
    | (false, s') => raise .bb0 .ioFailure opcBbFlush s'

/-- The meaning of BB.OPEN. -/
def execBbOpen (blen : Byte) (s : State) : Host.Outcome State Fault Refusal := .next (bbOpen blen s)

/-- The meaning of BB.PUT. -/
def execBbPut (payload : Bytes) (s : State) : Host.Outcome State Fault Refusal :=
  .next (bbPut Config.ext payload s)

/-- The meaning of BB.FLUSH. -/
def execBbFlush (s : State) : Host.Outcome State Fault Refusal := .next (bbFlush Config.ext s)

end Sys2Proof.Machine
end

