-- ==== Sys2Proof/Machine/Cipher.lean ====
section
/-! DEFINITION. The cipher port, the chaining steps and the field primitives of
spec/41_primitives.md (R140 to R149). A port's key schedule is the key register the request names
(spec/10_state.md R58); OFB and CFB are not specified and not here (R150). -/

namespace Sys2Proof.Machine

/-! ## The cipher port (R140) -/

/-- A byte sequence as one big-endian block value. -/
def blockOf (bl : BlockLen) (b : Bytes) : BitVec bl.bits := BitVec.ofNat bl.bits (intBe b)

/-- A block value as its `BL` bytes. -/
def blockBytes (bl : BlockLen) (v : BitVec bl.bits) : Bytes := beN bl.bytes v.toNat

/-- `E(k, b)`: the cipher's `encrypt` of a `BL`-byte block under key `k` (R140). -/
def enc (x : Ext) (bl : BlockLen) (k b : Bytes) : Bytes :=
  blockBytes bl (x.cipher bl k (blockOf bl b))

/-- `D(k, b)`: the cipher's `decrypt`, the inverse of `E k` (R10, R140). -/
def dec (x : Ext) (bl : BlockLen) (k b : Bytes) : Bytes :=
  blockBytes bl ((x.cipher bl k).symm (blockOf bl b))

/-- `OMAC2_K2(L)` (R232). -/
def omac2K2 (x : Ext) (bl : BlockLen) (l : Bytes) : Bytes :=
  blockBytes bl (x.omac2K2 bl (blockOf bl l))

/-! ## Block steps -/

/-- `cbc_enc_step(k, V, P)`: the output block, which is also the new vector (R143). -/
def cbcEncStep (x : Ext) (bl : BlockLen) (k v p : Bytes) : Bytes := enc x bl k (bxor p v)

/-- `cbcmac(k, V0, blocks)`: the vector after the steps over the blocks in order (R143). -/
def cbcMac (x : Ext) (bl : BlockLen) (k : Bytes) (v0 : Bytes) (blocks : List Bytes) : Bytes :=
  blocks.foldl (fun v b => cbcEncStep x bl k v b) v0

/-- `cbc_dec_step(k, V, C)`: the plaintext block and the new vector (R144). No command reaches it. -/
def cbcDecStep (x : Ext) (bl : BlockLen) (k v c : Bytes) : Bytes × Bytes :=
  (bxor (dec x bl k c) v, c)

/-- `incr_w(C)` with `q = w / 8`: the last `q` bytes count as one big-endian integer, wrapping; the
bytes before them do not change (R145). -/
def incrW (q : Nat) (c : Bytes) : Bytes :=
  c.take (c.length - q) ++ beN q ((intBe (c.drop (c.length - q)) + 1) % 2 ^ (8 * q))

/-- `ctr_step_w(k, CTR, P)`: the output and the advanced counter (R145). -/
def ctrStep (x : Ext) (bl : BlockLen) (q : Nat) (k ctr p : Bytes) : Bytes × Bytes :=
  (bxor p (first (enc x bl k ctr) p.length), incrW q ctr)

/-! ## Doubling (R146, R147) -/

/-- `RB(BL)`: 0x87 for 16-byte blocks (R146), the parameter `RB(8)` for 8-byte blocks (R9, R21;
notes/assumptions/8.md). -/
def dblConst (p : Params) : BlockLen → Byte
  | .b8 => p.rb8
  | .b16 => 0x87

/-- `RI(BL)` for the reduction byte `rb`: `x^(n-1)` plus `RB` divided by `x`, which is R147's constant
at `RB(16) = 0x87` and at `RB(8) = 0x1B`. DEDUCED for other bytes: notes/assumptions/8.md. -/
def invdblConst (rb : Byte) (bl : BlockLen) : Nat := 2 ^ (bl.bits - 1) + rb.toNat / 2

/-- `dbl(B)` with `RB(BL) = rb`: the block as one big-endian integer, shifted left by one and reduced
(R146). -/
def dbl (rb : Byte) (bl : BlockLen) (b : Bytes) : Bytes :=
  let v := blockOf bl b
  blockBytes bl (if v.msb then (v <<< 1) ^^^ rb.setWidth bl.bits else v <<< 1)

/-- `invdbl(B)` with `RB(BL) = rb`: the `B'` with `dbl(B') = B` (R147); only a candidate for
`OMAC2_K2`. -/
def invdbl (rb : Byte) (bl : BlockLen) (b : Bytes) : Bytes :=
  let v := blockOf bl b
  blockBytes bl
    (if v.getLsbD 0 then (v >>> 1) ^^^ BitVec.ofNat bl.bits (invdblConst rb bl) else v >>> 1)

/-! ## The multiply of GHASH (R148) -/

/-- The reduction constant `e1 00 .. 00`. -/
def ghashConst : BitVec 128 := 0xE1000000000000000000000000000000

/-- Multiply by `x`: one bit to the right, reduced when the last bit was 1 (R148, R149). -/
def gfShift (v : BitVec 128) : BitVec 128 :=
  if v.getLsbD 0 then (v >>> 1) ^^^ ghashConst else v >>> 1

/-- The last `n` rounds of the loop of R148, whose round `i` looks at `bitm(A, i)`, bit `127 - i` of
`A` as an integer. -/
def gfRounds (a : BitVec 128) : Nat → BitVec 128 → BitVec 128 → BitVec 128
  | 0, z, _ => z
  | n + 1, z, v => gfRounds a n (if a.getLsbD n then z ^^^ v else z) (gfShift v)

/-- `gf128_mul(A, B)` (R148). -/
def gfMul (a b : Bytes) : Bytes :=
  blockBytes .b16 (gfRounds (blockOf .b16 a) 128 0 (blockOf .b16 b))

end Sys2Proof.Machine
end

