-- ==== Sys2Proof/Machine/Flags.lean ====
section
/-! DEFINITION. What the commands test. The block has no condition codes (spec/10_state.md R60):
its one-bit registers are `DIR`, `KV` and `MAC.HELDV`, and the outcome of a comparison or of a
length test is reported in the response only. -/

namespace Sys2Proof.Machine

/-- A phase in which GCM and CCM accept UPDATE and FINAL (R165, R166, R203, R204). -/
def sessionPhase : Phase → Bool
  | .aad | .data => true
  | .idle | .done | .fault | .ready => false

/-- The tag comparison: whole byte sequences, length included (R166, R204, R238, R319). -/
def tagMatches (received computed : Bytes) : Bool := received == computed

/-- A bit counter stays within `limit` when `n` more bytes are counted (R164, R165, R272). -/
def bitCountFits (count limit : BitVec 64) (n : Nat) : Bool :=
  decide (count.toNat + 8 * n ≤ limit.toNat)

/-- The bit counter after `n` more bytes (R164, R165). -/
def bitCountAdd (count : BitVec 64) (n : Nat) : BitVec 64 := count + BitVec.ofNat 64 (8 * n)

/-- The largest value of a 64-bit counter, `2^64 - 1`, the limit of `GCM.ALEN` (R164). -/
def maxCount : BitVec 64 := BitVec.allOnes 64

/-- `Lf = 15 - CCM.NLEN`, the byte length of CCM's length field (R203, R205). -/
def ccmLf (c : CcmRegs) : Nat := 15 - c.nlen.toNat

/-- The associated data may grow by `n` bytes: fewer than `2^64` in all (R202). -/
def ccmAadFits (c : CcmRegs) (n : Nat) : Bool := decide (c.astore.length + n < 2 ^ 64)

/-- The message may grow by `n` bytes: its length still fits the length field (R203). -/
def ccmMsgFits (c : CcmRegs) (n : Nat) : Bool := decide (c.mstore.length + n < 2 ^ (8 * ccmLf c))

end Sys2Proof.Machine
end

