-- ==== Sys2Proof/Machine/Operands.lean ====
section
/-! DEFINITION. The operands of the INIT commands (spec/30_encoding.md R94, R95): byte counts are
taken as they stand, and the payload is the key followed by the IV or nonce. -/

namespace Sys2Proof.Machine

/-- `key = payload[0..KLEN)` (R95). -/
def initKey (klen : Byte) (payload : Bytes) : Bytes := slice payload 0 klen.toNat

/-- `iv = payload[KLEN..LEN)`; for CCM.INIT the nonce (R95). -/
def initIv (klen : Byte) (payload : Bytes) : Bytes := slice payload klen.toNat payload.length

/-- The tests of GCM.INIT, in the order of R160; each raises InvalidParameterLength when it does
not hold. -/
def gcmInitOk (p : Params) (klen tlen : Byte) (payload : Bytes) : Bool :=
  p.blockLen == .b16
    && decide (klen.toNat ≤ payload.length)
    && keyLenOk p klen.toNat
    && !(initIv klen payload).isEmpty
    && ((initIv klen payload).length == 12 || p.gcmIvNon96 == .derive)
    && tagLenOk p tlen.toNat

/-- `TLEN` is even and 4..16 (R201). -/
def ccmTagLenOk (tlen : Byte) : Bool :=
  decide (4 ≤ tlen.toNat) && decide (tlen.toNat ≤ 16) && tlen.toNat % 2 == 0

/-- The tests of CCM.INIT, in the order of R201. -/
def ccmInitOk (p : Params) (klen tlen : Byte) (payload : Bytes) : Bool :=
  p.blockLen == .b16
    && decide (klen.toNat ≤ payload.length)
    && keyLenOk p klen.toNat
    && decide (7 ≤ payload.length - klen.toNat)
    && decide (payload.length - klen.toNat ≤ 13)
    && ccmTagLenOk tlen

/-- The tests of MAC.INIT, in the order of R231. -/
def macInitOk (p : Params) (vv : Variant) (klen tlen : Byte) (payload : Bytes) : Bool :=
  klen.toNat == payload.length
    && keyLenOk p klen.toNat
    && (vv != .xcbc || keyLenOk p p.blockLen.bytes)
    && decide (1 ≤ tlen.toNat)
    && decide (tlen.toNat ≤ p.blockLen.bytes)

end Sys2Proof.Machine
end

