-- ==== Sys2Proof/Machine/Ccm.lean ====
section
/-! DEFINITION. The CCM unit (spec/43_ccm.md): CCM.INIT (R201), CCM.AAD (R202), CCM.UPDATE (R203),
CCM.FINAL (R204) over the formatting and passes of R205 to R209. AAD and UPDATE only store; FINAL
does all cipher work, in the working registers `Y`, `A` and `S0` (R42, R200). -/

namespace Sys2Proof.Machine

/-! ## Formatting -/

/-- `ccm_b0(lm)`: the formatted first block (R205). -/
def ccmB0 (c : CcmRegs) (lm : Nat) : Bytes :=
  let adata := if c.astore.length > 0 then 1 else 0
  let flags := 64 * adata + 8 * ((c.tlen.toNat - 2) / 2) + (ccmLf c - 1)
  [BitVec.ofNat 8 flags] ++ c.n ++ beN (ccmLf c) lm

/-- The length prefix of associated data of `la` bytes (R206). -/
def ccmAadPrefix (la : Nat) : Bytes :=
  if la < 65280 then beN 2 la
  else if la < 2 ^ 32 then [0xFF, 0xFE] ++ beN 4 la
  else [0xFF, 0xFF] ++ beN 8 la

/-- `ccm_aad_blocks()`: the associated data, length-prefixed and zero-padded (R206). -/
def ccmAadBlocks (a : Bytes) : Bytes :=
  if a.length = 0 then [] else pad16 (ccmAadPrefix a.length ++ a)

/-- `ccm_ctr_block(i)` (R207). -/
def ccmCtrBlock (c : CcmRegs) (i : Nat) : Bytes :=
  [BitVec.ofNat 8 (ccmLf c - 1)] ++ c.n ++ beN (ccmLf c) i

/-! ## The passes of CCM.FINAL -/

/-- `ccm_mac(pt)`: the CBC-MAC over the first block, the associated data and the plaintext; the
result is left in `Y` (R208). -/
def ccmMac (x : Ext) (pt : Bytes) (c : CcmRegs) : CcmRegs :=
  let bs := ccmB0 c pt.length ++ ccmAadBlocks c.astore ++ pad16 pt
  { c with y := cbcMac x .b16 c.k (zeros 16) (fullBlocks 16 bs) }

/-- The CTR pass over pieces of the message, advancing `A` (R209). -/
def ccmCtrPieces (x : Ext) : List Bytes → CcmRegs → Bytes × CcmRegs
  | [], c => ([], c)
  | pc :: ps, c =>
    let r := ctrStep x .b16 16 c.k c.a pc
    let rs := ccmCtrPieces x ps { c with a := r.2 }
    (r.1 ++ rs.1, rs.2)

/-- `ccm_ctr(data)`: the data cut every 16 bytes, the last piece possibly shorter (R209). -/
def ccmCtr (x : Ext) (data : Bytes) (c : CcmRegs) : Bytes × CcmRegs :=
  ccmCtrPieces x (pieces 16 data) c

/-- Keystream block 0 into `S0`, and `A` at counter block 1 (R204). -/
def ccmStart (x : Ext) (c : CcmRegs) : CcmRegs :=
  let a0 := ccmCtrBlock c 0
  { c with s0 := enc x .b16 c.k a0, a := incrW 16 a0 }

/-- `U`: the authentication value in `Y`, truncated and masked with `S0` (R204). -/
def ccmMaskedTag (c : CcmRegs) : Bytes :=
  bxor (first c.y c.tlen.toNat) (first c.s0 c.tlen.toNat)

/-! ## Commands -/

/-- CCM.INIT (R201). -/
def ccmInit (d : Dir) (klen tlen : Byte) (payload : Bytes) (s : State) : State :=
  let s0 := resetUnit .ccm s
  if !ccmInitOk s.par klen tlen payload then raise .ccm .invalidParameterLength opcCcmInit s0
  else
    let c := { s0.ccm with k := initKey klen payload, kv := true, dir := d, tlen := tlen,
                           nlen := BitVec.ofNat 8 (payload.length - klen.toNat),
                           n := initIv klen payload, phase := .aad }
    reply .ccm .ok opcCcmInit [] { s0 with ccm := c }

/-- CCM.AAD (R202). -/
def ccmAad (payload : Bytes) (s : State) : State :=
  if s.ccm.phase ≠ .aad then raise .ccm .sequenceError opcCcmAad s
  else if !ccmAadFits s.ccm payload.length then raise .ccm .messageTooLong opcCcmAad s
  else
    reply .ccm .ok opcCcmAad []
      { s with ccm := { s.ccm with astore := s.ccm.astore ++ payload } }

/-- CCM.UPDATE (R203). -/
def ccmUpdate (payload : Bytes) (s : State) : State :=
  if !sessionPhase s.ccm.phase then raise .ccm .sequenceError opcCcmUpdate s
  else if !ccmMsgFits s.ccm payload.length then raise .ccm .messageTooLong opcCcmUpdate s
  else
    reply .ccm .ok opcCcmUpdate []
      { s with ccm := { s.ccm with mstore := s.ccm.mstore ++ payload, phase := .data } }

/-- CCM.FINAL (R204): encrypting, the authentication pass over the stored plaintext and then the
CTR pass; decrypting, the CTR pass and then the authentication pass over its output. -/
def ccmFinal (x : Ext) (payload : Bytes) (s : State) : State :=
  if !sessionPhase s.ccm.phase then raise .ccm .sequenceError opcCcmFinal s
  else if s.ccm.dir = .encrypt ∧ payload.length ≠ 0 then
    raise .ccm .invalidParameterLength opcCcmFinal s
  else
    let c := ccmStart x s.ccm
    match c.dir with
    | .encrypt =>
      let r := ccmCtr x c.mstore (ccmMac x c.mstore c)
      reply .ccm .ok opcCcmFinal (r.1 ++ ccmMaskedTag r.2) (wipeUnit .ccm .done 0 s)
    | .decrypt =>
      let r := ccmCtr x c.mstore c
      let c2 := ccmMac x r.1 r.2
      if !tagMatches payload (ccmMaskedTag c2) then
        raise .ccm .authenticationFailure opcCcmFinal { s with ccm := c2 }
      else reply .ccm .ok opcCcmFinal r.1 (wipeUnit .ccm .done 0 s)

/-- The meaning of CCM.INIT. -/
def execCcmInit (d : Dir) (klen tlen : Byte) (payload : Bytes) (s : State) :
    Host.Outcome State Fault Refusal :=
  .next (ccmInit d klen tlen payload s)

/-- The meaning of CCM.AAD. -/
def execCcmAad (payload : Bytes) (s : State) : Host.Outcome State Fault Refusal :=
  .next (ccmAad payload s)

/-- The meaning of CCM.UPDATE. -/
def execCcmUpdate (payload : Bytes) (s : State) : Host.Outcome State Fault Refusal :=
  .next (ccmUpdate payload s)

/-- The meaning of CCM.FINAL. -/
def execCcmFinal (payload : Bytes) (s : State) : Host.Outcome State Fault Refusal :=
  .next (ccmFinal Config.ext payload s)

end Sys2Proof.Machine
end

