-- ==== Sys2Proof/Machine/Gcm.lean ====
section
/-! DEFINITION. The GHASH accumulator and the GCM unit (spec/42_ghash_gcm.md): GCM.INIT (R160),
GCM.AAD (R164), GCM.UPDATE (R165), GCM.FINAL (R166) over the internal operations R161 to R163, R167
and R168. The unit only ever runs on a 16-byte block cipher, since GCM.INIT refuses any other. -/

namespace Sys2Proof.Machine

/-! ## Internal operations -/

/-- `gh_absorb(B)` (R162). -/
def gcmAbsorb (b : Bytes) (g : GcmRegs) : GcmRegs := { g with x := gfMul (bxor g.x b) g.h }

/-- `gh_absorb` over blocks, in order: the `block_write` listener of `GCM.ABUF` (R162, R164). -/
def gcmAbsorbAll (bs : List Bytes) (g : GcmRegs) : GcmRegs := bs.foldl (fun g b => gcmAbsorb b g) g

/-- GHASH under `h` of blocks, from an accumulator: the loop of R161. -/
def ghashFrom (h : Bytes) (acc : Bytes) (bs : List Bytes) : Bytes :=
  bs.foldl (fun acc b => gfMul (bxor acc b) h) acc

/-- The initial counter block of `gcm_derive(iv)` under the hash subkey `h` (R161). -/
def gcmJ0 (h iv : Bytes) : Bytes :=
  if iv.length = 12 then iv ++ [0, 0, 0, 1]
  else
    let padded := padz iv (16 * ((iv.length + 15) / 16))
    ghashFrom h (ghashFrom h (zeros 16) (fullBlocks 16 padded)) [zeros 8 ++ beN 8 (8 * iv.length)]

/-- `gcm_derive(iv)`: `H` and `J0` (R161). -/
def gcmDerive (x : Ext) (iv : Bytes) (g : GcmRegs) : GcmRegs :=
  let h := enc x .b16 g.k (zeros 16)
  { g with h := h, j0 := gcmJ0 h iv }

/-- `gcm_ks_block(P)`: the CTR chaining step (R163). -/
def gcmKsBlock (x : Ext) (p : Params) (b : Bytes) (g : GcmRegs) : Bytes × GcmRegs :=
  let r := ctrStep x .b16 (gcmIncBytes p) g.k g.ctr b
  (r.1, { g with ctr := r.2 })

/-- `gcm_close_aad()` (R167). -/
def gcmCloseAad (g : GcmRegs) : GcmRegs :=
  let r := g.abuf
  let g1 := { g with abuf := [] }
  let g2 := if r.length > 0 then gcmAbsorb (padz r 16) g1 else g1
  { g2 with phase := .data }

/-- Close the associated data if it is still open (R165, R166). -/
def gcmOpenData (g : GcmRegs) : GcmRegs := if g.phase = .aad then gcmCloseAad g else g

/-- `gcm_data_block(B)`: one block, or a last short piece, through the CTR chain and into the
accumulator, which takes the ciphertext, zero-padded (R168). -/
def gcmDataBlock (x : Ext) (p : Params) (b : Bytes) (g : GcmRegs) : Bytes × GcmRegs :=
  let r := gcmKsBlock x p b g
  let c := match g.dir with
    | .encrypt => r.1
    | .decrypt => b
  (r.1, gcmAbsorb (padz c 16) r.2)

/-- `gcm_data_block` over blocks, in order, the outputs joined: the `block_write` listener of
`GCM.DBUF` (R165, R168). -/
def gcmDataBlocks (x : Ext) (p : Params) : List Bytes → GcmRegs → Bytes × GcmRegs
  | [], g => ([], g)
  | b :: bs, g =>
    let r := gcmDataBlock x p b g
    let rs := gcmDataBlocks x p bs r.2
    (r.1 ++ rs.1, rs.2)

/-- The last, short piece of the data stream: `bb_flush` of `GCM.DBUF` (R166). -/
def gcmFlushData (x : Ext) (p : Params) (g : GcmRegs) : Bytes × GcmRegs :=
  let g1 := { g with dbuf := [] }
  if g.dbuf.length > 0 then gcmDataBlock x p g.dbuf g1 else ([], g1)

/-- The block of the two bit counters (R166). -/
def gcmLengthBlock (g : GcmRegs) : Bytes := beN 8 g.alen.toNat ++ beN 8 g.clen.toNat

/-- The computed tag of an accumulator that has absorbed the length block (R166). -/
def gcmTag (x : Ext) (g : GcmRegs) : Bytes :=
  first (bxor g.x (enc x .b16 g.k g.j0)) g.tlen.toNat

/-! ## Commands -/

/-- GCM.INIT (R160). -/
def gcmInit (x : Ext) (d : Dir) (klen tlen : Byte) (payload : Bytes) (s : State) : State :=
  let s0 := resetUnit .gcm s
  if !gcmInitOk s.par klen tlen payload then raise .gcm .invalidParameterLength opcGcmInit s0
  else
    let g1 := { s0.gcm with k := initKey klen payload, kv := true, dir := d, tlen := tlen }
    let g2 := gcmDerive x (initIv klen payload) g1
    let g3 := { g2 with ctr := incrW (gcmIncBytes s.par) g2.j0, x := zeros 16, alen := 0, clen := 0,
                        phase := .aad }
    reply .gcm .ok opcGcmInit [] { s0 with gcm := g3 }

/-- GCM.AAD (R164). -/
def gcmAad (payload : Bytes) (s : State) : State :=
  if s.gcm.phase ≠ .aad then raise .gcm .sequenceError opcGcmAad s
  else if !bitCountFits s.gcm.alen maxCount payload.length then
    raise .gcm .messageTooLong opcGcmAad s
  else
    let g1 := { s.gcm with alen := bitCountAdd s.gcm.alen payload.length }
    let r := bbCut 16 g1.abuf payload
    let g2 := { gcmAbsorbAll r.1 g1 with abuf := r.2 }
    reply .gcm .ok opcGcmAad [] { s with gcm := g2 }

/-- GCM.UPDATE (R165). -/
def gcmUpdate (x : Ext) (payload : Bytes) (s : State) : State :=
  if !sessionPhase s.gcm.phase then raise .gcm .sequenceError opcGcmUpdate s
  else if !bitCountFits s.gcm.clen s.par.gcmPtLimit payload.length then
    raise .gcm .messageTooLong opcGcmUpdate s
  else
    let g1 := gcmOpenData s.gcm
    let g2 := { g1 with clen := bitCountAdd g1.clen payload.length }
    let r := bbCut 16 g2.dbuf payload
    let o := gcmDataBlocks x s.par r.1 g2
    let g3 := { o.2 with dbuf := r.2 }
    match g3.dir with
    | .encrypt => reply .gcm .ok opcGcmUpdate o.1 { s with gcm := g3 }
    | .decrypt => reply .gcm .ok opcGcmUpdate [] { s with gcm := { g3 with hold := g3.hold ++ o.1 } }

/-- GCM.FINAL (R166): on success and on failure every register of the unit is cleared. -/
def gcmFinal (x : Ext) (payload : Bytes) (s : State) : State :=
  if !sessionPhase s.gcm.phase then raise .gcm .sequenceError opcGcmFinal s
  else if s.gcm.dir = .encrypt ∧ payload.length ≠ 0 then
    raise .gcm .invalidParameterLength opcGcmFinal s
  else
    let o := gcmFlushData x s.par (gcmOpenData s.gcm)
    let g := gcmAbsorb (gcmLengthBlock o.2) o.2
    let t := gcmTag x g
    match g.dir with
    | .encrypt => reply .gcm .ok opcGcmFinal (o.1 ++ t) (wipeUnit .gcm .done 0 s)
    | .decrypt =>
      if !tagMatches payload t then raise .gcm .authenticationFailure opcGcmFinal { s with gcm := g }
      else reply .gcm .ok opcGcmFinal (g.hold ++ o.1) (wipeUnit .gcm .done 0 s)

/-- The meaning of GCM.INIT. -/
def execGcmInit (d : Dir) (klen tlen : Byte) (payload : Bytes) (s : State) :
    Host.Outcome State Fault Refusal :=
  .next (gcmInit Config.ext d klen tlen payload s)

/-- The meaning of GCM.AAD. -/
def execGcmAad (payload : Bytes) (s : State) : Host.Outcome State Fault Refusal :=
  .next (gcmAad payload s)

/-- The meaning of GCM.UPDATE. -/
def execGcmUpdate (payload : Bytes) (s : State) : Host.Outcome State Fault Refusal :=
  .next (gcmUpdate Config.ext payload s)

/-- The meaning of GCM.FINAL. -/
def execGcmFinal (payload : Bytes) (s : State) : Host.Outcome State Fault Refusal :=
  .next (gcmFinal Config.ext payload s)

end Sys2Proof.Machine
end

