-- ==== Sys2Proof/Machine/Mac.lean ====
section
/-! DEFINITION. The MAC unit (spec/44_cmac.md): MAC.INIT (R231), MAC.UPDATE (R234), MAC.SIGN (R237),
MAC.VERIFY (R238) over subkey derivation (R232), the held block (R233), the final-block selector
(R239) and finalisation (R235, R236). The block length is the attached cipher's, 8 or 16. -/

namespace Sys2Proof.Machine

/-! ## Internal operations -/

/-- `mac_derive()` for CMAC: `L`, `K1 = dbl(L)`, `K2 = dbl(K1)`; the chain key is the master key
(R232). -/
def macDeriveCmac (x : Ext) (p : Params) (m : MacRegs) : MacRegs :=
  let bl := p.blockLen
  let l := enc x bl m.k (zeros bl.bytes)
  let k1 := dbl (dblConst p bl) bl l
  { m with kc := m.k, l := l, k1 := k1, k2 := dbl (dblConst p bl) bl k1, k3 := zeros bl.bytes }

/-- `mac_derive()` for OMAC2: as CMAC but for `K2`, the open parameter of `L` (R232). -/
def macDeriveOmac2 (x : Ext) (p : Params) (m : MacRegs) : MacRegs :=
  let bl := p.blockLen
  let l := enc x bl m.k (zeros bl.bytes)
  { m with kc := m.k, l := l, k1 := dbl (dblConst p bl) bl l, k2 := omac2K2 x bl l,
           k3 := zeros bl.bytes }

/-- `mac_derive()` for XCBC: three encryptions of constant blocks; the port is re-keyed with `K1`
(R232). -/
def macDeriveXcbc (x : Ext) (p : Params) (m : MacRegs) : MacRegs :=
  let bl := p.blockLen
  let k1 := enc x bl m.k (rep 0x01 bl.bytes)
  { m with k1 := k1, k2 := enc x bl m.k (rep 0x02 bl.bytes), k3 := enc x bl m.k (rep 0x03 bl.bytes),
           l := zeros bl.bytes, kc := k1 }

/-- `mac_derive()` (R232). -/
def macDerive (x : Ext) (p : Params) (m : MacRegs) : MacRegs :=
  match m.var with
  | .cmac => macDeriveCmac x p m
  | .omac2 => macDeriveOmac2 x p m
  | .xcbc => macDeriveXcbc x p m

/-- `KA`, exclusive-ored into a full last block (R239; spec/90_conflicts.md C1). -/
def macKa (m : MacRegs) : Bytes :=
  match m.var with
  | .cmac | .omac2 => m.k1
  | .xcbc => m.k2

/-- `KB`, exclusive-ored into a padded last block (R239; spec/90_conflicts.md C1). -/
def macKb (m : MacRegs) : Bytes :=
  match m.var with
  | .cmac | .omac2 => m.k2
  | .xcbc => m.k3

/-- Chain the held block, if there is one (R233, R235). -/
def macChainHeld (x : Ext) (bl : BlockLen) (m : MacRegs) : MacRegs :=
  if m.heldv then { m with x := cbcEncStep x bl m.kc m.x m.held } else m

/-- `mac_block(B)`: chain the block that was waiting, hold the new one (R233). -/
def macBlock (x : Ext) (bl : BlockLen) (b : Bytes) (m : MacRegs) : MacRegs :=
  { macChainHeld x bl m with held := b, heldv := true }

/-- `bb_put(MAC.BUF, data)` with `mac_block` as listener (R234, R237). -/
def macPut (x : Ext) (bl : BlockLen) (data : Bytes) (m : MacRegs) : MacRegs :=
  let r := bbCut bl.bytes m.buf data
  { r.1.foldl (fun m b => macBlock x bl b m) m with buf := r.2 }

/-- `mac_reset_acc()` (R236). -/
def macResetAcc (bl : BlockLen) (m : MacRegs) : MacRegs :=
  { m with x := zeros bl.bytes, buf := [], held := zeros bl.bytes, heldv := false, phase := .ready }

/-- `mac_finalize()`: the untruncated MAC, and the registers with the accumulator reset (R235). -/
def macFinalize (x : Ext) (bl : BlockLen) (m : MacRegs) : Bytes × MacRegs :=
  let r := m.buf
  let m1 := { m with buf := [] }
  if r.length = 0 ∧ m.heldv = true then
    (enc x bl m1.kc (bxor m1.x (bxor m1.held (macKa m1))), macResetAcc bl m1)
  else
    let m2 := macChainHeld x bl m1
    (enc x bl m2.kc (bxor m2.x (bxor (pad80 r bl.bytes) (macKb m2))), macResetAcc bl m2)

/-! ## Commands -/

/-- MAC.INIT (R231). -/
def macInit (x : Ext) (vv : Variant) (klen tlen : Byte) (payload : Bytes) (s : State) : State :=
  let s0 := resetUnit .mac s
  let bl := s.par.blockLen
  if !macInitOk s.par vv klen tlen payload then raise .mac .invalidParameterLength opcMacInit s0
  else
    let m1 := { s0.mac with k := payload, var := vv, tlen := tlen }
    let m2 := { macDerive x s.par m1 with kv := true }
    reply .mac .ok opcMacInit [] { s0 with mac := macResetAcc bl m2 }

/-- MAC.UPDATE (R234). -/
def macUpdate (x : Ext) (payload : Bytes) (s : State) : State :=
  if s.mac.phase ≠ .ready then raise .mac .sequenceError opcMacUpdate s
  else reply .mac .ok opcMacUpdate [] { s with mac := macPut x s.par.blockLen payload s.mac }

/-- MAC.SIGN (R237). -/
def macSign (x : Ext) (payload : Bytes) (s : State) : State :=
  if s.mac.phase ≠ .ready then raise .mac .sequenceError opcMacSign s
  else
    let r := macFinalize x s.par.blockLen (macPut x s.par.blockLen payload s.mac)
    reply .mac .ok opcMacSign (first r.1 s.mac.tlen.toNat) { s with mac := r.2 }

/-- MAC.VERIFY (R238): a mismatch is reported with status 3 and is no fault. -/
def macVerify (x : Ext) (payload : Bytes) (s : State) : State :=
  if s.mac.phase ≠ .ready then raise .mac .sequenceError opcMacVerify s
  else
    let r := macFinalize x s.par.blockLen s.mac
    if tagMatches payload (first r.1 s.mac.tlen.toNat) then
      reply .mac .ok opcMacVerify [] { s with mac := r.2 }
    else reply .mac .authenticationFailure opcMacVerify [] { s with mac := r.2 }

/-- The meaning of MAC.INIT. -/
def execMacInit (vv : Variant) (klen tlen : Byte) (payload : Bytes) (s : State) :
    Host.Outcome State Fault Refusal :=
  .next (macInit Config.ext vv klen tlen payload s)

/-- The meaning of MAC.UPDATE. -/
def execMacUpdate (payload : Bytes) (s : State) : Host.Outcome State Fault Refusal :=
  .next (macUpdate Config.ext payload s)

/-- The meaning of MAC.SIGN. -/
def execMacSign (payload : Bytes) (s : State) : Host.Outcome State Fault Refusal :=
  .next (macSign Config.ext payload s)

/-- The meaning of MAC.VERIFY. -/
def execMacVerify (payload : Bytes) (s : State) : Host.Outcome State Fault Refusal :=
  .next (macVerify Config.ext payload s)

end Sys2Proof.Machine
end

