-- ==== Sys2Proof/Machine/Sys.lean ====
section
/-! DEFINITION. The system commands (spec/45_sys.md): SYS.RESET (R261) and SYS.STATUS (R262). They
address no unit, never raise and answer with `RPHASE = 0` (R260). -/

namespace Sys2Proof.Machine

/-- Every register of every unit to its reset value: the reset event (R261, R300). What stands on
the ports is outside the block and stays (R301). -/
def resetAll (s : State) : State :=
  resetUnit .mac (resetUnit .ccm (resetUnit .gcm (resetUnit .bb0 s)))

/-- SYS.RESET (R261). -/
def sysReset (s : State) : State := respond .ok opcSysReset 0 [] (resetAll s)

/-- The payload of SYS.STATUS: phase and error of each unit, in the order of R262. -/
def statusBytes (s : State) : Bytes :=
  [phaseCode s.bb0.phase, s.bb0.err, phaseCode s.gcm.phase, s.gcm.err,
   phaseCode s.ccm.phase, s.ccm.err, phaseCode s.mac.phase, s.mac.err]

/-- SYS.STATUS (R262). -/
def sysStatus (s : State) : State := respond .ok opcSysStatus 0 (statusBytes s) s

/-- The meaning of SYS.RESET. -/
def execSysReset (s : State) : Host.Outcome State Fault Refusal := .next (sysReset s)

/-- The meaning of SYS.STATUS. -/
def execSysStatus (s : State) : Host.Outcome State Fault Refusal := .next (sysStatus s)

end Sys2Proof.Machine
end

