-- ==== Sys2Proof/Machine/Dispatch.lean ====
section
/-! DEFINITION. The dispatch of a command to its meaning: one arm per row of
spec/opcode_table.json (spec/30_encoding.md R97, R100). -/

namespace Sys2Proof.Machine

def exec (i : Instr) (s : State) : Host.Outcome State Fault Refusal :=
  match i with
  | .sysReset => Sys2Proof.Machine.execSysReset s
  | .sysStatus => Sys2Proof.Machine.execSysStatus s
  | .bbOpen blen => Sys2Proof.Machine.execBbOpen blen s
  | .bbPut payload => Sys2Proof.Machine.execBbPut payload s
  | .bbFlush => Sys2Proof.Machine.execBbFlush s
  | .gcmInit d klen tlen payload => Sys2Proof.Machine.execGcmInit d klen tlen payload s
  | .gcmAad payload => Sys2Proof.Machine.execGcmAad payload s
  | .gcmUpdate payload => Sys2Proof.Machine.execGcmUpdate payload s
  | .gcmFinal payload => Sys2Proof.Machine.execGcmFinal payload s
  | .ccmInit d klen tlen payload => Sys2Proof.Machine.execCcmInit d klen tlen payload s
  | .ccmAad payload => Sys2Proof.Machine.execCcmAad payload s
  | .ccmUpdate payload => Sys2Proof.Machine.execCcmUpdate payload s
  | .ccmFinal payload => Sys2Proof.Machine.execCcmFinal payload s
  | .macInit vv klen tlen payload => Sys2Proof.Machine.execMacInit vv klen tlen payload s
  | .macUpdate payload => Sys2Proof.Machine.execMacUpdate payload s
  | .macSign payload => Sys2Proof.Machine.execMacSign payload s
  | .macVerify payload => Sys2Proof.Machine.execMacVerify payload s

end Sys2Proof.Machine
end

