-- ==== Sys2Proof/Machine/Frame.lean ====
section
/-! DEFINITION. What the sequencer does with the front of the command port's byte stream before and
beside running a command (spec/30_encoding.md R98, R100): consume the frame, answer an illegal one. -/

namespace Sys2Proof.Machine

/-- The stream after a whole frame has been consumed (R100). -/
def consumeTo (rest : Bytes) (s : State) : State := { s with cmdIn := rest }

/-- The answer to an illegal frame: status 6, `ROPC = OPC`, `RPHASE = 0`, no payload, and no unit
changed (R98, R276). -/
def answerIllegal (opc : Byte) (s : State) : State := respond .illegalCommand opc 0 [] s

end Sys2Proof.Machine
end

