-- ==== Sys2Proof/Machine/Step.lean ====
section
/-! DEFINITION. One step of the sequencer (spec/10_state.md R20; spec/30_encoding.md R100): take one
whole frame from the command port and run its command to completion, or answer it as illegal; with
no whole frame on the port nothing happens. -/

namespace Sys2Proof.Machine

/-- One step (R20, R98, R100). -/
def step (s : State) : Host.Outcome State Fault Refusal :=
  match fetchFrame s.cmdIn with
  | .wait => .next s
  | .command i rest => exec i (consumeTo rest s)
  | .illegal opc _ rest => .next (answerIllegal opc (consumeTo rest s))

/-- The state with the frame whose bits are `w` as all that stands on the command port
(notes/assumptions/5.md, 7.md). -/
def State.withFetchWord (s : State) (nbits w : Nat) : State :=
  { s with cmdIn := tableFrame nbits w }

end Sys2Proof.Machine
end

