-- ==== Sys2Proof/Machine/Asm.lean ====
section
/-! DEFINITION. The assembler of spec/30_encoding.md R101 and the pseudo-commands of R102: how a line
of text becomes the commands whose frames are sent. The block itself never reads text; the points
the rules leave open (letter case, spacing, how a pseudo-command's operands are written) are
notes/assumptions/17.md. -/

namespace Sys2Proof.Machine

/-! ## What the assembler supplies -/

/-- `KLEN = len(key)`; a key of more than 255 bytes has no frame (R93, R101). -/
def klenOf (key : Bytes) : Option Byte :=
  if key.length < 256 then some (BitVec.ofNat 8 key.length) else none

/-- GCM.INIT from its named operands; `tlen` is 16 when omitted (R95, R101). -/
def asmGcmInit (d : Dir) (tlen : Option Byte) (key iv : Bytes) : Option Instr :=
  (klenOf key).map fun klen => .gcmInit d klen (tlen.getD 16) (key ++ iv)

/-- CCM.INIT from its named operands; `tlen` is 8 when omitted (R95, R101). -/
def asmCcmInit (d : Dir) (tlen : Option Byte) (key nonce : Bytes) : Option Instr :=
  (klenOf key).map fun klen => .ccmInit d klen (tlen.getD 8) (key ++ nonce)

/-- MAC.INIT from its named operands; `tlen` is `BL` when omitted (R101). -/
def asmMacInit (bl : BlockLen) (vv : Variant) (tlen : Option Byte) (key : Bytes) : Option Instr :=
  (klenOf key).map fun klen => .macInit vv klen (tlen.getD (BitVec.ofNat 8 bl.bytes)) key

/-! ## Pseudo-commands (R102) -/

/-- `BB.CLOSE`. -/
def pseudoBbClose : List Instr := [.bbFlush]

/-- `MAC.DOFINAL`. -/
def pseudoMacDofinal (message : Bytes) : List Instr := [.macSign message]

/-- `GCM.SEAL`. -/
def pseudoGcmSeal (tlen : Option Byte) (key iv aad pt : Bytes) : Option (List Instr) :=
  (asmGcmInit .encrypt tlen key iv).map fun i => [i, .gcmAad aad, .gcmUpdate pt, .gcmFinal []]

/-- `GCM.UNSEAL`. -/
def pseudoGcmUnseal (tlen : Option Byte) (key iv aad ct tag : Bytes) : Option (List Instr) :=
  (asmGcmInit .decrypt tlen key iv).map fun i => [i, .gcmAad aad, .gcmUpdate ct, .gcmFinal tag]

/-- `CCM.SEAL`. -/
def pseudoCcmSeal (tlen : Option Byte) (key nonce aad pt : Bytes) : Option (List Instr) :=
  (asmCcmInit .encrypt tlen key nonce).map fun i => [i, .ccmAad aad, .ccmUpdate pt, .ccmFinal []]

/-- `CCM.UNSEAL`. -/
def pseudoCcmUnseal (tlen : Option Byte) (key nonce aad ct tag : Bytes) : Option (List Instr) :=
  (asmCcmInit .decrypt tlen key nonce).map fun i => [i, .ccmAad aad, .ccmUpdate ct, .ccmFinal tag]

/-- `GMAC`: `GCM.SEAL` with empty plaintext. -/
def pseudoGmac (tlen : Option Byte) (key iv aad : Bytes) : Option (List Instr) :=
  pseudoGcmSeal tlen key iv aad []

/-! ## Words of a line -/

/-- The words of a line, separated by blanks. -/
def asmWords : List Char → List (List Char)
  | [] => []
  | c :: cs =>
    if c = ' ' ∨ c = '\t' then [] :: asmWords cs
    else
      match asmWords cs with
      | [] => [[c]]
      | w :: ws => (c :: w) :: ws

/-- The value of a hex digit, either case. -/
def hexDigit (c : Char) : Option Nat :=
  if '0' ≤ c ∧ c ≤ '9' then some (c.toNat - '0'.toNat)
  else if 'a' ≤ c ∧ c ≤ 'f' then some (c.toNat - 'a'.toNat + 10)
  else if 'A' ≤ c ∧ c ≤ 'F' then some (c.toNat - 'A'.toNat + 10)
  else none

/-- Pairs of hex digits as bytes, in index order. -/
def hexPairs : List Char → Option Bytes
  | [] => some []
  | [_] => none
  | a :: b :: cs =>
    match hexDigit a, hexDigit b, hexPairs cs with
    | some x, some y, some bs => some (BitVec.ofNat 8 (16 * x + y) :: bs)
    | _, _, _ => none

/-- `<hex>`: an even number of hex digits; the empty sequence is written `-` (R101). -/
def asmHex (w : List Char) : Option Bytes :=
  if w = ['-'] then some [] else if w.isEmpty then none else hexPairs w

/-- A decimal number, most significant digit first, on top of `acc`. -/
def decimalFrom : List Char → Nat → Option Nat
  | [], acc => some acc
  | c :: cs, acc =>
    if '0' ≤ c ∧ c ≤ '9' then decimalFrom cs (10 * acc + (c.toNat - '0'.toNat)) else none

/-- `<n>`: a decimal number that fits a byte (R94, R101). -/
def asmByte (w : List Char) : Option Byte :=
  if w.isEmpty then none
  else
    match decimalFrom w 0 with
    | some n => if n < 256 then some (BitVec.ofNat 8 n) else none
    | none => none

/-- A word of operands: a keyword operand under its keyword, any other word under the empty one. A
word that begins with `=` has no keyword and is none of R101's forms; it goes under `=`, which no
command takes, so its line gives no command (DESIGN CHOICE, notes/assumptions/17.md). -/
def asmOperand (w : List Char) : List Char × List Char :=
  match w.span (· ≠ '=') with
  | ([], _ :: v) => (['='], v)
  | (k, _ :: v) => (k, v)
  | (k, []) => ([], k)

/-- The operands of a line: each word read by `asmOperand`. -/
abbrev AsmOperands := List (List Char × List Char)

/-- The value of a keyword, if it is given. -/
def operand? (ops : AsmOperands) (k : List Char) : Option (List Char) :=
  (ops.find? fun o => o.1 == k).map Prod.snd

/-- Every operand is one of the keywords listed, and none is given twice (the order is free,
R101). -/
def operandsFit (ops : AsmOperands) (ks : List (List Char)) : Bool :=
  ops.all (fun o => ks.contains o.1) && decide (ops.map Prod.fst).Nodup

/-- The byte sequence of a keyword, which must be given. -/
def hexOperand (ops : AsmOperands) (k : List Char) : Option Bytes := (operand? ops k).bind asmHex

/-- The byte sequence of an operand that may be left out; left out it is empty. -/
def hexOperandOr (ops : AsmOperands) (k : List Char) : Option Bytes :=
  match operand? ops k with
  | some w => asmHex w
  | none => some []

/-- `tlen=<n>`, which may be left out; present, it must be a number. -/
def tlenOperand (ops : AsmOperands) : Option (Option Byte) :=
  match operand? ops ['t', 'l', 'e', 'n'] with
  | some w => (asmByte w).map some
  | none => some none

/-- `dir=enc|dec` (R101). -/
def dirOperand (ops : AsmOperands) : Option Dir :=
  match operand? ops ['d', 'i', 'r'] with
  | some ['e', 'n', 'c'] => some .encrypt
  | some ['d', 'e', 'c'] => some .decrypt
  | _ => none

/-- `var=cmac|omac2|xcbc` (R101). -/
def varOperand (ops : AsmOperands) : Option Variant :=
  match operand? ops ['v', 'a', 'r'] with
  | some ['c', 'm', 'a', 'c'] => some .cmac
  | some ['o', 'm', 'a', 'c', '2'] => some .omac2
  | some ['x', 'c', 'b', 'c'] => some .xcbc
  | _ => none

/-! ## One line (R101, R102) -/

/-- The mnemonics of the text: the commands of R101 and the pseudo-commands of R102. -/
inductive AsmOp
  | sysReset | sysStatus | bbOpen | bbPut | bbFlush
  | gcmInit | gcmAad | gcmUpdate | gcmFinal
  | ccmInit | ccmAad | ccmUpdate | ccmFinal
  | macInit | macUpdate | macSign | macVerify
  | bbClose | macDofinal | gcmSeal | gcmUnseal | ccmSeal | ccmUnseal | gmac
  deriving DecidableEq, Repr, Inhabited

/-- The mnemonics as R101 and R102 spell them. -/
def asmMnemonics : List (String × AsmOp) := [
  ("SYS.RESET", .sysReset), ("SYS.STATUS", .sysStatus), ("BB.OPEN", .bbOpen), ("BB.PUT", .bbPut),
  ("BB.FLUSH", .bbFlush), ("GCM.INIT", .gcmInit), ("GCM.AAD", .gcmAad),
  ("GCM.UPDATE", .gcmUpdate), ("GCM.FINAL", .gcmFinal), ("CCM.INIT", .ccmInit),
  ("CCM.AAD", .ccmAad), ("CCM.UPDATE", .ccmUpdate), ("CCM.FINAL", .ccmFinal),
  ("MAC.INIT", .macInit), ("MAC.UPDATE", .macUpdate), ("MAC.SIGN", .macSign),
  ("MAC.VERIFY", .macVerify), ("BB.CLOSE", .bbClose), ("MAC.DOFINAL", .macDofinal),
  ("GCM.SEAL", .gcmSeal), ("GCM.UNSEAL", .gcmUnseal), ("CCM.SEAL", .ccmSeal),
  ("CCM.UNSEAL", .ccmUnseal), ("GMAC", .gmac)]

/-- The operation a mnemonic word names. -/
def asmOpOf (w : List Char) : Option AsmOp :=
  (asmMnemonics.find? fun m => m.1.toList == w).map Prod.snd

/-- A line without operands. -/
def asmNone (i : Instr) (ops : AsmOperands) : Option (List Instr) :=
  if ops.isEmpty then some [i] else none

/-- A line with one byte sequence, which must be written. -/
def asmOne (f : Bytes → Instr) (ops : AsmOperands) : Option (List Instr) :=
  if operandsFit ops [[]] then (hexOperand ops []).map fun b => [f b] else none

/-- The keyword `key`. -/
def kwKey : List Char := ['k', 'e', 'y']
/-- The keyword `iv`. -/
def kwIv : List Char := ['i', 'v']
/-- The keyword `nonce`. -/
def kwNonce : List Char := ['n', 'o', 'n', 'c', 'e']
/-- The keyword `tag`. -/
def kwTag : List Char := ['t', 'a', 'g']
/-- The keyword `aad`. -/
def kwAad : List Char := ['a', 'a', 'd']
/-- The keyword `pt`. -/
def kwPt : List Char := ['p', 't']
/-- The keyword `ct`. -/
def kwCt : List Char := ['c', 't']
/-- The keyword `tlen`. -/
def kwTlen : List Char := ['t', 'l', 'e', 'n']
/-- The keyword `dir`. -/
def kwDir : List Char := ['d', 'i', 'r']
/-- The keyword `var`. -/
def kwVar : List Char := ['v', 'a', 'r']
/-- The keyword `bl`. -/
def kwBl : List Char := ['b', 'l']

/-- The operands of one line read under its mnemonic (R101, R102). -/
def asmApply (bl : BlockLen) (op : AsmOp) (ops : AsmOperands) : Option (List Instr) :=
  let hex := hexOperand ops
  match op with
  | .sysReset => asmNone .sysReset ops
  | .sysStatus => asmNone .sysStatus ops
  | .bbFlush => asmNone .bbFlush ops
  | .bbClose => if ops.isEmpty then some pseudoBbClose else none
  | .bbOpen =>
    if operandsFit ops [kwBl] then
      ((operand? ops kwBl).bind asmByte).bind fun n => if n = 0 then none else some [.bbOpen n]
    else none
  | .bbPut => asmOne .bbPut ops
  | .gcmAad => asmOne .gcmAad ops
  | .gcmUpdate => asmOne .gcmUpdate ops
  | .ccmAad => asmOne .ccmAad ops
  | .ccmUpdate => asmOne .ccmUpdate ops
  | .macUpdate => asmOne .macUpdate ops
  | .macDofinal =>
    if operandsFit ops [[]] then (hex []).map pseudoMacDofinal else none
  | .macSign =>
    if operandsFit ops [[]] then (hexOperandOr ops []).map fun b => [.macSign b] else none
  | .gcmFinal =>
    if operandsFit ops [kwTag] then (hexOperandOr ops kwTag).map fun b => [.gcmFinal b] else none
  | .ccmFinal =>
    if operandsFit ops [kwTag] then (hexOperandOr ops kwTag).map fun b => [.ccmFinal b] else none
  | .macVerify =>
    if operandsFit ops [kwTag] then (hex kwTag).map fun b => [.macVerify b] else none
  | .gcmInit =>
    if operandsFit ops [kwDir, kwTlen, kwKey, kwIv] then do
      let i ← asmGcmInit (← dirOperand ops) (← tlenOperand ops) (← hex kwKey) (← hex kwIv)
      some [i]
    else none
  | .ccmInit =>
    if operandsFit ops [kwDir, kwTlen, kwKey, kwNonce] then do
      let i ← asmCcmInit (← dirOperand ops) (← tlenOperand ops) (← hex kwKey) (← hex kwNonce)
      some [i]
    else none
  | .macInit =>
    if operandsFit ops [kwVar, kwTlen, kwKey] then do
      let i ← asmMacInit bl (← varOperand ops) (← tlenOperand ops) (← hex kwKey)
      some [i]
    else none
  | .gcmSeal =>
    if operandsFit ops [kwTlen, kwKey, kwIv, kwAad, kwPt] then do
      pseudoGcmSeal (← tlenOperand ops) (← hex kwKey) (← hex kwIv) (← hex kwAad) (← hex kwPt)
    else none
  | .gcmUnseal =>
    if operandsFit ops [kwTlen, kwKey, kwIv, kwAad, kwCt, kwTag] then do
      pseudoGcmUnseal (← tlenOperand ops) (← hex kwKey) (← hex kwIv) (← hex kwAad) (← hex kwCt)
        (← hex kwTag)
    else none
  | .ccmSeal =>
    if operandsFit ops [kwTlen, kwKey, kwNonce, kwAad, kwPt] then do
      pseudoCcmSeal (← tlenOperand ops) (← hex kwKey) (← hex kwNonce) (← hex kwAad) (← hex kwPt)
    else none
  | .ccmUnseal =>
    if operandsFit ops [kwTlen, kwKey, kwNonce, kwAad, kwCt, kwTag] then do
      pseudoCcmUnseal (← tlenOperand ops) (← hex kwKey) (← hex kwNonce) (← hex kwAad) (← hex kwCt)
        (← hex kwTag)
    else none
  | .gmac =>
    if operandsFit ops [kwTlen, kwKey, kwIv, kwAad] then do
      pseudoGmac (← tlenOperand ops) (← hex kwKey) (← hex kwIv) (← hex kwAad)
    else none

/-- The commands of one line of text; none where the line is not of the form of R101 or R102. -/
def assemble (bl : BlockLen) (line : List Char) : Option (List Instr) :=
  match (asmWords line).filter (fun w => !w.isEmpty) with
  | [] => none
  | m :: ws => (asmOpOf m).bind fun op => asmApply bl op (ws.map asmOperand)

end Sys2Proof.Machine
end

