-- ==== Sys2Proof/Machine/WholeInput.lean ====
section
/-! DEFINITION. What the commands compute, as functions of whole inputs: the listener calls of a
BlockBuffer (spec/40_blockbuffer.md R124), GHASH and GCM (spec/42_ghash_gcm.md R169, R170), CCM
(spec/43_ccm.md R210) and the MAC (spec/44_cmac.md R240). No command calls them; the statements
about sessions are in their terms. -/

namespace Sys2Proof.Machine

/-! ## The BlockBuffer (R120 to R124) -/

/-- A call a BlockBuffer makes to its listener. -/
inductive ListenerCall
  | blockWrite (b : Bytes)
  | blockFlush (r : Bytes)
  deriving DecidableEq, Repr

/-- The calls of `bb_put(b, d_1); ...; bb_put(b, d_j); bb_flush(b)` (R121, R122, R124). -/
def bufferCalls (bl : Nat) : Bytes → List Bytes → List ListenerCall
  | carry, [] => [.blockFlush carry]
  | carry, d :: ds =>
    let r := bbCut bl carry d
    r.1.map ListenerCall.blockWrite ++ bufferCalls bl r.2 ds

/-! ## CTR over a list of pieces (R145) -/

/-- The counter `n` increments on. -/
def incrIter (q : Nat) : Nat → Bytes → Bytes
  | 0, c => c
  | n + 1, c => incrIter q n (incrW q c)

/-- Piece `i` (from 0) exclusive-ored with the keystream of the counter `i` increments on. -/
def ctrPieces (x : Ext) (q : Nat) (k ctr : Bytes) (ps : List Bytes) : List Bytes :=
  ps.mapIdx fun i p => bxor p (first (enc x .b16 k (incrIter q i ctr)) p.length)

/-! ## GHASH and GCM (R169, R170) -/

/-- `ghash(H, A, C)` (R169). -/
def ghash (h a c : Bytes) : Bytes :=
  ghashFrom h (zeros 16)
    (fullBlocks 16 (pad16 a ++ pad16 c ++ (beN 8 (8 * a.length) ++ beN 8 (8 * c.length))))

/-- The initial counter block of an IV: `IV ++ 00 00 00 01`, or GHASH of an IV that is not 12
bytes (R161, whose second branch is `ghash` with no associated data). -/
def j0Of (h iv : Bytes) : Bytes := if iv.length = 12 then iv ++ [0, 0, 0, 1] else ghash h [] iv

/-- The ciphertext of a plaintext, or the plaintext of a ciphertext, with `C_0 = incr(J0)` (R170). -/
def gcmCrypt (x : Ext) (q : Nat) (k iv p : Bytes) : Bytes :=
  (ctrPieces x q k (incrW q (j0Of (enc x .b16 k (zeros 16)) iv)) (pieces 16 p)).flatten

/-- The tag of associated data and ciphertext, `t` bytes (R170). -/
def gcmTagOf (x : Ext) (k iv : Bytes) (t : Nat) (a c : Bytes) : Bytes :=
  let h := enc x .b16 k (zeros 16)
  first (bxor (ghash h a c) (enc x .b16 k (j0Of h iv))) t

/-! ## CCM (R205, R207, R210) -/

/-- `ccm_b0` for nonce `n`, tag length `m`, associated data `a` and `lm` message bytes (R205). -/
def ccmFirstBlock (n : Bytes) (m : Nat) (a : Bytes) (lm : Nat) : Bytes :=
  [BitVec.ofNat 8 (64 * (if a.length > 0 then 1 else 0) + 8 * ((m - 2) / 2) + (15 - n.length - 1))]
    ++ n ++ beN (15 - n.length) lm

/-- The counter block of a nonce with block counter `i` (R207). -/
def ccmCounterBlock (n : Bytes) (i : Nat) : Bytes :=
  [BitVec.ofNat 8 (15 - n.length - 1)] ++ n ++ beN (15 - n.length) i

/-- The authentication value before truncation (R208). -/
def ccmAuth (x : Ext) (k n : Bytes) (m : Nat) (a p : Bytes) : Bytes :=
  cbcMac x .b16 k (zeros 16)
    (fullBlocks 16 (ccmFirstBlock n m a p.length ++ ccmAadBlocks a ++ pad16 p))

/-- Block `i` of the message (from 1) exclusive-ored with `E(K, ccm_ctr_block(i))` (R209, R210). -/
def ccmCrypt (x : Ext) (k n p : Bytes) : Bytes :=
  ((pieces 16 p).mapIdx fun i c =>
    bxor c (first (enc x .b16 k (ccmCounterBlock n (i + 1))) c.length)).flatten

/-- The encrypted tag `U` (R210). -/
def ccmTagOf (x : Ext) (k n : Bytes) (m : Nat) (a p : Bytes) : Bytes :=
  bxor (first (ccmAuth x k n m a p) m) (first (enc x .b16 k (ccmCounterBlock n 0)) m)

/-! ## The MAC (R240) -/

/-- `Tfull` of a message under chain key `kc` and selector `ka`, `kb` (R240). -/
def macOf (x : Ext) (bl : BlockLen) (kc ka kb m : Bytes) : Bytes :=
  let q := max 1 ((m.length + (bl.bytes - 1)) / bl.bytes)
  let v := cbcMac x bl kc (zeros bl.bytes) (cut bl.bytes (q - 1) m)
  let last := m.drop ((q - 1) * bl.bytes)
  if 0 < m.length ∧ m.length % bl.bytes = 0 then enc x bl kc (bxor v (bxor last ka))
  else enc x bl kc (bxor v (bxor (pad80 last bl.bytes) kb))


/-- `Tfull` of a message whose last bytes are `data` and whose earlier bytes are in the chain, the
held block and the carry of `m` (R233, R235, R239). -/
def macTagFrom (x : Ext) (bl : BlockLen) (m : MacRegs) (data : Bytes) : Bytes :=
  let blocks := (if m.heldv then [m.held] else []) ++ fullBlocks bl.bytes (m.buf ++ data)
  let r := remainder bl.bytes (m.buf ++ data)
  if r = [] ∧ blocks ≠ [] then
    enc x bl m.kc (bxor (cbcMac x bl m.kc m.x blocks.dropLast) (bxor (blocks.getLastD []) (macKa m)))
  else
    enc x bl m.kc (bxor (cbcMac x bl m.kc m.x blocks) (bxor (pad80 r bl.bytes) (macKb m)))

/-! ## GCM.FINAL from the registers (R166) -/

/-- The accumulator once the associated data is closed: its short last piece, if any, absorbed
(R167). -/
def closedX (g : GcmRegs) : Bytes :=
  if g.phase = .aad ∧ g.abuf ≠ [] then gfMul (bxor g.x (padz g.abuf 16)) g.h else g.x

/-- The output of the last short piece of data (R166, R168); empty when there is none. -/
def finalPiece (x : Ext) (g : GcmRegs) : Bytes :=
  bxor g.dbuf (first (enc x .b16 g.k g.ctr) g.dbuf.length)

/-- The tag GCM.FINAL computes (R166). -/
def finalTag (x : Ext) (g : GcmRegs) : Bytes :=
  let c := match g.dir with
    | .encrypt => finalPiece x g
    | .decrypt => g.dbuf
  let x1 := if g.dbuf = [] then closedX g else gfMul (bxor (closedX g) (padz c 16)) g.h
  let x2 := gfMul (bxor x1 (beN 8 g.alen.toNat ++ beN 8 g.clen.toNat)) g.h
  first (bxor x2 (enc x .b16 g.k g.j0)) g.tlen.toNat

end Sys2Proof.Machine
end

