-- ==== Sys2Proof/Safety.lean ====
section
/-! DEFINITION. What counts as a legal state of the block, in the terms the statements use: the
invariants of spec/10_state.md R24 to R26, R31, R43, R51 and R60 as one predicate, runs of several
commands, and what it means for a command to leave a unit alone (R22). -/

namespace Sys2Proof.Machine

/-! ## Runs of commands -/

/-- The commands one after the other, stopping at a fault or a refusal (R79). -/
def execAll : List Instr → State → Host.Outcome State Fault Refusal
  | [], s => .next s
  | i :: is, s =>
    match exec i s with
    | .next s' => execAll is s'
    | .fault r => .fault r
    | .refused r => .refused r

/-- The response payloads put on the port between `s` and `t`, joined. -/
def payloadsSince (s t : State) : Bytes :=
  ((t.respOut.drop s.respOut.length).map Response.payload).flatten

/-- Every response put on the port between `s` and `t` has status OK. -/
def allOkSince (s t : State) : Prop := ∀ r ∈ t.respOut.drop s.respOut.length, r.status = .ok

/-! ## Units -/

/-- The unit a command addresses; none for the system commands (R92, R260). -/
def unitOf : Instr → Option UnitId
  | .sysReset | .sysStatus => none
  | .bbOpen _ | .bbPut _ | .bbFlush => some .bb0
  | .gcmInit .. | .gcmAad _ | .gcmUpdate _ | .gcmFinal _ => some .gcm
  | .ccmInit .. | .ccmAad _ | .ccmUpdate _ | .ccmFinal _ => some .ccm
  | .macInit .. | .macUpdate _ | .macSign _ | .macVerify _ => some .mac

/-- `s` and `t` hold the same registers of unit `u`. -/
def sameUnit (u : UnitId) (s t : State) : Prop :=
  match u with
  | .bb0 => s.bb0 = t.bb0
  | .gcm => s.gcm = t.gcm
  | .ccm => s.ccm = t.ccm
  | .mac => s.mac = t.mac

/-- The command is an INIT or BB.OPEN, accepted in every phase (R160, R201, R231, R130). -/
def isInit : Instr → Bool
  | .bbOpen _ | .gcmInit .. | .ccmInit .. | .macInit .. => true
  | .sysReset | .sysStatus | .bbPut _ | .bbFlush | .gcmAad _ | .gcmUpdate _ | .gcmFinal _
  | .ccmAad _ | .ccmUpdate _ | .ccmFinal _ | .macUpdate _ | .macSign _ | .macVerify _ => false

/-- The phases in which a command of a unit is accepted: the cells of the table of R290 that are
not `F(5)`. -/
def acceptedIn : Instr → Phase → Bool
  | .gcmAad _, p | .ccmAad _, p => p == .aad
  | .gcmUpdate _, p | .gcmFinal _, p | .ccmUpdate _, p | .ccmFinal _, p => p == .aad || p == .data
  | .bbPut _, p | .bbFlush, p | .macUpdate _, p | .macSign _, p | .macVerify _, p => p == .ready
  | .bbOpen _, _ | .gcmInit .., _ | .ccmInit .., _ | .macInit .., _ => true
  | .sysReset, _ | .sysStatus, _ => true

/-- The phase a unit is in after a command of its own that succeeded (R290, the "ok" columns). -/
def phaseOnSuccess : Instr → Phase
  | .bbOpen _ | .bbPut _ | .bbFlush => .ready
  | .gcmInit .. | .gcmAad _ | .ccmInit .. | .ccmAad _ => .aad
  | .gcmUpdate _ | .ccmUpdate _ => .data
  | .gcmFinal _ | .ccmFinal _ => .done
  | .macInit .. | .macUpdate _ | .macSign _ | .macVerify _ => .ready
  | .sysReset | .sysStatus => .idle

/-! ## Causes of errors -/

/-- The complete list of causes of InvalidParameterLength (the table of R271). -/
def lengthCause : Instr → State → Prop
  | .bbOpen blen, _ => blen = 0
  | .gcmInit _ klen tlen pl, s =>
    s.par.blockLen ≠ .b16 ∨ pl.length < klen.toNat ∨ klen.toNat ∉ s.par.keyLens ∨
    pl.length = klen.toNat ∨
    (pl.length - klen.toNat ≠ 12 ∧ s.par.gcmIvNon96 = .refuse) ∨ tlen.toNat ∉ s.par.gcmTagLens
  | .ccmInit _ klen tlen pl, s =>
    s.par.blockLen ≠ .b16 ∨ pl.length < klen.toNat ∨ klen.toNat ∉ s.par.keyLens ∨
    pl.length - klen.toNat < 7 ∨ 13 < pl.length - klen.toNat ∨
    tlen.toNat % 2 = 1 ∨ tlen.toNat < 4 ∨ 16 < tlen.toNat
  | .macInit vv klen tlen pl, s =>
    klen.toNat ≠ pl.length ∨ klen.toNat ∉ s.par.keyLens ∨
    (vv = .xcbc ∧ s.par.blockLen.bytes ∉ s.par.keyLens) ∨
    tlen = 0 ∨ s.par.blockLen.bytes < tlen.toNat
  | .gcmFinal pl, s => s.gcm.dir = .encrypt ∧ pl ≠ []
  | .ccmFinal pl, s => s.ccm.dir = .encrypt ∧ pl ≠ []
  | .sysReset, _ | .sysStatus, _ | .bbPut _, _ | .bbFlush, _ | .gcmAad _, _ | .gcmUpdate _, _
  | .ccmAad _, _ | .ccmUpdate _, _ | .macUpdate _, _ | .macSign _, _ | .macVerify _, _ => False

/-- The causes of MessageTooLong (R272). -/
def tooLongCause : Instr → State → Prop
  | .gcmAad pl, s => 2 ^ 64 - 1 < s.gcm.alen.toNat + 8 * pl.length
  | .gcmUpdate pl, s => s.par.gcmPtLimit.toNat < s.gcm.clen.toNat + 8 * pl.length
  | .ccmAad pl, s => 2 ^ 64 ≤ s.ccm.astore.length + pl.length
  | .ccmUpdate pl, s => 2 ^ (8 * (15 - s.ccm.nlen.toNat)) ≤ s.ccm.mstore.length + pl.length
  | .sysReset, _ | .sysStatus, _ | .bbOpen _, _ | .bbPut _, _ | .bbFlush, _ | .gcmInit .., _
  | .gcmFinal _, _ | .ccmInit .., _ | .ccmFinal _, _ | .macInit .., _ | .macUpdate _, _
  | .macSign _, _ | .macVerify _, _ => False

/-- A header that encodes no command, as R98 lists the cases. -/
def illegalHeader (h : Header) : Prop :=
  (h.unit = 2 ∨ 6 ≤ h.unit) ∨
  (h.unit = 0 ∧ (h.op = 0 ∨ 3 ≤ h.op)) ∨ (h.unit = 1 ∧ 3 ≤ h.op) ∨
  ((h.unit = 3 ∨ h.unit = 4 ∨ h.unit = 5) ∧ 4 ≤ h.op) ∨
  (h.opc ∈ [opcSysReset, opcSysStatus, opcBbFlush] ∧
    (h.arg0 ≠ 0 ∨ h.arg1 ≠ 0 ∨ h.arg2 ≠ 0 ∨ h.len ≠ 0)) ∨
  (h.opc = opcBbOpen ∧ (h.arg1 ≠ 0 ∨ h.arg2 ≠ 0 ∨ h.len ≠ 0)) ∨
  (h.opc ∈ [opcBbPut, opcGcmAad, opcGcmUpdate, opcGcmFinal, opcCcmAad, opcCcmUpdate, opcCcmFinal,
      opcMacUpdate, opcMacSign, opcMacVerify] ∧ (h.arg0 ≠ 0 ∨ h.arg1 ≠ 0 ∨ h.arg2 ≠ 0)) ∨
  (h.opc ∈ [opcGcmInit, opcCcmInit] ∧ 2 ≤ h.arg0.toNat) ∨
  (h.opc = opcMacInit ∧ (4 ≤ h.arg0.toNat ∨ h.arg0 = 3))

/-! ## Legal states -/

/-- The parameters are in the ranges of R9. -/
def paramsLegal (p : Params) : Prop := ∀ t ∈ p.gcmTagLens, 1 ≤ t ∧ t ≤ 16

/-- `BB0`: R24, R25, R26, and the causes of R270 that can put it into `FAULT`. -/
def bbLegal (b : BbRegs) : Prop :=
  match b.phase with
  | .idle => b = BbRegs.reset
  | .ready => b.err = 0 ∧ b.blen ≠ 0 ∧ b.carry.length < b.blen.toNat
  | .fault => b.blen = 0 ∧ b.carry = [] ∧ (b.err = 1 ∨ b.err = 4 ∨ b.err = 5)
  | .aad | .data | .done => False

/-- `GCM` in `AAD` or `DATA`: the invariants of R31 that speak of the registers alone. -/
def gcmSession (p : Params) (g : GcmRegs) : Prop :=
  p.blockLen = .b16 ∧ g.kv = true ∧ g.err = 0 ∧ g.k.length ∈ p.keyLens ∧
  g.tlen.toNat ∈ p.gcmTagLens ∧
  g.h = enc Config.ext .b16 g.k (zeros 16) ∧
  g.j0.length = 16 ∧ g.ctr.length = 16 ∧ g.x.length = 16 ∧
  g.alen.toNat % 8 = 0 ∧ g.clen.toNat % 8 = 0 ∧
  (g.phase = .aad → g.abuf.length = g.alen.toNat / 8 % 16 ∧ g.clen = 0) ∧
  (g.phase = .data → g.abuf = []) ∧
  g.dbuf.length = g.clen.toNat / 8 % 16 ∧
  (g.dir = .encrypt → g.hold = []) ∧
  (g.dir = .decrypt → g.hold.length = g.clen.toNat / 8 - g.dbuf.length)

/-- `GCM`: R24, R25, R31; in `IDLE`, `DONE` and `FAULT` every other register is at reset (R166,
R277). -/
def gcmLegal (p : Params) (g : GcmRegs) : Prop :=
  match g.phase with
  | .idle => g = GcmRegs.reset
  | .aad | .data => gcmSession p g
  | .done => g = { GcmRegs.reset with phase := .done }
  | .fault => g = { GcmRegs.reset with phase := .fault, err := g.err } ∧
      (g.err = 1 ∨ g.err = 2 ∨ g.err = 3 ∨ g.err = 5)
  | .ready => False

/-- `CCM` in `AAD` or `DATA`: R43. -/
def ccmSession (p : Params) (c : CcmRegs) : Prop :=
  p.blockLen = .b16 ∧ c.kv = true ∧ c.err = 0 ∧ c.k.length ∈ p.keyLens ∧
  7 ≤ c.nlen.toNat ∧ c.nlen.toNat ≤ 13 ∧ c.n.length = c.nlen.toNat ∧
  4 ≤ c.tlen.toNat ∧ c.tlen.toNat ≤ 16 ∧ c.tlen.toNat % 2 = 0 ∧
  c.mstore.length < 2 ^ (8 * (15 - c.nlen.toNat)) ∧ c.astore.length < 2 ^ 64 ∧
  c.y = zeros 16 ∧ c.a = zeros 16 ∧ c.s0 = zeros 16 ∧
  (c.phase = .aad → c.mstore = [])

/-- `CCM`: R24, R25, R43. -/
def ccmLegal (p : Params) (c : CcmRegs) : Prop :=
  match c.phase with
  | .idle => c = CcmRegs.reset
  | .aad | .data => ccmSession p c
  | .done => c = { CcmRegs.reset with phase := .done }
  | .fault => c = { CcmRegs.reset with phase := .fault, err := c.err } ∧
      (c.err = 1 ∨ c.err = 2 ∨ c.err = 3 ∨ c.err = 5)
  | .ready => False

/-- The subkeys are those R232 derives from `MAC.K`. -/
def macSubkeysDerived (p : Params) (m : MacRegs) : Prop :=
  let bl := p.blockLen
  match m.var with
  | .cmac =>
    m.kc = m.k ∧ m.l = enc Config.ext bl m.k (zeros bl.bytes) ∧
    m.k1 = dbl (dblConst p bl) bl m.l ∧ m.k2 = dbl (dblConst p bl) bl m.k1 ∧ m.k3 = zeros bl.bytes
  | .omac2 =>
    m.kc = m.k ∧ m.l = enc Config.ext bl m.k (zeros bl.bytes) ∧
    m.k1 = dbl (dblConst p bl) bl m.l ∧ m.k2 = omac2K2 Config.ext bl m.l ∧ m.k3 = zeros bl.bytes
  | .xcbc =>
    m.kc = m.k1 ∧ m.l = zeros bl.bytes ∧ m.k1 = enc Config.ext bl m.k (rep 0x01 bl.bytes) ∧
    m.k2 = enc Config.ext bl m.k (rep 0x02 bl.bytes) ∧
    m.k3 = enc Config.ext bl m.k (rep 0x03 bl.bytes)

/-- `MAC`: R24, R25, R26, R51. -/
def macLegal (p : Params) (m : MacRegs) : Prop :=
  match m.phase with
  | .idle => m = MacRegs.reset p.blockLen
  | .ready =>
    m.kv = true ∧ m.err = 0 ∧ m.k.length ∈ p.keyLens ∧ macSubkeysDerived p m ∧
    1 ≤ m.tlen.toNat ∧ m.tlen.toNat ≤ p.blockLen.bytes ∧
    m.x.length = p.blockLen.bytes ∧ m.held.length = p.blockLen.bytes ∧
    m.buf.length < p.blockLen.bytes ∧
    (m.heldv = false → m.x = zeros p.blockLen.bytes ∧ m.held = zeros p.blockLen.bytes)
  | .fault => m = { MacRegs.reset p.blockLen with phase := .fault, err := m.err } ∧
      (m.err = 1 ∨ m.err = 5)
  | .aad | .data | .done => False

/-- A legal state: the invariants of the four units (R26, R31, R43, R51, R60). -/
def Inv (s : State) : Prop :=
  paramsLegal s.par ∧ bbLegal s.bb0 ∧ gcmLegal s.par s.gcm ∧ ccmLegal s.par s.ccm ∧
  macLegal s.par s.mac

end Sys2Proof.Machine
end

