-- ==== Sys2Proof/Certificates/Slice0/Obligations.lean ====
section
/-! DEFINITION. The statements for the provers, one Prop each. Each docstring cites the rules of
spec/ the statement formalises; OBLIGATIONS.json lists them. -/

open Sys2Proof Sys2Proof.Machine

/-! ## Encoding -/

/-- Every well-formed command's frame, with any bytes after it, is read back as that command and
those bytes (R91, R93, R94, R97, R100). -/
def Obligations.DecodeOfEncodeGivesTheCommand : Prop :=
  ∀ (i : Instr) (rest : Bytes), i.wf → fetchFrame (encode i ++ rest) = .command i rest

/-- A stream read as a command begins with exactly that command's frame (R91, R93, R97, R100): no
other frame means the same command. -/
def Obligations.EncodeOfDecodedFrameGivesTheFrame : Prop :=
  ∀ (stream : Bytes) (i : Instr) (rest : Bytes),
    fetchFrame stream = .command i rest → i.wf ∧ stream = encode i ++ rest

/-- The decoder and the match/mask map agree: a decoded header selects its command's row, a refused
one selects none, and no header selects two (R97). -/
def Obligations.DecoderFollowsTheOpcodeMap : Prop :=
  ∀ (opc a0 a1 a2 : Byte) (len : BitVec 32) (payload : Bytes),
    (∀ i, decodeCommand ⟨opc, a0, a1, a2, len.toNat⟩ payload = .ok i →
      ∃ row ∈ opcodeRows, row.mnemonic = mnemonicOf i ∧
        row.selects (opc ++ a0 ++ a1 ++ a2 ++ len)) ∧
    (∀ e, decodeCommand ⟨opc, a0, a1, a2, len.toNat⟩ payload = .error e →
      ∀ row ∈ opcodeRows, ¬ row.selects (opc ++ a0 ++ a1 ++ a2 ++ len)) ∧
    (∀ r1 ∈ opcodeRows, ∀ r2 ∈ opcodeRows,
      r1.selects (opc ++ a0 ++ a1 ++ a2 ++ len) → r2.selects (opc ++ a0 ++ a1 ++ a2 ++ len) → r1 = r2)

/-- One frame of every unit, its bytes written out from R91 and R93, decodes to its command
(a sanity statement). -/
def Obligations.SampleFramesDecode : Prop :=
  fetchFrame [0x01, 0, 0, 0, 0, 0, 0, 0] = .command .sysReset [] ∧
  fetchFrame [0x10, 4, 0, 0, 0, 0, 0, 0] = .command (.bbOpen 4) [] ∧
  fetchFrame [0x11, 0, 0, 0, 0, 0, 0, 2, 0xAA, 0xBB, 0x02] = .command (.bbPut [0xAA, 0xBB]) [0x02] ∧
  fetchFrame [0x30, 1, 0x20, 0x0C, 0, 0, 0, 1, 0x77] =
    .command (.gcmInit .decrypt 0x20 0x0C [0x77]) [] ∧
  fetchFrame [0x40, 0, 0x10, 0x08, 0, 0, 0, 0] = .command (.ccmInit .encrypt 0x10 0x08 []) [] ∧
  fetchFrame [0x50, 2, 0x10, 0x0C, 0, 0, 0, 1, 0x01] =
    .command (.macInit .xcbc 0x10 0x0C [0x01]) [] ∧
  fetchFrame [0x53, 0, 0, 0, 0, 0, 0, 1, 0x5A] = .command (.macVerify [0x5A]) []

/-! ## The step -/

/-- When the bytes on the command port are a command's frame, a step is that command run on the
state with the frame consumed (R20, R100). -/
def Obligations.StepRunsTheDecodedCommand : Prop :=
  ∀ (s : State) (i : Instr) (rest : Bytes),
    fetchFrame s.cmdIn = .command i rest → step s = exec i { s with cmdIn := rest }

/-- With fewer than 8 bytes, or fewer than `LEN` after the header, nothing happens and nothing is
consumed (R100). -/
def Obligations.StepWaitsForAWholeFrame : Prop :=
  ∀ s : State,
    (s.cmdIn.length < 8 → step s = .next s) ∧
    (∀ (h : Header) (body : Bytes), takeHeader s.cmdIn = some (h, body) →
      body.length < h.len → step s = .next s)

/-- A whole frame whose header R98 lists as illegal is consumed, answered with status 6, and changes
nothing else (R98). -/
def Obligations.IllegalFrameIsAnsweredAndChangesNoUnit : Prop :=
  ∀ (s : State) (h : Header) (payload rest : Bytes),
    takeHeader s.cmdIn = some (h, payload ++ rest) → payload.length = h.len → illegalHeader h →
    step s = .next { s with cmdIn := rest,
                            respOut := s.respOut ++ [⟨.illegalCommand, h.opc, 0, []⟩] }

/-- A whole frame, legal or not, is consumed and answered by exactly one response frame: it echoes
`OPC`, carries the addressed unit's phase after the command (0 for SYS and for status 6), carries no
payload unless its status is OK, and stands on the port as R96 lays it out (R96). -/
def Obligations.EveryFrameGetsOneResponse : Prop :=
  ∀ (s : State) (h : Header) (payload rest : Bytes),
    takeHeader s.cmdIn = some (h, payload ++ rest) → payload.length = h.len →
    ∃ (t : State) (r : Response), step s = .next t ∧ t.cmdIn = rest ∧
      t.respOut = s.respOut ++ [r] ∧ r.ropc = h.opc ∧
      (r.status ≠ .ok → r.payload = []) ∧
      (h.unit = 0 ∨ r.status = .illegalCommand → r.rphase = 0) ∧
      (r.status ≠ .illegalCommand →
        (h.unit = 1 → r.rphase = phaseCode t.bb0.phase) ∧
        (h.unit = 3 → r.rphase = phaseCode t.gcm.phase) ∧
        (h.unit = 4 → r.rphase = phaseCode t.ccm.phase) ∧
        (h.unit = 5 → r.rphase = phaseCode t.mac.phase)) ∧
      (r.payload.length < 2 ^ 32 →
        r.wire = [statusCode r.status, r.ropc, r.rphase, 0] ++ beN 4 r.payload.length ++ r.payload)

/-- No step changes a parameter of the device (R9: "fixed for the life of a device instance"). -/
def Obligations.StepNeverChangesTheParameters : Prop :=
  ∀ s t : State, step s = .next t → t.par = s.par

/-! ## Invariants -/

/-- The reset state is legal (R24 to R26, R63). -/
def Obligations.ResetStateIsLegal : Prop := Inv State.reset

/-- Every step from a legal state, reached by a run or not, ends in a legal state: phases, error
codes, carries shorter than a block, register widths, derived material, counters and the wiped
registers of an idle, finished or faulted unit (R24, R25, R26, R31, R43, R51, R60). -/
def Obligations.EveryStepKeepsTheStateLegal : Prop :=
  ∀ s t : State, Inv s → step s = .next t → Inv t

/-! ## Reset and status -/

/-- Every register of every unit at reset (R63, R300). -/
def Obligations.ResetClearsEveryRegister : Prop :=
  State.reset.bb0 = ⟨.idle, 0, 0, []⟩ ∧
  State.reset.gcm = ⟨.idle, 0, .encrypt, 0, false, [], zeros 16, zeros 16, zeros 16, zeros 16, 0, 0,
    [], [], []⟩ ∧
  State.reset.ccm = ⟨.idle, 0, .encrypt, 0, 0, false, [], [], [], [], zeros 16, zeros 16, zeros 16⟩ ∧
  (∃ z : Bytes, z = zeros State.reset.par.blockLen.bytes ∧
    State.reset.mac = ⟨.idle, 0, .cmac, 0, false, [], [], z, z, z, z, z, [], z, false⟩)

/-- The phase codes of R24 and the status codes of R270. -/
def Obligations.PhaseAndStatusCodes : Prop :=
  [Phase.idle, .aad, .data, .done, .fault, .ready].map phaseCode = [0, 1, 2, 3, 4, 5] ∧
  [Status.ok, .invalidParameterLength, .messageTooLong, .authenticationFailure, .ioFailure,
    .sequenceError, .illegalCommand].map statusCode = [0, 1, 2, 3, 4, 5, 6]

/-- SYS.RESET completes in every state with every register of the block at its reset value, and answers
OK with `RPHASE` 0 (R260, R261). That the parameters stay is R9's; that what stands on the ports stays
is read from R301 and is log entry 18 (DEDUCED). -/
def Obligations.SysResetRestoresEveryRegister : Prop :=
  ∀ s : State, exec .sysReset s = .next
    { par := s.par
      bb0 := ⟨.idle, 0, 0, []⟩
      gcm := ⟨.idle, 0, .encrypt, 0, false, [], zeros 16, zeros 16, zeros 16, zeros 16, 0, 0,
        [], [], []⟩
      ccm := ⟨.idle, 0, .encrypt, 0, 0, false, [], [], [], [], zeros 16, zeros 16, zeros 16⟩
      mac := ⟨.idle, 0, .cmac, 0, false, [], [], zeros s.par.blockLen.bytes,
        zeros s.par.blockLen.bytes, zeros s.par.blockLen.bytes, zeros s.par.blockLen.bytes,
        zeros s.par.blockLen.bytes, [], zeros s.par.blockLen.bytes, false⟩
      cmdIn := s.cmdIn
      respOut := s.respOut ++ [⟨.ok, 0x01, 0, []⟩]
      sinkOut := s.sinkOut
      sinkIn := s.sinkIn }

/-- SYS.STATUS answers the eight sequencing registers and changes nothing (R262). -/
def Obligations.SysStatusReportsPhasesAndErrors : Prop :=
  ∀ s : State, exec .sysStatus s = .next
    { s with respOut := s.respOut ++ [⟨.ok, 0x02, 0,
        [phaseCode s.bb0.phase, s.bb0.err, phaseCode s.gcm.phase, s.gcm.err,
         phaseCode s.ccm.phase, s.ccm.err, phaseCode s.mac.phase, s.mac.err]⟩] }

/-! ## Errors, phases and isolation -/

/-- `raise K` in unit `U`: every register of `U` at its reset value but `PHASE = FAULT` and `ERR`,
which is the code of `K` or, if `U` was already in `FAULT`, the first cause; the response carries
`K`'s code and no payload; nothing else changes (R277). -/
def Obligations.RaiseWipesTheUnit : Prop :=
  ∀ (k : Status) (opc : Byte) (s : State),
    raise .bb0 k opc s =
      { s with bb0 := ⟨.fault, if s.bb0.phase = .fault then s.bb0.err else statusCode k, 0, []⟩,
               respOut := s.respOut ++ [⟨k, opc, 4, []⟩] } ∧
    raise .gcm k opc s =
      { s with gcm := ⟨.fault, if s.gcm.phase = .fault then s.gcm.err else statusCode k, .encrypt, 0,
                 false, [], zeros 16, zeros 16, zeros 16, zeros 16, 0, 0, [], [], []⟩,
               respOut := s.respOut ++ [⟨k, opc, 4, []⟩] } ∧
    raise .ccm k opc s =
      { s with ccm := ⟨.fault, if s.ccm.phase = .fault then s.ccm.err else statusCode k, .encrypt, 0,
                 0, false, [], [], [], [], zeros 16, zeros 16, zeros 16⟩,
               respOut := s.respOut ++ [⟨k, opc, 4, []⟩] } ∧
    (∀ z : Bytes, z = zeros s.par.blockLen.bytes → raise .mac k opc s =
      { s with mac := ⟨.fault, if s.mac.phase = .fault then s.mac.err else statusCode k, .cmac, 0,
                 false, [], [], z, z, z, z, z, [], z, false⟩,
               respOut := s.respOut ++ [⟨k, opc, 4, []⟩] })

/-- In `FAULT` every command of the unit but its INIT answers SequenceError and moves neither phase
nor first cause; in a legal state it leaves every register of the unit as it was (R278). -/
def Obligations.FaultIsSticky : Prop :=
  ∀ (i : Instr) (u : UnitId) (s : State),
    unitOf i = some u → isInit i = false → phaseOf u s = .fault →
    ∃ t : State, exec i s = .next t ∧ phaseOf u t = .fault ∧ errOf u t = errOf u s ∧
      t.respOut = s.respOut ++ [⟨.sequenceError, opcodeOf i, 4, []⟩] ∧
      t.sinkOut = s.sinkOut ∧ (Inv s → sameUnit u s t)

/-- A command its unit's phase does not accept answers SequenceError and leaves the unit in `FAULT`,
with cause 5 unless a first cause stands there already; no event is emitted (R275, R278). -/
def Obligations.OutOfOrderCommandFaultsTheUnit : Prop :=
  ∀ (i : Instr) (u : UnitId) (s : State),
    unitOf i = some u → acceptedIn i (phaseOf u s) = false →
    ∃ t : State, exec i s = .next t ∧ phaseOf u t = .fault ∧
      errOf u t = (if phaseOf u s = .fault then errOf u s else 5) ∧
      t.respOut = s.respOut ++ [⟨.sequenceError, opcodeOf i, 4, []⟩] ∧ t.sinkOut = s.sinkOut

/-- The complete transition relation of `PHASE` (R290): a command answers exactly once; not accepted,
it answers SequenceError and the unit is in `FAULT`; accepted and OK, the unit is in the phase of
the "ok" column; accepted and not OK, in `FAULT`, but for MAC.VERIFY's mismatch, which stays `READY`
with status 3; SYS.RESET sends every unit to `IDLE` and SYS.STATUS moves none. -/
def Obligations.PhaseTransitionsFollowTheTable : Prop :=
  (∀ (i : Instr) (u : UnitId) (s : State), unitOf i = some u →
    ∃ (t : State) (r : Response), exec i s = .next t ∧ t.respOut = s.respOut ++ [r] ∧
      (acceptedIn i (phaseOf u s) = false → r.status = .sequenceError ∧ phaseOf u t = .fault) ∧
      (acceptedIn i (phaseOf u s) = true → r.status = .ok → phaseOf u t = phaseOnSuccess i) ∧
      (acceptedIn i (phaseOf u s) = true → r.status ≠ .ok → (∀ p, i ≠ .macVerify p) →
        phaseOf u t = .fault) ∧
      (acceptedIn i (phaseOf u s) = true → r.status ≠ .ok → (∃ p, i = .macVerify p) →
        r.status = .authenticationFailure ∧ phaseOf u t = .ready)) ∧
  (∀ (u : UnitId) (s : State),
    (∃ t, exec .sysReset s = .next t ∧ phaseOf u t = .idle) ∧
    (∃ t, exec .sysStatus s = .next t ∧ phaseOf u t = phaseOf u s))

/-- A command addressed to one unit changes no register of another unit, no parameter, and nothing
on the command port; only BB.PUT, BB.FLUSH and BB.OPEN's unit may touch the sink port (R22). -/
def Obligations.CommandsLeaveOtherUnitsAlone : Prop :=
  ∀ (i : Instr) (u : UnitId) (s t : State), unitOf i = some u → exec i s = .next t →
    (∀ v : UnitId, v ≠ u → sameUnit v s t) ∧ t.par = s.par ∧ t.cmdIn = s.cmdIn ∧
    (u ≠ .bb0 → t.sinkOut = s.sinkOut ∧ t.sinkIn = s.sinkIn)

/-- A command reads no register of another unit: on two states that agree on the parameters and on
the addressed unit (and, for `BB0`, on the sink port) it leaves that unit alike and answers alike
(R22). -/
def Obligations.CommandsReadOnlyTheirUnit : Prop :=
  ∀ (i : Instr) (u : UnitId) (s s' : State), unitOf i = some u →
    s.par = s'.par → sameUnit u s s' →
    (u = .bb0 → s.sinkOut = s'.sinkOut ∧ s.sinkIn = s'.sinkIn) →
    ∃ (t t' : State) (r : Response), exec i s = .next t ∧ exec i s' = .next t' ∧ sameUnit u t t' ∧
      t.respOut = s.respOut ++ [r] ∧ t'.respOut = s'.respOut ++ [r] ∧
      (u = .bb0 → t.sinkOut = t'.sinkOut ∧ t.sinkIn = t'.sinkIn)

/-- InvalidParameterLength is answered exactly for the causes of R271's table, by a command its
unit's phase accepts, and then leaves the unit in `FAULT` with cause 1 (R271). -/
def Obligations.LengthErrorsHaveExactlyTheListedCauses : Prop :=
  ∀ (i : Instr) (u : UnitId) (s : State), unitOf i = some u →
    ∃ (t : State) (r : Response), exec i s = .next t ∧ t.respOut = s.respOut ++ [r] ∧
      (r.status = .invalidParameterLength ↔
        acceptedIn i (phaseOf u s) = true ∧ lengthCause i s) ∧
      (r.status = .invalidParameterLength → phaseOf u t = .fault ∧ errOf u t = 1)

/-- MessageTooLong is answered exactly for the causes of R272, when the bytes arrive and before any
is used, and then leaves the unit in `FAULT` with cause 2 (R272). -/
def Obligations.TooLongMessagesAreRefusedOnArrival : Prop :=
  ∀ (i : Instr) (u : UnitId) (s : State), unitOf i = some u →
    ∃ (t : State) (r : Response), exec i s = .next t ∧ t.respOut = s.respOut ++ [r] ∧
      (r.status = .messageTooLong ↔ acceptedIn i (phaseOf u s) = true ∧ tooLongCause i s) ∧
      (r.status = .messageTooLong → phaseOf u t = .fault ∧ errOf u t = 2)

/-! ## BlockBuffer -/

/-- BB.OPEN with a block length of 1 to 255 opens the buffer empty, from every phase, without an
event (R130). -/
def Obligations.BbOpenOpensAnEmptyBuffer : Prop :=
  ∀ (blen : Byte) (s : State), blen ≠ 0 → exec (.bbOpen blen) s = .next
    { s with bb0 := ⟨.ready, 0, blen, []⟩, respOut := s.respOut ++ [⟨.ok, 0x10, 5, []⟩] }

/-- BB.OPEN with block length 0 raises InvalidParameterLength, from every phase (R130, R271). -/
def Obligations.BbOpenRefusesBlockLengthZero : Prop :=
  ∀ s : State, exec (.bbOpen 0) s = .next
    { s with bb0 := ⟨.fault, 1, 0, []⟩,
             respOut := s.respOut ++ [⟨.invalidParameterLength, 0x10, 4, []⟩] }

/-- BB.PUT on an open buffer, every event acknowledged: one `WRITE` per full block of carry and
payload, in order, and the remainder becomes the carry (R121, R126, R131). How an answer is taken and
what is left of the list `sinkIn` is the model's choice, log entry 4 (DESIGN CHOICE). -/
def Obligations.BbPutForwardsEveryFullBlock : Prop :=
  ∀ (payload data : Bytes) (n k : Nat) (s : State),
    s.bb0.phase = .ready → data = s.bb0.carry ++ payload → n = s.bb0.blen.toNat → 0 < n →
    k = data.length / n →
    (∀ j < k, sinkAnswerAt Config.ext s j ⟨.write, slice data (j * n) ((j + 1) * n)⟩ = 0) →
    exec (.bbPut payload) s = .next
      { s with bb0 := { s.bb0 with carry := data.drop (k * n) },
               sinkOut := s.sinkOut ++
                 (List.range k).map fun j => ⟨⟨.write, slice data (j * n) ((j + 1) * n)⟩, 0⟩,
               sinkIn := s.sinkIn.drop k,
               respOut := s.respOut ++ [⟨.ok, 0x11, 5, []⟩] }

/-- BB.PUT whose `m`-th event is the first refused: exactly `m + 1` events are emitted, the first
`m` stay delivered, and the command raises IOFailure, losing the carry and the block length (R127,
R131, R274). How an answer is taken, and that the answers not used stay in the list `sinkIn`, is the
model's choice, log entry 4 (DESIGN CHOICE). -/
def Obligations.BbPutStopsAtTheFirstRefusal : Prop :=
  ∀ (payload data : Bytes) (n k m : Nat) (a : Byte) (s : State),
    s.bb0.phase = .ready → data = s.bb0.carry ++ payload → n = s.bb0.blen.toNat →
    k = data.length / n → m < k →
    (∀ j < m, sinkAnswerAt Config.ext s j ⟨.write, slice data (j * n) ((j + 1) * n)⟩ = 0) →
    sinkAnswerAt Config.ext s m ⟨.write, slice data (m * n) ((m + 1) * n)⟩ = a → a ≠ 0 →
    exec (.bbPut payload) s = .next
      { s with bb0 := ⟨.fault, 4, 0, []⟩,
               sinkOut := s.sinkOut ++
                 ((List.range m).map fun j => ⟨⟨.write, slice data (j * n) ((j + 1) * n)⟩, 0⟩) ++
                 [⟨⟨.write, slice data (m * n) ((m + 1) * n)⟩, a⟩],
               sinkIn := s.sinkIn.drop (m + 1),
               respOut := s.respOut ++ [⟨.ioFailure, 0x11, 4, []⟩] }

/-- BB.FLUSH on an open buffer, its event acknowledged: exactly one `FLUSH` of the carry, which may
be empty, and the buffer stays open, empty (R122, R132). How the answer is taken from the list `sinkIn`
is the model's choice, log entry 4 (DESIGN CHOICE). -/
def Obligations.BbFlushEmitsTheRemainder : Prop :=
  ∀ s : State, s.bb0.phase = .ready →
    sinkAnswerAt Config.ext s 0 ⟨.flush, s.bb0.carry⟩ = 0 →
    exec .bbFlush s = .next
      { s with bb0 := { s.bb0 with carry := [] },
               sinkOut := s.sinkOut ++ [⟨⟨.flush, s.bb0.carry⟩, 0⟩],
               sinkIn := s.sinkIn.drop 1,
               respOut := s.respOut ++ [⟨.ok, 0x12, 5, []⟩] }

/-- BB.FLUSH whose event is refused raises IOFailure (R127, R132, R274). How the answer is taken from
the list `sinkIn` is the model's choice, log entry 4 (DESIGN CHOICE). -/
def Obligations.BbFlushRefusedFaults : Prop :=
  ∀ (a : Byte) (s : State), s.bb0.phase = .ready →
    sinkAnswerAt Config.ext s 0 ⟨.flush, s.bb0.carry⟩ = a → a ≠ 0 →
    exec .bbFlush s = .next
      { s with bb0 := ⟨.fault, 4, 0, []⟩,
               sinkOut := s.sinkOut ++ [⟨⟨.flush, s.bb0.carry⟩, a⟩],
               sinkIn := s.sinkIn.drop 1,
               respOut := s.respOut ++ [⟨.ioFailure, 0x12, 4, []⟩] }

/-- Streaming equivalence: however a byte sequence is cut into pieces, putting them one by one into
an empty BlockBuffer and flushing makes the calls of the whole sequence: its full blocks, then its
last `len mod bl` bytes (R124). -/
def Obligations.BufferCallsDoNotDependOnTheCutting : Prop :=
  ∀ (bl : Nat) (ds : List Bytes) (m : Bytes), 0 < bl → ds.flatten = m →
    bufferCalls bl [] ds =
      (List.range (m.length / bl)).map (fun j => .blockWrite (slice m (j * bl) ((j + 1) * bl))) ++
      [.blockFlush (m.drop (m.length / bl * bl))]

/-- The same on the commands: from an open, empty `BB0` and with a sink that acknowledges every event
of the stream, BB.PUT of the pieces and BB.FLUSH emit the full blocks of the whole sequence, in order,
and the remainder (R80, R124). The sink is any, its answers listed or the oracle's; that they are taken
so is the model's choice, log entry 4 (DESIGN CHOICE). -/
def Obligations.BbStreamEmitsTheWholeSequence : Prop :=
  ∀ (ds : List Bytes) (m : Bytes) (n k : Nat) (s : State),
    s.bb0.phase = .ready → s.bb0.carry = [] → n = s.bb0.blen.toNat → 0 < n → ds.flatten = m →
    k = m.length / n →
    (∀ j < k, sinkAnswerAt Config.ext s j ⟨.write, slice m (j * n) ((j + 1) * n)⟩ = 0) →
    sinkAnswerAt Config.ext s k ⟨.flush, m.drop (k * n)⟩ = 0 →
    ∃ t : State, execAll (ds.map Instr.bbPut ++ [.bbFlush]) s = .next t ∧ t.bb0 = s.bb0 ∧
      allOkSince s t ∧
      t.sinkOut = s.sinkOut ++
        ((List.range k).map fun j => ⟨⟨.write, slice m (j * n) ((j + 1) * n)⟩, 0⟩) ++
        [⟨⟨.flush, m.drop (k * n)⟩, 0⟩]

/-! ## Primitives -/

/-- The CTR step decrypts what it encrypts, with the counter advanced once either way, for a piece of
up to a block (R145). -/
def Obligations.CtrStepDecryptsWhatItEncrypts : Prop :=
  ∀ (x : Ext) (bl : BlockLen) (q : Nat) (k ctr p : Bytes), p.length ≤ bl.bytes →
    ctrStep x bl q k ctr (ctrStep x bl q k ctr p).1 = (p, incrW q ctr)

/-- The counter increment: for `q` counting bytes of a counter of at least `q`, the bytes before them
stay and the counting bytes are the next value, wrapping (R145). -/
def Obligations.CounterIncrementWraps : Prop :=
  ∀ (q : Nat) (c : Bytes), q ≤ c.length →
    (incrW q c).length = c.length ∧
    (incrW q c).take (c.length - q) = c.take (c.length - q) ∧
    intBe ((incrW q c).drop (c.length - q)) = (intBe (c.drop (c.length - q)) + 1) % 2 ^ (8 * q)

/-- The CBC decrypt step inverts the CBC encrypt step from the same vector (R144). -/
def Obligations.CbcDecryptInvertsEncrypt : Prop :=
  ∀ (x : Ext) (bl : BlockLen) (k v p : Bytes), v.length = bl.bytes → p.length = bl.bytes →
    cbcDecStep x bl k v (cbcEncStep x bl k v p) = (p, cbcEncStep x bl k v p)

/-- Doubling is a bijection of blocks and `invdbl` is its inverse, for both block lengths and every odd
reduction byte, 0x87 (R146) and the 0x1B that the spec presumes for 8-byte blocks (log entry 8,
PRESUMED) among them; at those two bytes the reduction constants of `invdbl` are those R147 writes. That
`invdbl` follows the reduction byte otherwise is log entry 8 (DEDUCED). -/
def Obligations.DoublingAndInverseDoublingCancel : Prop :=
  (∀ (rb : Byte) (bl : BlockLen) (b : Bytes), rb.toNat % 2 = 1 → b.length = bl.bytes →
    dbl rb bl (invdbl rb bl b) = b ∧ invdbl rb bl (dbl rb bl b) = b) ∧
  invdblConst 0x87 .b16 = 0x80000000000000000000000000000043 ∧
  invdblConst 0x1B .b8 = 0x800000000000000D

/-- The laws of `gf128_mul`: commutative, associative, distributive over exclusive or, with zero,
the identity `80 00..00`, and multiplication by `40 00..00` as a shift with reduction (R149). -/
def Obligations.FieldMultiplyLaws : Prop :=
  ∀ a b c : Bytes, a.length = 16 → b.length = 16 → c.length = 16 →
    gfMul a b = gfMul b a ∧
    gfMul (gfMul a b) c = gfMul a (gfMul b c) ∧
    gfMul a (bxor b c) = bxor (gfMul a b) (gfMul a c) ∧
    gfMul (zeros 16) b = zeros 16 ∧
    gfMul ([0x80] ++ zeros 15) b = b ∧
    gfMul ([0x40] ++ zeros 15) b =
      (if (b.getD 15 0).getLsbD 0 then bxor (beN 16 (intBe b >>> 1)) ([0xE1] ++ zeros 15)
       else beN 16 (intBe b >>> 1))

/-- When the counter width cannot be seen: as long as the last four bytes of `J0` do not wrap within
`n` blocks, stepping 32 bits and stepping 128 bits give the same counters (R172). -/
def Obligations.CounterWidthUnseenWithoutWrap : Prop :=
  ∀ (j0 : Bytes) (n : Nat), j0.length = 16 → intBe (j0.drop 12) + n ≤ 2 ^ 32 - 1 →
    ∀ i ≤ n, incrIter 4 i j0 = incrIter 16 i j0 ∧
      incrIter 4 i j0 = j0.take 12 ++ beN 4 (intBe (j0.drop 12) + i)

/-! ## GCM -/

/-- GCM.INIT with operands in range, from every phase: the key, `H`, `J0` of the IV, the first
counter and cleared accumulators and buffers, phase `AAD` (R160, R161). -/
def Obligations.GcmInitOpensASession : Prop :=
  ∀ (d : Dir) (klen tlen : Byte) (key iv : Bytes) (s : State),
    s.par.blockLen = .b16 → klen.toNat = key.length → klen.toNat ∈ s.par.keyLens → iv ≠ [] →
    (iv.length = 12 ∨ s.par.gcmIvNon96 = .derive) → tlen.toNat ∈ s.par.gcmTagLens →
    exec (.gcmInit d klen tlen (key ++ iv)) s = .next
      { s with
        gcm :=
          { phase := .aad, err := 0, dir := d, tlen := tlen, kv := true, k := key
            h := enc Config.ext .b16 key (zeros 16)
            j0 := j0Of (enc Config.ext .b16 key (zeros 16)) iv
            ctr := incrW (gcmIncBytes s.par) (j0Of (enc Config.ext .b16 key (zeros 16)) iv)
            x := zeros 16, alen := 0, clen := 0, abuf := [], dbuf := [], hold := [] }
        respOut := s.respOut ++ [⟨.ok, 0x30, 1, []⟩] }

/-- GCM.AAD in phase `AAD` within the 64-bit limit: the bit counter grows, the full blocks of carry
and payload enter the accumulator in order, the remainder is the carry; nothing else changes
(R164). -/
def Obligations.GcmAadEntersTheAccumulator : Prop :=
  ∀ (payload : Bytes) (s : State),
    s.gcm.phase = .aad → s.gcm.alen.toNat + 8 * payload.length ≤ 2 ^ 64 - 1 →
    exec (.gcmAad payload) s = .next
      { s with
        gcm := { s.gcm with
          alen := BitVec.ofNat 64 (s.gcm.alen.toNat + 8 * payload.length)
          x := ghashFrom s.gcm.h s.gcm.x (fullBlocks 16 (s.gcm.abuf ++ payload))
          abuf := remainder 16 (s.gcm.abuf ++ payload) }
        respOut := s.respOut ++ [⟨.ok, 0x31, 1, []⟩] }

/-- GCM.UPDATE while encrypting: the associated data is closed first; each full block of carry and
payload is exclusive-ored with its keystream and the ciphertext, which is returned, enters the
accumulator; the counter steps once per block; nothing else changes (R165). -/
def Obligations.GcmUpdateEncrypts : Prop :=
  ∀ (payload : Bytes) (blocks : List Bytes) (q : Nat) (s : State),
    s.gcm.phase = .aad ∨ s.gcm.phase = .data → s.gcm.dir = .encrypt →
    s.gcm.clen.toNat + 8 * payload.length ≤ s.par.gcmPtLimit.toNat →
    blocks = fullBlocks 16 (s.gcm.dbuf ++ payload) → q = gcmIncBytes s.par →
    exec (.gcmUpdate payload) s = .next
      { s with
        gcm := { s.gcm with
          phase := .data
          clen := BitVec.ofNat 64 (s.gcm.clen.toNat + 8 * payload.length)
          ctr := incrIter q blocks.length s.gcm.ctr
          x := ghashFrom s.gcm.h (closedX s.gcm) (ctrPieces Config.ext q s.gcm.k s.gcm.ctr blocks)
          abuf := if s.gcm.phase = .aad then [] else s.gcm.abuf
          dbuf := remainder 16 (s.gcm.dbuf ++ payload) }
        respOut := s.respOut ++
          [⟨.ok, 0x32, 2, (ctrPieces Config.ext q s.gcm.k s.gcm.ctr blocks).flatten⟩] }

/-- GCM.UPDATE while decrypting: as encrypting, but the ciphertext received enters the accumulator
and the plaintext goes to `HOLD`; the response carries no payload (R165, R314). -/
def Obligations.GcmUpdateDecryptsIntoHold : Prop :=
  ∀ (payload : Bytes) (blocks : List Bytes) (q : Nat) (s : State),
    s.gcm.phase = .aad ∨ s.gcm.phase = .data → s.gcm.dir = .decrypt →
    s.gcm.clen.toNat + 8 * payload.length ≤ s.par.gcmPtLimit.toNat →
    blocks = fullBlocks 16 (s.gcm.dbuf ++ payload) → q = gcmIncBytes s.par →
    exec (.gcmUpdate payload) s = .next
      { s with
        gcm := { s.gcm with
          phase := .data
          clen := BitVec.ofNat 64 (s.gcm.clen.toNat + 8 * payload.length)
          ctr := incrIter q blocks.length s.gcm.ctr
          x := ghashFrom s.gcm.h (closedX s.gcm) blocks
          abuf := if s.gcm.phase = .aad then [] else s.gcm.abuf
          dbuf := remainder 16 (s.gcm.dbuf ++ payload)
          hold := s.gcm.hold ++ (ctrPieces Config.ext q s.gcm.k s.gcm.ctr blocks).flatten }
        respOut := s.respOut ++ [⟨.ok, 0x32, 2, []⟩] }

/-- GCM.FINAL while encrypting, without payload: the last short ciphertext piece and the tag are
returned, and every register is cleared, phase `DONE` (R166). -/
def Obligations.GcmFinalEncryptReturnsTheTag : Prop :=
  ∀ s : State, s.gcm.phase = .aad ∨ s.gcm.phase = .data → s.gcm.dir = .encrypt →
    exec (.gcmFinal []) s = .next
      { s with
        gcm := { GcmRegs.reset with phase := .done }
        respOut := s.respOut ++
          [⟨.ok, 0x33, 3, finalPiece Config.ext s.gcm ++ finalTag Config.ext s.gcm⟩] }

/-- GCM.FINAL while decrypting, the received tag equal to the computed one: the whole held plaintext
and the last short piece are returned, and every register is cleared, phase `DONE` (R166). -/
def Obligations.GcmFinalDecryptReleasesOnMatch : Prop :=
  ∀ (tag : Bytes) (s : State), s.gcm.phase = .aad ∨ s.gcm.phase = .data → s.gcm.dir = .decrypt →
    tag = finalTag Config.ext s.gcm →
    exec (.gcmFinal tag) s = .next
      { s with
        gcm := { GcmRegs.reset with phase := .done }
        respOut := s.respOut ++ [⟨.ok, 0x33, 3, s.gcm.hold ++ finalPiece Config.ext s.gcm⟩] }

/-- GCM.FINAL while decrypting with any other byte sequence as tag, of any length: status 3, no
payload, and the held plaintext is destroyed with every other register (R166, R273). -/
def Obligations.GcmFinalDecryptReleasesNothingOnMismatch : Prop :=
  ∀ (tag : Bytes) (s : State), s.gcm.phase = .aad ∨ s.gcm.phase = .data → s.gcm.dir = .decrypt →
    tag ≠ finalTag Config.ext s.gcm →
    exec (.gcmFinal tag) s = .next
      { s with
        gcm := { GcmRegs.reset with phase := .fault, err := 3 }
        respOut := s.respOut ++ [⟨.authenticationFailure, 0x33, 4, []⟩] }

/-- GCM encryption as a function: for every way of cutting associated data and plaintext over
commands, the responses of a session concatenate to the ciphertext and the tag of R170's function,
all OK, and the unit is left in `DONE` (R169, R170). -/
def Obligations.GcmEncryptionSessionComputesGcm : Prop :=
  ∀ (klen tlen : Byte) (key iv : Bytes) (aads datas : List Bytes) (c : Bytes) (s : State),
    s.par.blockLen = .b16 → klen.toNat = key.length → klen.toNat ∈ s.par.keyLens → iv ≠ [] →
    (iv.length = 12 ∨ s.par.gcmIvNon96 = .derive) → tlen.toNat ∈ s.par.gcmTagLens →
    8 * aads.flatten.length ≤ 2 ^ 64 - 1 →
    8 * datas.flatten.length ≤ s.par.gcmPtLimit.toNat →
    c = gcmCrypt Config.ext (gcmIncBytes s.par) key iv datas.flatten →
    ∃ t : State,
      execAll (.gcmInit .encrypt klen tlen (key ++ iv) ::
        (aads.map Instr.gcmAad ++ (datas.map Instr.gcmUpdate ++ [.gcmFinal []]))) s = .next t ∧
      allOkSince s t ∧ t.gcm = { GcmRegs.reset with phase := .done } ∧
      payloadsSince s t = c ++ gcmTagOf Config.ext key iv tlen.toNat aads.flatten c

/-- GCM decryption undoes encryption: for every way of cutting, a decrypting session given the
ciphertext of `p` and its tag returns `p` and nothing else (R170). -/
def Obligations.GcmDecryptionSessionReturnsThePlaintext : Prop :=
  ∀ (klen tlen : Byte) (key iv p : Bytes) (aads datas : List Bytes) (s : State),
    s.par.blockLen = .b16 → klen.toNat = key.length → klen.toNat ∈ s.par.keyLens → iv ≠ [] →
    (iv.length = 12 ∨ s.par.gcmIvNon96 = .derive) → tlen.toNat ∈ s.par.gcmTagLens →
    8 * aads.flatten.length ≤ 2 ^ 64 - 1 →
    8 * datas.flatten.length ≤ s.par.gcmPtLimit.toNat →
    datas.flatten = gcmCrypt Config.ext (gcmIncBytes s.par) key iv p →
    ∃ t : State,
      execAll (.gcmInit .decrypt klen tlen (key ++ iv) ::
        (aads.map Instr.gcmAad ++ (datas.map Instr.gcmUpdate ++
          [.gcmFinal (gcmTagOf Config.ext key iv tlen.toNat aads.flatten datas.flatten)]))) s
        = .next t ∧
      allOkSince s t ∧ t.gcm = { GcmRegs.reset with phase := .done } ∧ payloadsSince s t = p

/-- GCM.SEAL and then, from the state it leaves, GCM.UNSEAL of its ciphertext and tag: the assembler's
expansions run, all OK, and the second returns the plaintext (R102, R170). The tag length of a
pseudo-command may be left out; it is then the 16 that R101 gives GCM.INIT, and that is the model's
choice, log entry 17 (DESIGN CHOICE). -/
def Obligations.SealThenUnsealReturnsThePlaintext : Prop :=
  ∀ (tlen : Option Byte) (key iv aad pt : Bytes) (s : State),
    s.par.blockLen = .b16 → key.length < 256 → key.length ∈ s.par.keyLens → iv ≠ [] →
    (iv.length = 12 ∨ s.par.gcmIvNon96 = .derive) → (tlen.getD 16).toNat ∈ s.par.gcmTagLens →
    8 * aad.length ≤ 2 ^ 64 - 1 → 8 * pt.length ≤ s.par.gcmPtLimit.toNat →
    ∃ (sealing : List Instr) (t : State) (out : Bytes),
      pseudoGcmSeal tlen key iv aad pt = some sealing ∧ execAll sealing s = .next t ∧
      allOkSince s t ∧ payloadsSince s t = out ∧
      ∃ (unsealing : List Instr) (u : State),
        pseudoGcmUnseal tlen key iv aad (out.take pt.length) (out.drop pt.length) = some unsealing ∧
        execAll unsealing t = .next u ∧ allOkSince t u ∧ payloadsSince t u = pt

/-! ## CCM -/

/-- CCM.INIT with operands in range, from every phase (R201). -/
def Obligations.CcmInitOpensASession : Prop :=
  ∀ (d : Dir) (klen tlen : Byte) (key nonce : Bytes) (s : State),
    s.par.blockLen = .b16 → klen.toNat = key.length → klen.toNat ∈ s.par.keyLens →
    7 ≤ nonce.length → nonce.length ≤ 13 →
    4 ≤ tlen.toNat → tlen.toNat ≤ 16 → tlen.toNat % 2 = 0 →
    exec (.ccmInit d klen tlen (key ++ nonce)) s = .next
      { s with
        ccm :=
          { phase := .aad, err := 0, dir := d, tlen := tlen, nlen := BitVec.ofNat 8 nonce.length
            kv := true, k := key, n := nonce, astore := [], mstore := []
            y := zeros 16, a := zeros 16, s0 := zeros 16 }
        respOut := s.respOut ++ [⟨.ok, 0x40, 1, []⟩] }

/-- CCM.AAD in phase `AAD` only stores (R202). -/
def Obligations.CcmAadStores : Prop :=
  ∀ (payload : Bytes) (s : State),
    s.ccm.phase = .aad → s.ccm.astore.length + payload.length < 2 ^ 64 →
    exec (.ccmAad payload) s = .next
      { s with ccm := { s.ccm with astore := s.ccm.astore ++ payload },
               respOut := s.respOut ++ [⟨.ok, 0x41, 1, []⟩] }

/-- CCM.UPDATE in `AAD` or `DATA` only stores, and moves to `DATA` (R203). -/
def Obligations.CcmUpdateStores : Prop :=
  ∀ (payload : Bytes) (s : State),
    s.ccm.phase = .aad ∨ s.ccm.phase = .data →
    s.ccm.mstore.length + payload.length < 2 ^ (8 * (15 - s.ccm.nlen.toNat)) →
    exec (.ccmUpdate payload) s = .next
      { s with ccm := { s.ccm with mstore := s.ccm.mstore ++ payload, phase := .data },
               respOut := s.respOut ++ [⟨.ok, 0x42, 2, []⟩] }

/-- The counter blocks of CCM: the block of R207 for each counter value, each the 128-bit increment
of the one before (R207). -/
def Obligations.CcmCounterBlocksStepByOne : Prop :=
  ∀ (c : CcmRegs) (i : Nat), 7 ≤ c.nlen.toNat → c.nlen.toNat ≤ 13 → c.n.length = c.nlen.toNat →
    i < 2 ^ (8 * (15 - c.nlen.toNat)) →
    ccmCtrBlock c i =
      [BitVec.ofNat 8 (15 - c.nlen.toNat - 1)] ++ c.n ++ beN (15 - c.nlen.toNat) i ∧
    (ccmCtrBlock c i).length = 16 ∧
    (i + 1 < 2 ^ (8 * (15 - c.nlen.toNat)) → incrW 16 (ccmCtrBlock c i) = ccmCtrBlock c (i + 1))

/-- CCM.FINAL while encrypting, without payload: ciphertext and encrypted tag of the stored message,
every register cleared, phase `DONE` (R204). -/
def Obligations.CcmFinalEncryptReturnsCiphertextAndTag : Prop :=
  ∀ s : State, s.ccm.phase = .aad ∨ s.ccm.phase = .data → s.ccm.dir = .encrypt →
    7 ≤ s.ccm.nlen.toNat → s.ccm.nlen.toNat ≤ 13 → s.ccm.n.length = s.ccm.nlen.toNat →
    s.ccm.mstore.length < 2 ^ (8 * (15 - s.ccm.nlen.toNat)) →
    exec (.ccmFinal []) s = .next
      { s with
        ccm := { CcmRegs.reset with phase := .done }
        respOut := s.respOut ++ [⟨.ok, 0x43, 3,
          ccmCrypt Config.ext s.ccm.k s.ccm.n s.ccm.mstore ++
          ccmTagOf Config.ext s.ccm.k s.ccm.n s.ccm.tlen.toNat s.ccm.astore s.ccm.mstore⟩] }

/-- CCM.FINAL while decrypting: the stored ciphertext is decrypted, the tag recomputed over the
plaintext and compared with the payload, whole sequences; on a match the plaintext is returned, on
any other payload nothing is, and either way every other register is cleared (R204, R273). -/
def Obligations.CcmFinalDecryptReleasesOnMatchOnly : Prop :=
  ∀ (tag p : Bytes) (s : State), s.ccm.phase = .aad ∨ s.ccm.phase = .data → s.ccm.dir = .decrypt →
    7 ≤ s.ccm.nlen.toNat → s.ccm.nlen.toNat ≤ 13 → s.ccm.n.length = s.ccm.nlen.toNat →
    s.ccm.mstore.length < 2 ^ (8 * (15 - s.ccm.nlen.toNat)) →
    p = ccmCrypt Config.ext s.ccm.k s.ccm.n s.ccm.mstore →
    (tag = ccmTagOf Config.ext s.ccm.k s.ccm.n s.ccm.tlen.toNat s.ccm.astore p →
      exec (.ccmFinal tag) s = .next
        { s with ccm := { CcmRegs.reset with phase := .done },
                 respOut := s.respOut ++ [⟨.ok, 0x43, 3, p⟩] }) ∧
    (tag ≠ ccmTagOf Config.ext s.ccm.k s.ccm.n s.ccm.tlen.toNat s.ccm.astore p →
      exec (.ccmFinal tag) s = .next
        { s with ccm := { CcmRegs.reset with phase := .fault, err := 3 },
                 respOut := s.respOut ++ [⟨.authenticationFailure, 0x43, 4, []⟩] })

/-- CCM as a function: for every way of cutting, an encrypting session returns the ciphertext and
tag of R210's function, and a decrypting session given them returns the plaintext (R210). -/
def Obligations.CcmSessionsComputeCcmAndInvertIt : Prop :=
  ∀ (klen tlen : Byte) (key nonce : Bytes) (aads aads' datas datas' : List Bytes) (c u : Bytes)
    (s : State),
    s.par.blockLen = .b16 → klen.toNat = key.length → klen.toNat ∈ s.par.keyLens →
    7 ≤ nonce.length → nonce.length ≤ 13 →
    4 ≤ tlen.toNat → tlen.toNat ≤ 16 → tlen.toNat % 2 = 0 →
    aads.flatten.length < 2 ^ 64 → datas.flatten.length < 2 ^ (8 * (15 - nonce.length)) →
    c = ccmCrypt Config.ext key nonce datas.flatten →
    u = ccmTagOf Config.ext key nonce tlen.toNat aads.flatten datas.flatten →
    aads'.flatten = aads.flatten → datas'.flatten = c →
    (∃ t : State,
      execAll (.ccmInit .encrypt klen tlen (key ++ nonce) ::
        (aads.map Instr.ccmAad ++ (datas.map Instr.ccmUpdate ++ [.ccmFinal []]))) s = .next t ∧
      allOkSince s t ∧ t.ccm = { CcmRegs.reset with phase := .done } ∧ payloadsSince s t = c ++ u) ∧
    (∃ t : State,
      execAll (.ccmInit .decrypt klen tlen (key ++ nonce) ::
        (aads'.map Instr.ccmAad ++ (datas'.map Instr.ccmUpdate ++ [.ccmFinal u]))) s = .next t ∧
      allOkSince s t ∧ t.ccm = { CcmRegs.reset with phase := .done } ∧
      payloadsSince s t = datas.flatten)

/-! ## MAC -/

/-- MAC.INIT with operands in range, from every phase, derives the subkeys of its variant and leaves
the accumulator empty, phase `READY`; the doubling reduction byte is 0x87 for 16-byte blocks and the
parameter `RB(8)` for 8-byte ones (R9, R146, R231, R232). -/
def Obligations.MacInitDerivesTheSubkeys : Prop :=
  ∀ (vv : Variant) (klen tlen : Byte) (key l z : Bytes) (bl : BlockLen) (rb : Byte) (s : State),
    bl = s.par.blockLen → (bl = .b16 → rb = 0x87) → (bl = .b8 → rb = s.par.rb8) →
    klen.toNat = key.length → klen.toNat ∈ s.par.keyLens →
    (vv = .xcbc → bl.bytes ∈ s.par.keyLens) → 1 ≤ tlen.toNat → tlen.toNat ≤ bl.bytes →
    z = zeros bl.bytes → l = enc Config.ext bl key z →
    exec (.macInit vv klen tlen key) s = .next
      { s with
        mac :=
          match vv with
          | .cmac => ⟨.ready, 0, .cmac, tlen, true, key, key, l, dbl rb bl l, dbl rb bl (dbl rb bl l),
              z, z, [], z, false⟩
          | .omac2 => ⟨.ready, 0, .omac2, tlen, true, key, key, l, dbl rb bl l,
              omac2K2 Config.ext bl l, z, z, [], z, false⟩
          | .xcbc => ⟨.ready, 0, .xcbc, tlen, true, key, enc Config.ext bl key (rep 1 bl.bytes), z,
              enc Config.ext bl key (rep 1 bl.bytes), enc Config.ext bl key (rep 2 bl.bytes),
              enc Config.ext bl key (rep 3 bl.bytes), z, [], z, false⟩
        respOut := s.respOut ++ [⟨.ok, 0x50, 5, []⟩] }

/-- MAC.UPDATE chains every full block but the last, which it holds; the remainder is the carry;
nothing else changes (R233, R234). -/
def Obligations.MacUpdateChainsAllButTheLastBlock : Prop :=
  ∀ (payload : Bytes) (blocks : List Bytes) (bl : BlockLen) (s : State),
    s.mac.phase = .ready → bl = s.par.blockLen →
    blocks = (if s.mac.heldv then [s.mac.held] else []) ++
      fullBlocks bl.bytes (s.mac.buf ++ payload) →
    exec (.macUpdate payload) s = .next
      { s with
        mac := { s.mac with
          x := cbcMac Config.ext bl s.mac.kc s.mac.x blocks.dropLast
          held := blocks.getLastD s.mac.held
          heldv := !blocks.isEmpty
          buf := remainder bl.bytes (s.mac.buf ++ payload) }
        respOut := s.respOut ++ [⟨.ok, 0x51, 5, []⟩] }

/-- MAC.SIGN takes the last message bytes, returns the first `TLEN` bytes of the MAC with the
selector's subkey, and resets the accumulator, keeping the subkeys (R235, R236, R237, R239). -/
def Obligations.MacSignReturnsTheTag : Prop :=
  ∀ (payload z : Bytes) (bl : BlockLen) (s : State),
    s.mac.phase = .ready → bl = s.par.blockLen → z = zeros bl.bytes →
    exec (.macSign payload) s = .next
      { s with
        mac := { s.mac with x := z, buf := [], held := z, heldv := false }
        respOut := s.respOut ++ [⟨.ok, 0x52, 5,
          first (macTagFrom Config.ext bl s.mac payload) s.mac.tlen.toNat⟩] }

/-- MAC.VERIFY compares its payload, as a whole sequence, with the tag of the message so far; equal
or not, it returns no tag, resets the accumulator and leaves the unit `READY`; the status is OK or
AuthenticationFailure. The carry is shorter than a block, which every step keeps (R26, R238). -/
def Obligations.MacVerifyReportsAndStaysReady : Prop :=
  ∀ (tag z : Bytes) (bl : BlockLen) (s : State),
    s.mac.phase = .ready → bl = s.par.blockLen → z = zeros bl.bytes → s.mac.buf.length < bl.bytes →
    (tag = first (macTagFrom Config.ext bl s.mac []) s.mac.tlen.toNat →
      exec (.macVerify tag) s = .next
        { s with mac := { s.mac with x := z, buf := [], held := z, heldv := false },
                 respOut := s.respOut ++ [⟨.ok, 0x53, 5, []⟩] }) ∧
    (tag ≠ first (macTagFrom Config.ext bl s.mac []) s.mac.tlen.toNat →
      exec (.macVerify tag) s = .next
        { s with mac := { s.mac with x := z, buf := [], held := z, heldv := false },
                 respOut := s.respOut ++ [⟨.authenticationFailure, 0x53, 5, []⟩] })

/-- The MAC as a function: from a unit ready for a fresh message, for every way of cutting the
message over MAC.UPDATE and MAC.SIGN, the one payload returned is the truncated MAC of the whole
message, and the unit is ready again with the same registers (R240). -/
def Obligations.MacSessionComputesTheMac : Prop :=
  ∀ (ds : List Bytes) (d0 m ka kb z : Bytes) (bl : BlockLen) (s : State),
    s.mac.phase = .ready → bl = s.par.blockLen → z = zeros bl.bytes →
    s.mac.x = z → s.mac.buf = [] → s.mac.held = z → s.mac.heldv = false →
    (s.mac.var = .xcbc → ka = s.mac.k2 ∧ kb = s.mac.k3) →
    (s.mac.var ≠ .xcbc → ka = s.mac.k1 ∧ kb = s.mac.k2) →
    m = ds.flatten ++ d0 →
    ∃ t : State, execAll (ds.map Instr.macUpdate ++ [.macSign d0]) s = .next t ∧
      allOkSince s t ∧ t.mac = s.mac ∧
      payloadsSince s t = first (macOf Config.ext bl s.mac.kc ka kb m) s.mac.tlen.toNat

/-- For a non-empty message of whole blocks OMAC2's tag is CMAC's under the same key, whatever the
open parameter `OMAC2_K2` (R240, R317). -/
def Obligations.Omac2OfWholeBlocksEqualsCmac : Prop :=
  ∀ (klen tlen : Byte) (key m : Bytes) (s : State),
    klen.toNat = key.length → klen.toNat ∈ s.par.keyLens → 1 ≤ tlen.toNat →
    tlen.toNat ≤ s.par.blockLen.bytes → m ≠ [] → m.length % s.par.blockLen.bytes = 0 →
    ∃ t t' : State,
      execAll [.macInit .cmac klen tlen key, .macSign m] s = .next t ∧
      execAll [.macInit .omac2 klen tlen key, .macSign m] s = .next t' ∧
      allOkSince s t ∧ allOkSince s t' ∧ payloadsSince s t = payloadsSince s t' ∧
      (payloadsSince s t).length = tlen.toNat
end

