-- ==== Sys2Proof/Laws/Bytes.lean ====
section
/-! SUPPORT. The small lemmas of the byte-sequence notation: lengths, the two directions of
big-endian coding, exclusive or, and how cutting into blocks behaves under appending. -/

namespace Sys2Proof

/-! ## Lengths -/

@[simp] theorem zeros_length (n : Nat) : (zeros n).length = n := by simp [zeros]

@[simp] theorem zeros_zero : zeros 0 = [] := rfl

@[simp] theorem rep_length (v : Byte) (n : Nat) : (rep v n).length = n := by simp [rep]

@[simp] theorem beN_length (n v : Nat) : (beN n v).length = n := by
  induction n with
  | zero => rfl
  | succ n ih => simp [beN, ih]

@[simp] theorem bxor_length (a b : Bytes) : (bxor a b).length = min a.length b.length := by
  simp [bxor]

@[simp] theorem slice_length (b : Bytes) (i j : Nat) :
    (slice b i j).length = min (j - i) (b.length - i) := by simp [slice]

@[simp] theorem first_length (b : Bytes) (t : Nat) : (first b t).length = min t b.length := by
  simp [first]

@[simp] theorem padz_length (b : Bytes) (n : Nat) : (padz b n).length = max b.length n := by
  simp [padz]; omega

theorem padz_eq_self {b : Bytes} {n : Nat} (h : n ≤ b.length) : padz b n = b := by
  simp [padz, Nat.sub_eq_zero_of_le h]

theorem pad80_length {b : Bytes} {n : Nat} (h : b.length < n) : (pad80 b n).length = n := by
  simp [pad80]; omega

theorem pad16_length_mod (s : Bytes) : (pad16 s).length % 16 = 0 := by
  simp [pad16]; omega

@[simp] theorem pad16_nil : pad16 [] = [] := rfl

/-- `pad16` is `padz` to the next multiple of 16. -/
theorem pad16_eq_padz (s : Bytes) : pad16 s = padz s (16 * ((s.length + 15) / 16)) := by
  unfold pad16 padz
  congr 2
  omega

/-! ## Big-endian coding -/

theorem intBe_cons (a : Byte) (s : Bytes) : intBe (a :: s) = a.toNat * 256 ^ s.length + intBe s := by
  have gen : ∀ (s : Bytes) (i : Nat),
      s.foldl (fun a x => a * 256 + x.toNat) i = i * 256 ^ s.length + intBe s := by
    intro s
    induction s with
    | nil => intro i; simp [intBe]
    | cons b s ih =>
      intro i
      simp only [List.foldl_cons, intBe, List.length_cons] at *
      rw [ih, ih (0 * 256 + b.toNat)]
      ring
  rw [intBe, List.foldl_cons, gen]
  ring

@[simp] theorem intBe_nil : intBe [] = 0 := rfl

theorem intBe_lt (b : Bytes) : intBe b < 256 ^ b.length := by
  induction b with
  | nil => simp
  | cons a s ih =>
    rw [intBe_cons, List.length_cons, Nat.pow_succ]
    have := a.isLt
    nlinarith [Nat.pow_pos (n := s.length) (show 0 < 256 by omega)]

/-- `int_be(be_n(v)) = v` for a value that fits, and its residue otherwise (R12). -/
theorem intBe_beN (n v : Nat) : intBe (beN n v) = v % 256 ^ n := by
  induction n with
  | zero => simp [beN, Nat.mod_one]
  | succ n ih =>
    rw [beN, intBe_cons, ih, beN_length, BitVec.toNat_ofNat, Nat.shiftRight_eq_div_pow,
      show 8 * n = n * 8 by ring, show (2 : Nat) ^ (n * 8) = 256 ^ n by rw [Nat.mul_comm, Nat.pow_mul],
      show (2 : Nat) ^ 8 = 256 by norm_num, Nat.pow_succ, Nat.mod_mul]
    ring

/-- `be_n(int_be(b)) = b` for a sequence of `n` bytes (R12). -/
theorem beN_intBe (b : Bytes) : beN b.length (intBe b) = b := by
  induction b with
  | nil => rfl
  | cons a s ih =>
    have hs := intBe_lt s
    have key : ∀ n, n ≤ s.length →
        beN n (a.toNat * 256 ^ s.length + intBe s) = beN n (intBe s) := by
      intro n hn
      induction n with
      | zero => rfl
      | succ n ihn =>
        rw [beN, beN, ihn (by omega)]
        congr 1
        apply BitVec.eq_of_toNat_eq
        simp only [BitVec.toNat_ofNat, Nat.shiftRight_eq_div_pow]
        rw [show (2 : Nat) ^ (8 * n) = 256 ^ n by rw [Nat.pow_mul]]
        obtain ⟨d, hd⟩ : ∃ d, s.length = n + 1 + d := ⟨s.length - (n + 1), by omega⟩
        rw [hd, show a.toNat * 256 ^ (n + 1 + d) + intBe s
            = intBe s + 256 ^ n * (256 * (a.toNat * 256 ^ d)) by ring,
          Nat.add_mul_div_left _ _ (Nat.pow_pos (by omega)), show (2 : Nat) ^ 8 = 256 by norm_num,
          Nat.add_mul_mod_self_left]
    rw [intBe_cons, List.length_cons, beN, key _ le_rfl, ih]
    congr 1
    apply BitVec.eq_of_toNat_eq
    rw [BitVec.toNat_ofNat, Nat.shiftRight_eq_div_pow, show (2 : Nat) ^ (8 * s.length) = 256 ^ s.length by
      rw [Nat.pow_mul], Nat.add_comm, Nat.add_mul_div_right _ _ (Nat.pow_pos (by omega)),
      Nat.div_eq_of_lt hs, Nat.zero_add, Nat.mod_eq_of_lt a.isLt]

/-! ## Exclusive or -/

theorem bxor_comm (a b : Bytes) : bxor a b = bxor b a := by
  simp only [bxor]
  rw [List.zipWith_comm]
  simp only [BitVec.xor_comm]

/-- Exclusive or with the same sequence twice gives the first sequence back. -/
theorem bxor_cancel : ∀ {a b : Bytes}, a.length ≤ b.length → bxor (bxor a b) b = a
  | [], _, _ => by simp [bxor]
  | a :: as, [], h => by simp at h
  | a :: as, b :: bs, h => by
    have := bxor_cancel (a := as) (b := bs) (by simpa using h)
    simp only [bxor, List.zipWith_cons_cons, BitVec.xor_assoc, BitVec.xor_self, BitVec.xor_zero]
    simpa [bxor] using this

/-! ## Cutting -/

@[simp] theorem cut_length (n k : Nat) (s : Bytes) : (cut n k s).length = k := by
  induction k generalizing s with
  | zero => rfl
  | succ k ih => simp [cut, ih]

theorem mem_cut_length {n k : Nat} {s b : Bytes} (hk : k * n ≤ s.length) (hb : b ∈ cut n k s) :
    b.length = n := by
  induction k generalizing s with
  | zero => simp [cut] at hb
  | succ k ih =>
    rw [Nat.succ_mul] at hk
    simp only [cut, List.mem_cons] at hb
    rcases hb with rfl | hb
    · simp; omega
    · exact ih (by simp; omega) hb

theorem mem_fullBlocks_length {n : Nat} {s b : Bytes} (hb : b ∈ fullBlocks n s) : b.length = n :=
  mem_cut_length (Nat.div_mul_le_self _ _) hb

theorem cut_flatten (n k : Nat) (s : Bytes) : (cut n k s).flatten = s.take (k * n) := by
  induction k generalizing s with
  | zero => simp [cut]
  | succ k ih =>
    simp only [cut, List.flatten_cons, ih, Nat.succ_mul]
    rw [Nat.add_comm, List.take_add]

/-- Cutting loses and repeats no byte (R121). -/
theorem fullBlocks_flatten_append (n : Nat) (s : Bytes) :
    (fullBlocks n s).flatten ++ remainder n s = s := by
  simp [fullBlocks, remainder, cut_flatten]

theorem remainder_length (n : Nat) (s : Bytes) : (remainder n s).length = s.length % n := by
  rw [remainder, List.length_drop, Nat.mod_def, Nat.mul_comm]

theorem remainder_length_lt {n : Nat} (hn : 0 < n) (s : Bytes) : (remainder n s).length < n := by
  rw [remainder_length]; exact Nat.mod_lt _ hn

theorem cut_add (n i j : Nat) (s : Bytes) : cut n (i + j) s = cut n i s ++ cut n j (s.drop (i * n)) := by
  induction i generalizing s with
  | zero => simp [cut]
  | succ i ih =>
    rw [show i + 1 + j = (i + j) + 1 by omega]
    simp only [cut, ih, List.cons_append, List.drop_drop, Nat.succ_mul]
    rw [Nat.add_comm (i * n) n]

theorem cut_append_of_le {n k : Nat} {a : Bytes} (b : Bytes) (h : k * n ≤ a.length) :
    cut n k (a ++ b) = cut n k a := by
  induction k generalizing a with
  | zero => rfl
  | succ k ih =>
    rw [Nat.succ_mul] at h
    have hn : n ≤ a.length := by omega
    simp only [cut]
    rw [List.take_append_of_le_length hn, List.drop_append_of_le_length hn, ih (by simp; omega)]

/-- Forwarding after `a` and then after `b` is forwarding after `a ++ b` (R123, R124). -/
theorem fullBlocks_append {n : Nat} (a b : Bytes) :
    fullBlocks n (a ++ b) = fullBlocks n a ++ fullBlocks n (remainder n a ++ b) := by
  rcases Nat.eq_zero_or_pos n with rfl | hn
  · simp [fullBlocks, cut]
  have hle : a.length / n * n ≤ a.length := Nat.div_mul_le_self _ _
  have hcount : (a ++ b).length / n = a.length / n + (remainder n a ++ b).length / n := by
    rw [List.length_append, List.length_append, remainder_length]
    conv_lhs => rw [← Nat.div_add_mod a.length n, Nat.add_assoc, Nat.mul_add_div hn]
  rw [fullBlocks, hcount, cut_add, cut_append_of_le b hle, List.drop_append_of_le_length hle]
  rfl

/-- The carry after `a` and then `b` is the carry after `a ++ b` (R123, R124). -/
theorem remainder_append {n : Nat} (a b : Bytes) :
    remainder n (remainder n a ++ b) = remainder n (a ++ b) := by
  have h1 := fullBlocks_flatten_append n (a ++ b)
  rw [fullBlocks_append, List.flatten_append, List.append_assoc] at h1
  have h2 := fullBlocks_flatten_append n a
  have h3 := fullBlocks_flatten_append n (remainder n a ++ b)
  have h4 : (fullBlocks n a).flatten ++ ((fullBlocks n (remainder n a ++ b)).flatten
      ++ remainder n (remainder n a ++ b)) = a ++ b := by
    rw [h3, ← List.append_assoc, h2]
  exact List.append_cancel_left (List.append_cancel_left (h4.trans h1.symm))

theorem fullBlocks_of_lt {n : Nat} {s : Bytes} (h : s.length < n) : fullBlocks n s = [] := by
  simp [fullBlocks, Nat.div_eq_of_lt h, cut]

theorem remainder_of_lt {n : Nat} {s : Bytes} (h : s.length < n) : remainder n s = s := by
  simp [remainder, Nat.div_eq_of_lt h]

/-- The pieces of a sequence are its full blocks and then the remainder, if there is one. -/
theorem pieces_eq {n : Nat} (hn : 0 < n) (s : Bytes) :
    pieces n s = fullBlocks n s ++ (if remainder n s = [] then [] else [remainder n s]) := by
  have hr := remainder_length n s
  have hm := Nat.div_add_mod s.length n
  have hlt := Nat.mod_lt s.length hn
  by_cases h : remainder n s = []
  · rw [if_pos h]
    rw [h, List.length_nil] at hr
    have : (s.length + (n - 1)) / n = s.length / n := by
      rw [← hm, ← hr, Nat.add_zero, Nat.mul_add_div hn, Nat.mul_div_cancel_left _ hn]
      have : (n - 1) / n = 0 := Nat.div_eq_of_lt (by omega)
      omega
    rw [pieces, this, List.append_nil]; rfl
  · rw [if_neg h]
    have hpos : 0 < s.length % n := by
      rw [← hr]; exact List.length_pos_iff.mpr h
    have : (s.length + (n - 1)) / n = s.length / n + 1 := by
      conv_lhs => rw [← hm]
      rw [Nat.add_assoc, Nat.mul_add_div hn]
      congr 1
      rw [Nat.div_eq_iff hn]
      omega
    rw [pieces, this, cut_add]
    congr 1
    simp only [cut]
    congr 1
    rw [List.take_of_length_le]
    · rfl
    · rw [List.length_drop]
      rw [remainder, List.length_drop] at hr
      omega

/-- Whole blocks leave no remainder. -/
theorem remainder_of_mod {n : Nat} {s : Bytes} (h : s.length % n = 0) : remainder n s = [] :=
  List.eq_nil_of_length_eq_zero (by rw [remainder_length, h])

/-- Whole blocks in front are cut first, and the rest is cut as if alone. -/
theorem fullBlocks_append_of_mod {n : Nat} {a : Bytes} (b : Bytes) (h : a.length % n = 0) :
    fullBlocks n (a ++ b) = fullBlocks n a ++ fullBlocks n b := by
  rw [fullBlocks_append, remainder_of_mod h, List.nil_append]

/-- One block is cut into itself. -/
theorem fullBlocks_self {n : Nat} (hn : 0 < n) {b : Bytes} (h : b.length = n) :
    fullBlocks n b = [b] := by
  rw [fullBlocks, h, Nat.div_self hn]
  simp [cut, List.take_of_length_le (Nat.le_of_eq h)]

/-- Cutting undoes joining blocks of one length and a short piece. -/
theorem fullBlocks_flatten {n : Nat} (hn : 0 < n) {bs : List Bytes} (h : ∀ b ∈ bs, b.length = n)
    {r : Bytes} (hr : r.length < n) :
    fullBlocks n (bs.flatten ++ r) = bs ∧ remainder n (bs.flatten ++ r) = r := by
  induction bs with
  | nil => simp [fullBlocks_of_lt hr, remainder_of_lt hr]
  | cons b bs ih =>
    obtain ⟨h1, h2⟩ := ih (fun b' hb' => h b' (by simp [hb']))
    have hb : b.length = n := h b (by simp)
    have hm : b.length % n = 0 := by rw [hb, Nat.mod_self]
    rw [List.flatten_cons, List.append_assoc]
    constructor
    · rw [fullBlocks_append_of_mod _ hm, fullBlocks_self hn hb, h1]; rfl
    · rw [← remainder_append, remainder_of_mod hm, List.nil_append, h2]

/-- The blocks of a zero-padded sequence are its full blocks and its padded remainder. -/
theorem fullBlocks_pad16 (s : Bytes) :
    fullBlocks 16 (pad16 s) =
      fullBlocks 16 s ++ (if remainder 16 s = [] then [] else [padz (remainder 16 s) 16]) := by
  have hl := remainder_length 16 s
  unfold pad16
  rw [fullBlocks_append]
  congr 1
  by_cases h : remainder 16 s = []
  · rw [h, List.length_nil] at hl
    simp [h, ← hl, fullBlocks_of_lt]
  · have hp : 0 < (remainder 16 s).length := List.length_pos_iff.mpr h
    rw [if_neg h, padz, hl, Nat.mod_eq_of_lt (show 16 - s.length % 16 < 16 by omega)]
    exact fullBlocks_self (by omega) (by rw [List.length_append, hl, zeros_length]; omega)

@[simp] theorem fullBlocks_length (n : Nat) (s : Bytes) : (fullBlocks n s).length = s.length / n :=
  cut_length _ _ _

/-- The full blocks as slices, the form the rules of the spec use (R121, R124). -/
theorem fullBlocks_eq_slices (n : Nat) (s : Bytes) :
    fullBlocks n s =
      (List.range (s.length / n)).map fun j => slice s (j * n) ((j + 1) * n) := by
  have gen : ∀ (k : Nat) (s : Bytes),
      cut n k s = (List.range k).map fun j => slice s (j * n) ((j + 1) * n) := by
    intro k
    induction k with
    | zero => intro s; rfl
    | succ k ih =>
      intro s
      rw [cut, ih, List.range_succ_eq_map, List.map_cons, List.map_map]
      refine congrArg₂ List.cons (by simp [slice]) (List.map_congr_left fun j _ => ?_)
      simp only [slice, List.drop_drop, Function.comp_apply, Nat.succ_eq_add_one, Nat.add_mul,
        Nat.one_mul]
      congr 1
      · omega
      · congr 1
        omega
  exact gen _ _

end Sys2Proof
end

