-- ==== Sys2Proof/Laws/Cipher.lean ====
section
/-! SUPPORT. The small lemmas of the cipher port, the chaining steps and the field primitives:
the width of every result, that `D` undoes `E`, and that one round of the multiply is linear. -/

namespace Sys2Proof.Machine

@[simp] theorem blockBytes_length (bl : BlockLen) (v : BitVec bl.bits) :
    (blockBytes bl v).length = bl.bytes := by simp [blockBytes]

/-- A block of `BL` bytes survives the passage to an integer and back (R12). -/
theorem blockBytes_blockOf {bl : BlockLen} {b : Bytes} (h : b.length = bl.bytes) :
    blockBytes bl (blockOf bl b) = b := by
  have hlt : intBe b < 2 ^ bl.bits := by
    refine lt_of_lt_of_eq (intBe_lt b) ?_
    rw [h]; cases bl <;> norm_num [BlockLen.bytes, BlockLen.bits]
  rw [blockBytes, blockOf, BitVec.toNat_ofNat, Nat.mod_eq_of_lt hlt, ← h, beN_intBe]

/-- A block value survives the passage to bytes and back (R12). -/
@[simp] theorem blockOf_blockBytes (bl : BlockLen) (v : BitVec bl.bits) :
    blockOf bl (blockBytes bl v) = v := by
  apply BitVec.eq_of_toNat_eq
  have := v.isLt
  rw [blockOf, blockBytes, intBe_beN, BitVec.toNat_ofNat]
  cases bl <;> simp only [BlockLen.bytes, BlockLen.bits] at * <;>
    norm_num at * <;> omega

@[simp] theorem enc_length (x : Ext) (bl : BlockLen) (k b : Bytes) :
    (enc x bl k b).length = bl.bytes := by simp [enc]

@[simp] theorem dec_length (x : Ext) (bl : BlockLen) (k b : Bytes) :
    (dec x bl k b).length = bl.bytes := by simp [dec]

@[simp] theorem omac2K2_length (x : Ext) (bl : BlockLen) (l : Bytes) :
    (omac2K2 x bl l).length = bl.bytes := by simp [omac2K2]

/-- `D k (E k b) = b` (R10). -/
theorem dec_enc (x : Ext) {bl : BlockLen} (k : Bytes) {b : Bytes} (h : b.length = bl.bytes) :
    dec x bl k (enc x bl k b) = b := by
  simp [dec, enc, blockBytes_blockOf h]

@[simp] theorem dbl_length (rb : Byte) (bl : BlockLen) (b : Bytes) :
    (dbl rb bl b).length = bl.bytes := by
  simp [dbl]

@[simp] theorem invdbl_length (rb : Byte) (bl : BlockLen) (b : Bytes) :
    (invdbl rb bl b).length = bl.bytes := by
  simp [invdbl]

@[simp] theorem gfMul_length (a b : Bytes) : (gfMul a b).length = 16 :=
  blockBytes_length .b16 _

@[simp] theorem cbcEncStep_length (x : Ext) (bl : BlockLen) (k v p : Bytes) :
    (cbcEncStep x bl k v p).length = bl.bytes := by simp [cbcEncStep]

/-- The counter keeps its width when the counting part fits it (R145). -/
theorem incrW_length {q : Nat} {c : Bytes} (h : q ≤ c.length) : (incrW q c).length = c.length := by
  simp [incrW]; omega

/-- Only the last `q` bytes of a counter change (R145). -/
theorem incrW_prefix {q : Nat} {c : Bytes} (_ : q ≤ c.length) :
    (incrW q c).take (c.length - q) = c.take (c.length - q) := by
  simp [incrW]

@[simp] theorem cbcMac_nil (x : Ext) (bl : BlockLen) (k v : Bytes) : cbcMac x bl k v [] = v := rfl

@[simp] theorem cbcMac_cons (x : Ext) (bl : BlockLen) (k v b : Bytes) (bs : List Bytes) :
    cbcMac x bl k v (b :: bs) = cbcMac x bl k (cbcEncStep x bl k v b) bs := rfl

theorem cbcMac_append (x : Ext) (bl : BlockLen) (k v : Bytes) (as bs : List Bytes) :
    cbcMac x bl k v (as ++ bs) = cbcMac x bl k (cbcMac x bl k v as) bs := by
  simp [cbcMac]

/-- Multiplying by `x` is linear (R148). -/
theorem gfShift_xor (a b : BitVec 128) : gfShift (a ^^^ b) = gfShift a ^^^ gfShift b := by
  unfold gfShift
  simp only [BitVec.getLsbD_xor, BitVec.ushiftRight_xor_distrib]
  cases a.getLsbD 0 <;> cases b.getLsbD 0 <;> simp only [Bool.xor_false, Bool.xor_true,
    Bool.not_true, Bool.not_false, if_true, if_false, Bool.false_eq_true]
  · ac_rfl
  · ac_rfl
  · rw [show a >>> 1 ^^^ ghashConst ^^^ (b >>> 1 ^^^ ghashConst)
      = a >>> 1 ^^^ b >>> 1 ^^^ (ghashConst ^^^ ghashConst) by ac_rfl, BitVec.xor_self,
      BitVec.xor_zero]

end Sys2Proof.Machine
end

