-- ==== Sys2Proof/Laws/State.lean ====
section
/-! SUPPORT. One lemma per field per state update: what each update of the machine's state leaves
in each field. Every one holds by unfolding, so that no proof unfolds a record update. -/

namespace Sys2Proof.Machine

variable (s : State)

/-! ## respond -/

@[simp] theorem respond_par (st : Status) (opc ph : Byte) (pl : Bytes) : (respond st opc ph pl s).par = s.par := rfl
@[simp] theorem respond_bb0 (st : Status) (opc ph : Byte) (pl : Bytes) : (respond st opc ph pl s).bb0 = s.bb0 := rfl
@[simp] theorem respond_gcm (st : Status) (opc ph : Byte) (pl : Bytes) : (respond st opc ph pl s).gcm = s.gcm := rfl
@[simp] theorem respond_ccm (st : Status) (opc ph : Byte) (pl : Bytes) : (respond st opc ph pl s).ccm = s.ccm := rfl
@[simp] theorem respond_mac (st : Status) (opc ph : Byte) (pl : Bytes) : (respond st opc ph pl s).mac = s.mac := rfl
@[simp] theorem respond_cmdIn (st : Status) (opc ph : Byte) (pl : Bytes) : (respond st opc ph pl s).cmdIn = s.cmdIn := rfl
@[simp] theorem respond_respOut (st : Status) (opc ph : Byte) (pl : Bytes) : (respond st opc ph pl s).respOut = s.respOut ++ [⟨st, opc, ph, pl⟩] := rfl
@[simp] theorem respond_sinkOut (st : Status) (opc ph : Byte) (pl : Bytes) : (respond st opc ph pl s).sinkOut = s.sinkOut := rfl
@[simp] theorem respond_sinkIn (st : Status) (opc ph : Byte) (pl : Bytes) : (respond st opc ph pl s).sinkIn = s.sinkIn := rfl

/-! ## reply -/

@[simp] theorem reply_par (u : UnitId) (st : Status) (opc : Byte) (pl : Bytes) : (reply u st opc pl s).par = s.par := rfl
@[simp] theorem reply_bb0 (u : UnitId) (st : Status) (opc : Byte) (pl : Bytes) : (reply u st opc pl s).bb0 = s.bb0 := rfl
@[simp] theorem reply_gcm (u : UnitId) (st : Status) (opc : Byte) (pl : Bytes) : (reply u st opc pl s).gcm = s.gcm := rfl
@[simp] theorem reply_ccm (u : UnitId) (st : Status) (opc : Byte) (pl : Bytes) : (reply u st opc pl s).ccm = s.ccm := rfl
@[simp] theorem reply_mac (u : UnitId) (st : Status) (opc : Byte) (pl : Bytes) : (reply u st opc pl s).mac = s.mac := rfl
@[simp] theorem reply_cmdIn (u : UnitId) (st : Status) (opc : Byte) (pl : Bytes) : (reply u st opc pl s).cmdIn = s.cmdIn := rfl
@[simp] theorem reply_respOut (u : UnitId) (st : Status) (opc : Byte) (pl : Bytes) : (reply u st opc pl s).respOut = s.respOut ++ [⟨st, opc, phaseCode (phaseOf u s), pl⟩] := rfl
@[simp] theorem reply_sinkOut (u : UnitId) (st : Status) (opc : Byte) (pl : Bytes) : (reply u st opc pl s).sinkOut = s.sinkOut := rfl
@[simp] theorem reply_sinkIn (u : UnitId) (st : Status) (opc : Byte) (pl : Bytes) : (reply u st opc pl s).sinkIn = s.sinkIn := rfl

/-! ## consumeTo -/

@[simp] theorem consumeTo_par (rest : Bytes) : (consumeTo rest s).par = s.par := rfl
@[simp] theorem consumeTo_bb0 (rest : Bytes) : (consumeTo rest s).bb0 = s.bb0 := rfl
@[simp] theorem consumeTo_gcm (rest : Bytes) : (consumeTo rest s).gcm = s.gcm := rfl
@[simp] theorem consumeTo_ccm (rest : Bytes) : (consumeTo rest s).ccm = s.ccm := rfl
@[simp] theorem consumeTo_mac (rest : Bytes) : (consumeTo rest s).mac = s.mac := rfl
@[simp] theorem consumeTo_cmdIn (rest : Bytes) : (consumeTo rest s).cmdIn = rest := rfl
@[simp] theorem consumeTo_respOut (rest : Bytes) : (consumeTo rest s).respOut = s.respOut := rfl
@[simp] theorem consumeTo_sinkOut (rest : Bytes) : (consumeTo rest s).sinkOut = s.sinkOut := rfl
@[simp] theorem consumeTo_sinkIn (rest : Bytes) : (consumeTo rest s).sinkIn = s.sinkIn := rfl

/-! ## answerIllegal -/

@[simp] theorem answerIllegal_par (opc : Byte) : (answerIllegal opc s).par = s.par := rfl
@[simp] theorem answerIllegal_bb0 (opc : Byte) : (answerIllegal opc s).bb0 = s.bb0 := rfl
@[simp] theorem answerIllegal_gcm (opc : Byte) : (answerIllegal opc s).gcm = s.gcm := rfl
@[simp] theorem answerIllegal_ccm (opc : Byte) : (answerIllegal opc s).ccm = s.ccm := rfl
@[simp] theorem answerIllegal_mac (opc : Byte) : (answerIllegal opc s).mac = s.mac := rfl
@[simp] theorem answerIllegal_cmdIn (opc : Byte) : (answerIllegal opc s).cmdIn = s.cmdIn := rfl
@[simp] theorem answerIllegal_respOut (opc : Byte) : (answerIllegal opc s).respOut = s.respOut ++ [⟨.illegalCommand, opc, 0, []⟩] := rfl
@[simp] theorem answerIllegal_sinkOut (opc : Byte) : (answerIllegal opc s).sinkOut = s.sinkOut := rfl
@[simp] theorem answerIllegal_sinkIn (opc : Byte) : (answerIllegal opc s).sinkIn = s.sinkIn := rfl

/-! ## resetAll -/

@[simp] theorem resetAll_par : (resetAll s).par = s.par := rfl
@[simp] theorem resetAll_bb0 : (resetAll s).bb0 = BbRegs.reset := rfl
@[simp] theorem resetAll_gcm : (resetAll s).gcm = GcmRegs.reset := rfl
@[simp] theorem resetAll_ccm : (resetAll s).ccm = CcmRegs.reset := rfl
@[simp] theorem resetAll_mac : (resetAll s).mac = MacRegs.reset s.par.blockLen := rfl
@[simp] theorem resetAll_cmdIn : (resetAll s).cmdIn = s.cmdIn := rfl
@[simp] theorem resetAll_respOut : (resetAll s).respOut = s.respOut := rfl
@[simp] theorem resetAll_sinkOut : (resetAll s).sinkOut = s.sinkOut := rfl
@[simp] theorem resetAll_sinkIn : (resetAll s).sinkIn = s.sinkIn := rfl

/-! ## resetUnit .bb0 -/

@[simp] theorem resetUnit_bb0_par : (resetUnit .bb0 s).par = s.par := rfl
@[simp] theorem resetUnit_bb0_bb0 : (resetUnit .bb0 s).bb0 = BbRegs.reset := rfl
@[simp] theorem resetUnit_bb0_gcm : (resetUnit .bb0 s).gcm = s.gcm := rfl
@[simp] theorem resetUnit_bb0_ccm : (resetUnit .bb0 s).ccm = s.ccm := rfl
@[simp] theorem resetUnit_bb0_mac : (resetUnit .bb0 s).mac = s.mac := rfl
@[simp] theorem resetUnit_bb0_cmdIn : (resetUnit .bb0 s).cmdIn = s.cmdIn := rfl
@[simp] theorem resetUnit_bb0_respOut : (resetUnit .bb0 s).respOut = s.respOut := rfl
@[simp] theorem resetUnit_bb0_sinkOut : (resetUnit .bb0 s).sinkOut = s.sinkOut := rfl
@[simp] theorem resetUnit_bb0_sinkIn : (resetUnit .bb0 s).sinkIn = s.sinkIn := rfl

/-! ## resetUnit .gcm -/

@[simp] theorem resetUnit_gcm_par : (resetUnit .gcm s).par = s.par := rfl
@[simp] theorem resetUnit_gcm_bb0 : (resetUnit .gcm s).bb0 = s.bb0 := rfl
@[simp] theorem resetUnit_gcm_gcm : (resetUnit .gcm s).gcm = GcmRegs.reset := rfl
@[simp] theorem resetUnit_gcm_ccm : (resetUnit .gcm s).ccm = s.ccm := rfl
@[simp] theorem resetUnit_gcm_mac : (resetUnit .gcm s).mac = s.mac := rfl
@[simp] theorem resetUnit_gcm_cmdIn : (resetUnit .gcm s).cmdIn = s.cmdIn := rfl
@[simp] theorem resetUnit_gcm_respOut : (resetUnit .gcm s).respOut = s.respOut := rfl
@[simp] theorem resetUnit_gcm_sinkOut : (resetUnit .gcm s).sinkOut = s.sinkOut := rfl
@[simp] theorem resetUnit_gcm_sinkIn : (resetUnit .gcm s).sinkIn = s.sinkIn := rfl

/-! ## resetUnit .ccm -/

@[simp] theorem resetUnit_ccm_par : (resetUnit .ccm s).par = s.par := rfl
@[simp] theorem resetUnit_ccm_bb0 : (resetUnit .ccm s).bb0 = s.bb0 := rfl
@[simp] theorem resetUnit_ccm_gcm : (resetUnit .ccm s).gcm = s.gcm := rfl
@[simp] theorem resetUnit_ccm_ccm : (resetUnit .ccm s).ccm = CcmRegs.reset := rfl
@[simp] theorem resetUnit_ccm_mac : (resetUnit .ccm s).mac = s.mac := rfl
@[simp] theorem resetUnit_ccm_cmdIn : (resetUnit .ccm s).cmdIn = s.cmdIn := rfl
@[simp] theorem resetUnit_ccm_respOut : (resetUnit .ccm s).respOut = s.respOut := rfl
@[simp] theorem resetUnit_ccm_sinkOut : (resetUnit .ccm s).sinkOut = s.sinkOut := rfl
@[simp] theorem resetUnit_ccm_sinkIn : (resetUnit .ccm s).sinkIn = s.sinkIn := rfl

/-! ## resetUnit .mac -/

@[simp] theorem resetUnit_mac_par : (resetUnit .mac s).par = s.par := rfl
@[simp] theorem resetUnit_mac_bb0 : (resetUnit .mac s).bb0 = s.bb0 := rfl
@[simp] theorem resetUnit_mac_gcm : (resetUnit .mac s).gcm = s.gcm := rfl
@[simp] theorem resetUnit_mac_ccm : (resetUnit .mac s).ccm = s.ccm := rfl
@[simp] theorem resetUnit_mac_mac : (resetUnit .mac s).mac = MacRegs.reset s.par.blockLen := rfl
@[simp] theorem resetUnit_mac_cmdIn : (resetUnit .mac s).cmdIn = s.cmdIn := rfl
@[simp] theorem resetUnit_mac_respOut : (resetUnit .mac s).respOut = s.respOut := rfl
@[simp] theorem resetUnit_mac_sinkOut : (resetUnit .mac s).sinkOut = s.sinkOut := rfl
@[simp] theorem resetUnit_mac_sinkIn : (resetUnit .mac s).sinkIn = s.sinkIn := rfl

/-! ## wipeUnit .bb0 -/

@[simp] theorem wipeUnit_bb0_par (p : Phase) (e : Byte) : (wipeUnit .bb0 p e s).par = s.par := rfl
@[simp] theorem wipeUnit_bb0_bb0 (p : Phase) (e : Byte) : (wipeUnit .bb0 p e s).bb0 = { BbRegs.reset with phase := p, err := e } := rfl
@[simp] theorem wipeUnit_bb0_gcm (p : Phase) (e : Byte) : (wipeUnit .bb0 p e s).gcm = s.gcm := rfl
@[simp] theorem wipeUnit_bb0_ccm (p : Phase) (e : Byte) : (wipeUnit .bb0 p e s).ccm = s.ccm := rfl
@[simp] theorem wipeUnit_bb0_mac (p : Phase) (e : Byte) : (wipeUnit .bb0 p e s).mac = s.mac := rfl
@[simp] theorem wipeUnit_bb0_cmdIn (p : Phase) (e : Byte) : (wipeUnit .bb0 p e s).cmdIn = s.cmdIn := rfl
@[simp] theorem wipeUnit_bb0_respOut (p : Phase) (e : Byte) : (wipeUnit .bb0 p e s).respOut = s.respOut := rfl
@[simp] theorem wipeUnit_bb0_sinkOut (p : Phase) (e : Byte) : (wipeUnit .bb0 p e s).sinkOut = s.sinkOut := rfl
@[simp] theorem wipeUnit_bb0_sinkIn (p : Phase) (e : Byte) : (wipeUnit .bb0 p e s).sinkIn = s.sinkIn := rfl

/-! ## wipeUnit .gcm -/

@[simp] theorem wipeUnit_gcm_par (p : Phase) (e : Byte) : (wipeUnit .gcm p e s).par = s.par := rfl
@[simp] theorem wipeUnit_gcm_bb0 (p : Phase) (e : Byte) : (wipeUnit .gcm p e s).bb0 = s.bb0 := rfl
@[simp] theorem wipeUnit_gcm_gcm (p : Phase) (e : Byte) : (wipeUnit .gcm p e s).gcm = { GcmRegs.reset with phase := p, err := e } := rfl
@[simp] theorem wipeUnit_gcm_ccm (p : Phase) (e : Byte) : (wipeUnit .gcm p e s).ccm = s.ccm := rfl
@[simp] theorem wipeUnit_gcm_mac (p : Phase) (e : Byte) : (wipeUnit .gcm p e s).mac = s.mac := rfl
@[simp] theorem wipeUnit_gcm_cmdIn (p : Phase) (e : Byte) : (wipeUnit .gcm p e s).cmdIn = s.cmdIn := rfl
@[simp] theorem wipeUnit_gcm_respOut (p : Phase) (e : Byte) : (wipeUnit .gcm p e s).respOut = s.respOut := rfl
@[simp] theorem wipeUnit_gcm_sinkOut (p : Phase) (e : Byte) : (wipeUnit .gcm p e s).sinkOut = s.sinkOut := rfl
@[simp] theorem wipeUnit_gcm_sinkIn (p : Phase) (e : Byte) : (wipeUnit .gcm p e s).sinkIn = s.sinkIn := rfl

/-! ## wipeUnit .ccm -/

@[simp] theorem wipeUnit_ccm_par (p : Phase) (e : Byte) : (wipeUnit .ccm p e s).par = s.par := rfl
@[simp] theorem wipeUnit_ccm_bb0 (p : Phase) (e : Byte) : (wipeUnit .ccm p e s).bb0 = s.bb0 := rfl
@[simp] theorem wipeUnit_ccm_gcm (p : Phase) (e : Byte) : (wipeUnit .ccm p e s).gcm = s.gcm := rfl
@[simp] theorem wipeUnit_ccm_ccm (p : Phase) (e : Byte) : (wipeUnit .ccm p e s).ccm = { CcmRegs.reset with phase := p, err := e } := rfl
@[simp] theorem wipeUnit_ccm_mac (p : Phase) (e : Byte) : (wipeUnit .ccm p e s).mac = s.mac := rfl
@[simp] theorem wipeUnit_ccm_cmdIn (p : Phase) (e : Byte) : (wipeUnit .ccm p e s).cmdIn = s.cmdIn := rfl
@[simp] theorem wipeUnit_ccm_respOut (p : Phase) (e : Byte) : (wipeUnit .ccm p e s).respOut = s.respOut := rfl
@[simp] theorem wipeUnit_ccm_sinkOut (p : Phase) (e : Byte) : (wipeUnit .ccm p e s).sinkOut = s.sinkOut := rfl
@[simp] theorem wipeUnit_ccm_sinkIn (p : Phase) (e : Byte) : (wipeUnit .ccm p e s).sinkIn = s.sinkIn := rfl

/-! ## wipeUnit .mac -/

@[simp] theorem wipeUnit_mac_par (p : Phase) (e : Byte) : (wipeUnit .mac p e s).par = s.par := rfl
@[simp] theorem wipeUnit_mac_bb0 (p : Phase) (e : Byte) : (wipeUnit .mac p e s).bb0 = s.bb0 := rfl
@[simp] theorem wipeUnit_mac_gcm (p : Phase) (e : Byte) : (wipeUnit .mac p e s).gcm = s.gcm := rfl
@[simp] theorem wipeUnit_mac_ccm (p : Phase) (e : Byte) : (wipeUnit .mac p e s).ccm = s.ccm := rfl
@[simp] theorem wipeUnit_mac_mac (p : Phase) (e : Byte) : (wipeUnit .mac p e s).mac = { MacRegs.reset s.par.blockLen with phase := p, err := e } := rfl
@[simp] theorem wipeUnit_mac_cmdIn (p : Phase) (e : Byte) : (wipeUnit .mac p e s).cmdIn = s.cmdIn := rfl
@[simp] theorem wipeUnit_mac_respOut (p : Phase) (e : Byte) : (wipeUnit .mac p e s).respOut = s.respOut := rfl
@[simp] theorem wipeUnit_mac_sinkOut (p : Phase) (e : Byte) : (wipeUnit .mac p e s).sinkOut = s.sinkOut := rfl
@[simp] theorem wipeUnit_mac_sinkIn (p : Phase) (e : Byte) : (wipeUnit .mac p e s).sinkIn = s.sinkIn := rfl

/-! ## raise .bb0 -/

@[simp] theorem raise_bb0_par (k : Status) (opc : Byte) : (raise .bb0 k opc s).par = s.par := rfl
@[simp] theorem raise_bb0_bb0 (k : Status) (opc : Byte) : (raise .bb0 k opc s).bb0 = { BbRegs.reset with
      phase := .fault, err := if s.bb0.phase = .fault then s.bb0.err else statusCode k } := rfl
@[simp] theorem raise_bb0_gcm (k : Status) (opc : Byte) : (raise .bb0 k opc s).gcm = s.gcm := rfl
@[simp] theorem raise_bb0_ccm (k : Status) (opc : Byte) : (raise .bb0 k opc s).ccm = s.ccm := rfl
@[simp] theorem raise_bb0_mac (k : Status) (opc : Byte) : (raise .bb0 k opc s).mac = s.mac := rfl
@[simp] theorem raise_bb0_cmdIn (k : Status) (opc : Byte) : (raise .bb0 k opc s).cmdIn = s.cmdIn := rfl
@[simp] theorem raise_bb0_respOut (k : Status) (opc : Byte) : (raise .bb0 k opc s).respOut = s.respOut ++ [⟨k, opc, 4, []⟩] := rfl
@[simp] theorem raise_bb0_sinkOut (k : Status) (opc : Byte) : (raise .bb0 k opc s).sinkOut = s.sinkOut := rfl
@[simp] theorem raise_bb0_sinkIn (k : Status) (opc : Byte) : (raise .bb0 k opc s).sinkIn = s.sinkIn := rfl

/-! ## raise .gcm -/

@[simp] theorem raise_gcm_par (k : Status) (opc : Byte) : (raise .gcm k opc s).par = s.par := rfl
@[simp] theorem raise_gcm_bb0 (k : Status) (opc : Byte) : (raise .gcm k opc s).bb0 = s.bb0 := rfl
@[simp] theorem raise_gcm_gcm (k : Status) (opc : Byte) : (raise .gcm k opc s).gcm = { GcmRegs.reset with
      phase := .fault, err := if s.gcm.phase = .fault then s.gcm.err else statusCode k } := rfl
@[simp] theorem raise_gcm_ccm (k : Status) (opc : Byte) : (raise .gcm k opc s).ccm = s.ccm := rfl
@[simp] theorem raise_gcm_mac (k : Status) (opc : Byte) : (raise .gcm k opc s).mac = s.mac := rfl
@[simp] theorem raise_gcm_cmdIn (k : Status) (opc : Byte) : (raise .gcm k opc s).cmdIn = s.cmdIn := rfl
@[simp] theorem raise_gcm_respOut (k : Status) (opc : Byte) : (raise .gcm k opc s).respOut = s.respOut ++ [⟨k, opc, 4, []⟩] := rfl
@[simp] theorem raise_gcm_sinkOut (k : Status) (opc : Byte) : (raise .gcm k opc s).sinkOut = s.sinkOut := rfl
@[simp] theorem raise_gcm_sinkIn (k : Status) (opc : Byte) : (raise .gcm k opc s).sinkIn = s.sinkIn := rfl

/-! ## raise .ccm -/

@[simp] theorem raise_ccm_par (k : Status) (opc : Byte) : (raise .ccm k opc s).par = s.par := rfl
@[simp] theorem raise_ccm_bb0 (k : Status) (opc : Byte) : (raise .ccm k opc s).bb0 = s.bb0 := rfl
@[simp] theorem raise_ccm_gcm (k : Status) (opc : Byte) : (raise .ccm k opc s).gcm = s.gcm := rfl
@[simp] theorem raise_ccm_ccm (k : Status) (opc : Byte) : (raise .ccm k opc s).ccm = { CcmRegs.reset with
      phase := .fault, err := if s.ccm.phase = .fault then s.ccm.err else statusCode k } := rfl
@[simp] theorem raise_ccm_mac (k : Status) (opc : Byte) : (raise .ccm k opc s).mac = s.mac := rfl
@[simp] theorem raise_ccm_cmdIn (k : Status) (opc : Byte) : (raise .ccm k opc s).cmdIn = s.cmdIn := rfl
@[simp] theorem raise_ccm_respOut (k : Status) (opc : Byte) : (raise .ccm k opc s).respOut = s.respOut ++ [⟨k, opc, 4, []⟩] := rfl
@[simp] theorem raise_ccm_sinkOut (k : Status) (opc : Byte) : (raise .ccm k opc s).sinkOut = s.sinkOut := rfl
@[simp] theorem raise_ccm_sinkIn (k : Status) (opc : Byte) : (raise .ccm k opc s).sinkIn = s.sinkIn := rfl

/-! ## raise .mac -/

@[simp] theorem raise_mac_par (k : Status) (opc : Byte) : (raise .mac k opc s).par = s.par := rfl
@[simp] theorem raise_mac_bb0 (k : Status) (opc : Byte) : (raise .mac k opc s).bb0 = s.bb0 := rfl
@[simp] theorem raise_mac_gcm (k : Status) (opc : Byte) : (raise .mac k opc s).gcm = s.gcm := rfl
@[simp] theorem raise_mac_ccm (k : Status) (opc : Byte) : (raise .mac k opc s).ccm = s.ccm := rfl
@[simp] theorem raise_mac_mac (k : Status) (opc : Byte) : (raise .mac k opc s).mac = { MacRegs.reset s.par.blockLen with
      phase := .fault, err := if s.mac.phase = .fault then s.mac.err else statusCode k } := rfl
@[simp] theorem raise_mac_cmdIn (k : Status) (opc : Byte) : (raise .mac k opc s).cmdIn = s.cmdIn := rfl
@[simp] theorem raise_mac_respOut (k : Status) (opc : Byte) : (raise .mac k opc s).respOut = s.respOut ++ [⟨k, opc, 4, []⟩] := rfl
@[simp] theorem raise_mac_sinkOut (k : Status) (opc : Byte) : (raise .mac k opc s).sinkOut = s.sinkOut := rfl
@[simp] theorem raise_mac_sinkIn (k : Status) (opc : Byte) : (raise .mac k opc s).sinkIn = s.sinkIn := rfl

end Sys2Proof.Machine
end

