-- ==== Sys2Proof/Laws/Gcm.lean ====
section
/-! SUPPORT. What the internal operations of the GCM unit do to its registers, said once each in the
terms of the whole-input functions (GHASH, the CTR pieces), and how those functions behave under
appending. -/

namespace Sys2Proof.Machine

/-! ## Counters and pieces (R145) -/

@[simp] theorem incrIter_zero (q : Nat) (c : Bytes) : incrIter q 0 c = c := rfl

@[simp] theorem incrIter_succ (q n : Nat) (c : Bytes) :
    incrIter q (n + 1) c = incrIter q n (incrW q c) := rfl

theorem incrIter_add (q m n : Nat) (c : Bytes) :
    incrIter q (m + n) c = incrIter q n (incrIter q m c) := by
  induction m generalizing c with
  | zero => simp
  | succ m ih => rw [Nat.add_right_comm, incrIter_succ, ih, incrIter_succ]

@[simp] theorem ctrPieces_nil (x : Ext) (q : Nat) (k ctr : Bytes) : ctrPieces x q k ctr [] = [] :=
  rfl

/-- The first piece takes the counter as it stands, the others the next one on. -/
@[simp] theorem ctrPieces_cons (x : Ext) (q : Nat) (k ctr p : Bytes) (ps : List Bytes) :
    ctrPieces x q k ctr (p :: ps) =
      bxor p (first (enc x .b16 k ctr) p.length) :: ctrPieces x q k (incrW q ctr) ps := by
  simp [ctrPieces, List.mapIdx_cons]

@[simp] theorem ctrPieces_length (x : Ext) (q : Nat) (k ctr : Bytes) (ps : List Bytes) :
    (ctrPieces x q k ctr ps).length = ps.length := by simp [ctrPieces]

theorem ctrPieces_append (x : Ext) (q : Nat) (k ctr : Bytes) (as bs : List Bytes) :
    ctrPieces x q k ctr (as ++ bs) =
      ctrPieces x q k ctr as ++ ctrPieces x q k (incrIter q as.length ctr) bs := by
  induction as generalizing ctr with
  | nil => simp
  | cons a as ih => simp [ih]

/-- Every output piece is as long as its input piece. -/
theorem ctrPieces_map_length (x : Ext) (q : Nat) (k ctr : Bytes) (ps : List Bytes)
    (h : ∀ p ∈ ps, p.length ≤ 16) :
    (ctrPieces x q k ctr ps).map List.length = ps.map List.length := by
  induction ps generalizing ctr with
  | nil => rfl
  | cons p ps ih =>
    have hp : p.length ≤ 16 := h p (by simp)
    simp [ih _ (fun b hb => h b (by simp [hb])), hp]

/-- The same counters decrypt what they encrypted, piece by piece. -/
theorem ctrPieces_cancel (x : Ext) (q : Nat) (k ctr : Bytes) (ps : List Bytes)
    (h : ∀ p ∈ ps, p.length ≤ 16) :
    ctrPieces x q k ctr (ctrPieces x q k ctr ps) = ps := by
  induction ps generalizing ctr with
  | nil => rfl
  | cons p ps ih =>
    have hp : p.length ≤ 16 := h p (by simp)
    have hl : (bxor p (first (enc x .b16 k ctr) p.length)).length = p.length := by simp [hp]
    rw [ctrPieces_cons, ctrPieces_cons, hl, ih _ (fun b hb => h b (by simp [hb])),
      bxor_cancel (by simp [hp])]

/-! ## GHASH (R161, R162) -/

@[simp] theorem ghashFrom_nil (h acc : Bytes) : ghashFrom h acc [] = acc := rfl

@[simp] theorem ghashFrom_cons (h acc b : Bytes) (bs : List Bytes) :
    ghashFrom h acc (b :: bs) = ghashFrom h (gfMul (bxor acc b) h) bs := rfl

theorem ghashFrom_append (h acc : Bytes) (as bs : List Bytes) :
    ghashFrom h acc (as ++ bs) = ghashFrom h (ghashFrom h acc as) bs := by simp [ghashFrom]

theorem ghashFrom_length {h acc : Bytes} (ha : acc.length = 16) (bs : List Bytes) :
    (ghashFrom h acc bs).length = 16 := by
  induction bs generalizing acc with
  | nil => exact ha
  | cons b bs ih => exact ih (gfMul_length _ _)

/-- GHASH as the unit computes it: the full blocks of each sequence, its short last piece if there
is one, and the block of the two lengths (R162, R166, R167, R169). -/
theorem ghash_eq (h a c : Bytes) :
    ghash h a c =
      (let xa := ghashFrom h (zeros 16) (fullBlocks 16 a)
       let ya := if remainder 16 a = [] then xa
         else gfMul (bxor xa (padz (remainder 16 a) 16)) h
       let xc := ghashFrom h ya (fullBlocks 16 c)
       let yc := if remainder 16 c = [] then xc
         else gfMul (bxor xc (padz (remainder 16 c) 16)) h
       gfMul (bxor yc (beN 8 (8 * a.length) ++ beN 8 (8 * c.length))) h) := by
  rw [ghash, List.append_assoc, fullBlocks_append_of_mod _ (pad16_length_mod a),
    fullBlocks_append_of_mod _ (pad16_length_mod c), fullBlocks_pad16, fullBlocks_pad16,
    fullBlocks_self (b := beN 8 _ ++ _) (by omega) (by simp)]
  by_cases ha : remainder 16 a = [] <;> by_cases hc : remainder 16 c = [] <;>
    simp [ha, hc, ghashFrom_append]

/-- The unit's initial counter block is the whole-input function's (R161). -/
theorem gcmJ0_eq (h iv : Bytes) : gcmJ0 h iv = j0Of h iv := by
  unfold gcmJ0 j0Of
  split
  · rfl
  · dsimp only [ghash]
    rw [← pad16_eq_padz, pad16_nil, List.nil_append, ← ghashFrom_append,
      fullBlocks_append_of_mod _ (pad16_length_mod iv),
      fullBlocks_self (b := beN 8 (8 * ([] : Bytes).length) ++ _) (by omega) (by simp)]
    rfl

/-! ## The operations of the unit -/

/-- Absorbing changes the accumulator only (R162). -/
theorem gcmAbsorbAll_eq (bs : List Bytes) (g : GcmRegs) :
    gcmAbsorbAll bs g = { g with x := ghashFrom g.h g.x bs } := by
  induction bs generalizing g with
  | nil => rfl
  | cons b bs ih =>
    rw [gcmAbsorbAll, List.foldl_cons]
    exact ih (gcmAbsorb b g)

/-- Closing the associated data: its short last piece enters the accumulator, the phase is `DATA`;
already closed, nothing happens (R165, R167). -/
theorem gcmOpenData_eq (g : GcmRegs) :
    gcmOpenData g = { g with
      phase := if g.phase = .aad then .data else g.phase
      x := closedX g
      abuf := if g.phase = .aad then [] else g.abuf } := by
  unfold gcmOpenData closedX gcmCloseAad
  by_cases h : g.phase = .aad
  · by_cases ha : g.abuf = [] <;> simp [h, ha, gcmAbsorb, List.length_pos_iff]
  · simp [h]

/-- `gcm_data_block` while encrypting: the output is the ciphertext and enters the accumulator
(R168). -/
theorem gcmDataBlock_encrypt (x : Ext) (p : Params) (b : Bytes) {g : GcmRegs}
    (h : g.dir = .encrypt) :
    gcmDataBlock x p b g = (bxor b (first (enc x .b16 g.k g.ctr) b.length), { g with
      ctr := incrW (gcmIncBytes p) g.ctr
      x := gfMul (bxor g.x (padz (bxor b (first (enc x .b16 g.k g.ctr) b.length)) 16)) g.h }) := by
  simp [gcmDataBlock, gcmKsBlock, ctrStep, gcmAbsorb, h]

/-- `gcm_data_block` while decrypting: the input is the ciphertext and enters the accumulator
(R168). -/
theorem gcmDataBlock_decrypt (x : Ext) (p : Params) (b : Bytes) {g : GcmRegs}
    (h : g.dir = .decrypt) :
    gcmDataBlock x p b g = (bxor b (first (enc x .b16 g.k g.ctr) b.length), { g with
      ctr := incrW (gcmIncBytes p) g.ctr
      x := gfMul (bxor g.x (padz b 16)) g.h }) := by
  simp [gcmDataBlock, gcmKsBlock, ctrStep, gcmAbsorb, h]

/-- The full blocks of a data stream while encrypting (R165, R168). -/
theorem gcmDataBlocks_encrypt (x : Ext) (p : Params) (bs : List Bytes) {g : GcmRegs}
    (h : g.dir = .encrypt) (hb : ∀ b ∈ bs, b.length = 16) :
    gcmDataBlocks x p bs g = ((ctrPieces x (gcmIncBytes p) g.k g.ctr bs).flatten, { g with
      ctr := incrIter (gcmIncBytes p) bs.length g.ctr
      x := ghashFrom g.h g.x (ctrPieces x (gcmIncBytes p) g.k g.ctr bs) }) := by
  induction bs generalizing g with
  | nil => rfl
  | cons b bs ih =>
    have hl : b.length = 16 := hb b (by simp)
    have hpad : padz (bxor b (first (enc x .b16 g.k g.ctr) b.length)) 16 =
        bxor b (first (enc x .b16 g.k g.ctr) b.length) := padz_eq_self (by simp [hl])
    rw [gcmDataBlocks, gcmDataBlock_encrypt x p b h, hpad]
    dsimp only
    rw [ih (g := { g with
      ctr := incrW (gcmIncBytes p) g.ctr
      x := gfMul (bxor g.x (bxor b (first (enc x .b16 g.k g.ctr) b.length))) g.h }) h
      (fun b' hb' => hb b' (by simp [hb']))]
    simp

/-- The full blocks of a data stream while decrypting (R165, R168). -/
theorem gcmDataBlocks_decrypt (x : Ext) (p : Params) (bs : List Bytes) {g : GcmRegs}
    (h : g.dir = .decrypt) (hb : ∀ b ∈ bs, b.length = 16) :
    gcmDataBlocks x p bs g = ((ctrPieces x (gcmIncBytes p) g.k g.ctr bs).flatten, { g with
      ctr := incrIter (gcmIncBytes p) bs.length g.ctr
      x := ghashFrom g.h g.x bs }) := by
  induction bs generalizing g with
  | nil => rfl
  | cons b bs ih =>
    have hl : b.length = 16 := hb b (by simp)
    have hpad : padz b 16 = b := padz_eq_self (by simp [hl])
    rw [gcmDataBlocks, gcmDataBlock_decrypt x p b h, hpad]
    dsimp only
    rw [ih (g := { g with
      ctr := incrW (gcmIncBytes p) g.ctr
      x := gfMul (bxor g.x b) g.h }) h (fun b' hb' => hb b' (by simp [hb']))]
    simp

/-- The last short piece: its output, and the registers it leaves; only the counter, the
accumulator and the carry move (R166). -/
theorem gcmFlushData_eq (x : Ext) (p : Params) (g : GcmRegs) :
    gcmFlushData x p g = (finalPiece x g, { g with
      dbuf := []
      ctr := if g.dbuf = [] then g.ctr else incrW (gcmIncBytes p) g.ctr
      x := if g.dbuf = [] then g.x
           else gfMul (bxor g.x (padz (match g.dir with
             | .encrypt => finalPiece x g
             | .decrypt => g.dbuf) 16)) g.h }) := by
  unfold gcmFlushData finalPiece
  by_cases h : g.dbuf = []
  · simp [h, bxor]
  · have hp : 0 < g.dbuf.length := List.length_pos_iff.mpr h
    simp only [gt_iff_lt, hp, if_true, h, if_false]
    cases hd : g.dir
    · rw [gcmDataBlock_encrypt _ _ _ (by simp)]
    · rw [gcmDataBlock_decrypt _ _ _ (by simp)]

end Sys2Proof.Machine
end

