-- ==== Sys2Proof/Laws/Ccm.lean ====
section
/-! SUPPORT. What the passes of the CCM unit do to its registers, and the counter blocks of a nonce
as successive increments. -/

namespace Sys2Proof.Machine

/-- The CTR pass: its output, and the working counter it leaves (R209). -/
theorem ccmCtrPieces_eq (x : Ext) (ps : List Bytes) (c : CcmRegs) :
    ccmCtrPieces x ps c =
      ((ctrPieces x 16 c.k c.a ps).flatten, { c with a := incrIter 16 ps.length c.a }) := by
  induction ps generalizing c with
  | nil => rfl
  | cons p ps ih =>
    rw [ccmCtrPieces]
    simp only [ih]
    simp [ctrStep]

/-- The authentication pass writes `Y` only (R208). -/
theorem ccmMac_eq (x : Ext) (pt : Bytes) (c : CcmRegs) :
    ccmMac x pt c = { c with
      y := cbcMac x .b16 c.k (zeros 16)
        (fullBlocks 16 (ccmB0 c pt.length ++ ccmAadBlocks c.astore ++ pad16 pt)) } := rfl

/-- Incrementing a block whose last `w` bytes hold a number that does not overflow them, over at
least those bytes, increments that number (R145). -/
theorem incrW_append_beN {q w i : Nat} {a : Bytes} (hq : a.length + w = q)
    (hi : i + 1 < 256 ^ w) : incrW q (a ++ beN w i) = a ++ beN w (i + 1) := by
  have happ : ∀ (a b : Bytes), intBe (a ++ b) = intBe a * 256 ^ b.length + intBe b := by
    intro a b
    induction a with
    | nil => simp
    | cons y a ih =>
      rw [List.cons_append, intBe_cons, intBe_cons, ih, List.length_append, Nat.pow_add]
      ring
  have hv : intBe (a ++ beN w i) + 1 = intBe (a ++ beN w (i + 1)) := by
    rw [happ, happ, intBe_beN, intBe_beN, beN_length, beN_length, Nat.mod_eq_of_lt hi,
      Nat.mod_eq_of_lt (by omega)]
    omega
  have hlt := intBe_lt (a ++ beN w (i + 1))
  have hl : (a ++ beN w (i + 1)).length = q := by simp [hq]
  rw [hl] at hlt
  have hd : (a ++ beN w i).length - q = 0 := by simp [hq]
  rw [incrW, hd, List.drop_zero, List.take_zero, List.nil_append, hv,
    Nat.mod_eq_of_lt (by rw [Nat.pow_mul]; exact hlt), ← hl, beN_intBe]

end Sys2Proof.Machine
end

