-- ==== Sys2Proof/Laws/Mac.lean ====
section
/-! SUPPORT. What the internal operations of the MAC unit do to its registers, in terms of the
blocks waiting to be chained: the held block, if there is one, and the new full blocks. -/

namespace Sys2Proof.Machine

/-- The held block as a list of blocks waiting to be chained (R233). -/
def macWaiting (m : MacRegs) : List Bytes := if m.heldv then [m.held] else []

@[simp] theorem macWaiting_true {m : MacRegs} (h : m.heldv = true) : macWaiting m = [m.held] := by
  simp [macWaiting, h]

@[simp] theorem macWaiting_false {m : MacRegs} (h : m.heldv = false) : macWaiting m = [] := by
  simp [macWaiting, h]

/-- Chaining the held block chains all that is waiting (R233, R235). -/
theorem macChainHeld_eq (x : Ext) (bl : BlockLen) (m : MacRegs) :
    macChainHeld x bl m = { m with x := cbcMac x bl m.kc m.x (macWaiting m) } := by
  unfold macChainHeld
  cases h : m.heldv
  · cases m; simp_all [macWaiting]
  · simp [macWaiting, h]

/-- New blocks: every waiting block but the last is chained, the last is held (R233). -/
theorem macBlocks_eq (x : Ext) (bl : BlockLen) (bs : List Bytes) (m : MacRegs) :
    bs.foldl (fun m b => macBlock x bl b m) m = { m with
      x := cbcMac x bl m.kc m.x (macWaiting m ++ bs).dropLast
      held := (macWaiting m ++ bs).getLastD m.held
      heldv := !(macWaiting m ++ bs).isEmpty } := by
  induction bs generalizing m with
  | nil =>
    cases h : m.heldv
    · cases m; simp_all [macWaiting]
    · cases m; simp_all [macWaiting]
  | cons b bs ih =>
    rw [List.foldl_cons, ih]
    have hw : macWaiting (macBlock x bl b m) = [b] := by simp [macBlock]
    have hb : macBlock x bl b m =
        { m with x := cbcMac x bl m.kc m.x (macWaiting m), held := b, heldv := true } := by
      rw [macBlock, macChainHeld_eq]
    rw [hw, hb]
    have hd : (macWaiting m ++ b :: bs).dropLast = macWaiting m ++ (b :: bs).dropLast :=
      List.dropLast_append_of_ne_nil (by simp)
    have hg : ∀ d d' : Bytes,
        (macWaiting m ++ b :: bs).getLastD d = (b :: bs).getLastD d' := by
      intro d d'
      simp [List.getLastD_eq_getLast?, List.getLast?_cons]
    simp only [hd, cbcMac_append, List.singleton_append, hg m.held b]
    simp

/-- `bb_put(MAC.BUF, data)` (R234): the waiting blocks and the new full blocks, all but the last
chained; the remainder is the carry; nothing else moves. -/
theorem macPut_eq (x : Ext) (bl : BlockLen) (data : Bytes) (m : MacRegs) :
    macPut x bl data m = { m with
      x := cbcMac x bl m.kc m.x (macWaiting m ++ fullBlocks bl.bytes (m.buf ++ data)).dropLast
      held := (macWaiting m ++ fullBlocks bl.bytes (m.buf ++ data)).getLastD m.held
      heldv := !(macWaiting m ++ fullBlocks bl.bytes (m.buf ++ data)).isEmpty
      buf := remainder bl.bytes (m.buf ++ data) } := by
  rw [macPut, bbCut]
  simp only [macBlocks_eq]

/-- The registers after finalisation: the accumulator is reset, the subkeys stay (R235, R236). -/
theorem macFinalize_regs (x : Ext) (bl : BlockLen) (m : MacRegs) :
    (macFinalize x bl m).2 = { m with
      x := zeros bl.bytes, buf := [], held := zeros bl.bytes, heldv := false, phase := .ready } := by
  unfold macFinalize
  simp only
  split
  · rfl
  · simp only [macChainHeld_eq]; rfl

/-- Chaining a non-empty list is chaining all but its last block and then that one. -/
theorem cbcMac_dropLast (x : Ext) (bl : BlockLen) (k v d : Bytes) {w : List Bytes} (h : w ≠ []) :
    cbcEncStep x bl k (cbcMac x bl k v w.dropLast) (w.getLastD d) = cbcMac x bl k v w := by
  conv_rhs => rw [← List.dropLast_append_getLast h, cbcMac_append]
  rw [List.getLastD_eq_getLast?, List.getLast?_eq_some_getLast h]
  rfl

/-- The tag of a message whose last bytes are `data` (R235, R237, R239). -/
theorem macFinalize_put (x : Ext) (bl : BlockLen) (data : Bytes) (m : MacRegs) :
    (macFinalize x bl (macPut x bl data m)).1 = macTagFrom x bl m data := by
  rw [macPut_eq]
  unfold macFinalize macTagFrom
  simp only
  change _ = if remainder bl.bytes (m.buf ++ data) = [] ∧
      macWaiting m ++ fullBlocks bl.bytes (m.buf ++ data) ≠ [] then
    enc x bl m.kc (bxor
      (cbcMac x bl m.kc m.x (macWaiting m ++ fullBlocks bl.bytes (m.buf ++ data)).dropLast)
      (bxor ((macWaiting m ++ fullBlocks bl.bytes (m.buf ++ data)).getLastD []) (macKa m)))
    else enc x bl m.kc (bxor
      (cbcMac x bl m.kc m.x (macWaiting m ++ fullBlocks bl.bytes (m.buf ++ data)))
      (bxor (pad80 (remainder bl.bytes (m.buf ++ data)) bl.bytes) (macKb m)))
  generalize macWaiting m ++ fullBlocks bl.bytes (m.buf ++ data) = w
  generalize remainder bl.bytes (m.buf ++ data) = r
  by_cases hw : w = []
  · subst hw
    simp [macChainHeld, macKb]
  · have hl : w.getLastD m.held = w.getLastD [] := by
      rw [List.getLastD_eq_getLast?, List.getLastD_eq_getLast?, List.getLast?_eq_some_getLast hw]
      rfl
    have he : (!w.isEmpty) = true := by simpa using hw
    by_cases hr : r = []
    · simp [-List.getLastD_eq_getLast?, hr, hw, hl, macKa]
    · simp [-List.getLastD_eq_getLast?, hr, hw, macChainHeld, cbcMac_dropLast, macKb]

/-- Putting two pieces is putting them joined (R123, R234). -/
theorem macPut_put (x : Ext) (bl : BlockLen) (m : MacRegs) (d e : Bytes) :
    macPut x bl e (macPut x bl d m) = macPut x bl (d ++ e) m := by
  rw [macPut_eq x bl d m, macPut_eq x bl (d ++ e) m, macPut_eq]
  dsimp only
  rw [← List.append_assoc m.buf, fullBlocks_append (m.buf ++ d) e, remainder_append,
    ← List.append_assoc (macWaiting m)]
  generalize fullBlocks bl.bytes (remainder bl.bytes (m.buf ++ d) ++ e) = v
  generalize macWaiting m ++ fullBlocks bl.bytes (m.buf ++ d) = w
  by_cases h : w = []
  · subst h
    simp [macWaiting]
  · have hw : ∀ (r : Bytes) (ph : Phase), macWaiting { m with
        phase := ph, x := cbcMac x bl m.kc m.x w.dropLast, buf := r,
        held := w.getLastD m.held, heldv := !w.isEmpty } = [w.getLast h] := by
      intro r ph
      simp [macWaiting, h, List.getLast?_eq_some_getLast h]
    rw [hw]
    have e1 : cbcMac x bl m.kc (cbcMac x bl m.kc m.x w.dropLast) ([w.getLast h] ++ v).dropLast =
        cbcMac x bl m.kc m.x (w ++ v).dropLast := by
      rw [← cbcMac_append]
      congr 1
      by_cases hv : v = []
      · subst hv; simp
      · rw [List.dropLast_append_of_ne_nil hv, List.dropLast_append_of_ne_nil hv,
          ← List.append_assoc, List.dropLast_append_getLast]
    have e2 : ∀ d d', ([w.getLast h] ++ v).getLastD d = (w ++ v).getLastD d' := by
      intro d d'
      by_cases hv : v = []
      · subst hv; simp [List.getLast?_eq_some_getLast h]
      · rw [List.getLastD_eq_getLast?, List.getLastD_eq_getLast?, List.getLast?_append,
          List.getLast?_append, List.getLast?_eq_some_getLast hv]
        rfl
    rw [e1, e2 _ m.held]
    simp [h]

/-- Putting nothing changes nothing while the carry is shorter than a block (R26, R123). -/
theorem macPut_nil (x : Ext) {bl : BlockLen} {m : MacRegs} (h : m.buf.length < bl.bytes) :
    macPut x bl [] m = m := by
  rw [macPut_eq, List.append_nil, fullBlocks_of_lt h, remainder_of_lt h, List.append_nil]
  cases hv : m.heldv
  · simp only [macWaiting_false hv]; cases m; simp_all
  · simp only [macWaiting_true hv]; cases m; simp_all

/-- The tag does not depend on how the message was cut (R240). -/
theorem macTagFrom_put (x : Ext) (bl : BlockLen) (m : MacRegs) (d e : Bytes) :
    macTagFrom x bl (macPut x bl d m) e = macTagFrom x bl m (d ++ e) := by
  rw [← macFinalize_put, macPut_put, macFinalize_put]

end Sys2Proof.Machine
end

