-- ==== Sys2Proof/Laws/Ops.lean ====
section
/-! SUPPORT. What each shared operation can do, said once: raising an error, the sink port, the
BlockBuffer; and the shape of every command: the registers of its own unit and one response. -/

namespace Sys2Proof.Machine

/-! ## Raising an error (R277) -/

/-- The phase after an error of the unit. -/
theorem raise_phaseOf (u : UnitId) (k : Status) (opc : Byte) (s : State) :
    phaseOf u (raise u k opc s) = .fault := by cases u <;> rfl

/-- The recorded cause: the first one if the unit was in `FAULT` already, the new one otherwise. -/
theorem raise_errOf (u : UnitId) (k : Status) (opc : Byte) (s : State) :
    errOf u (raise u k opc s) = if phaseOf u s = .fault then errOf u s else statusCode k := by
  cases u <;> rfl

/-- An error is answered once, with its status, the phase code of `FAULT` and no payload. -/
theorem raise_respOut (u : UnitId) (k : Status) (opc : Byte) (s : State) :
    (raise u k opc s).respOut = s.respOut ++ [⟨k, opc, 4, []⟩] := by cases u <;> rfl

/-- An error touches nothing on the sink port. -/
theorem raise_sinkOut (u : UnitId) (k : Status) (opc : Byte) (s : State) :
    (raise u k opc s).sinkOut = s.sinkOut := by cases u <;> rfl

/-! ## The sink port (R126, R127) -/

/-- One event: it is recorded with the sink's answer, the answer is consumed, the Boolean says
whether it was `ACK`. -/
theorem emit_eq (x : Ext) (ev : SinkEvent) (s : State) :
    emit x ev s = (sinkAnswerAt x s 0 ev == ackByte,
      { s with sinkOut := s.sinkOut ++ [⟨ev, sinkAnswerAt x s 0 ev⟩], sinkIn := s.sinkIn.tail }) :=
  rfl

/-- The answers seen after one event are the later ones seen before it. -/
theorem sinkAnswerAt_emit (x : Ext) (ev ev' : SinkEvent) (s : State) (n : Nat) :
    sinkAnswerAt x (emit x ev s).2 n ev' = sinkAnswerAt x s (n + 1) ev' := by
  simp [sinkAnswerAt, emit, List.getElem?_tail, Nat.add_assoc, Nat.add_comm 1 n]

/-- Emitting writes changes nothing but the two sides of the sink port. -/
theorem emitWrites_only_sink (x : Ext) (bs : List Bytes) (s : State) :
    ∃ out inn, (emitWrites x bs s).2 = { s with sinkOut := out, sinkIn := inn } := by
  induction bs generalizing s with
  | nil => exact ⟨_, _, rfl⟩
  | cons b bs ih =>
    rw [emitWrites, emit_eq]
    cases hb : (sinkAnswerAt x s 0 ⟨.write, b⟩ == ackByte)
    · exact ⟨_, _, rfl⟩
    · obtain ⟨o, i, h⟩ := ih { s with
        sinkOut := s.sinkOut ++ [⟨⟨.write, b⟩, sinkAnswerAt x s 0 ⟨.write, b⟩⟩]
        sinkIn := s.sinkIn.tail }
      exact ⟨o, i, h⟩

/-- Every event acknowledged: all writes are delivered, in order. -/
theorem emitWrites_all_ack (x : Ext) (bs : List Bytes) (s : State)
    (h : ∀ j, (hj : j < bs.length) → sinkAnswerAt x s j ⟨.write, bs[j]⟩ = 0) :
    emitWrites x bs s = (true, { s with
      sinkOut := s.sinkOut ++ bs.map fun b => ⟨⟨.write, b⟩, 0⟩
      sinkIn := s.sinkIn.drop bs.length }) := by
  induction bs generalizing s with
  | nil => simp [emitWrites]
  | cons b bs ih =>
    have h0 : sinkAnswerAt x s 0 ⟨.write, b⟩ = 0 := h 0 (by simp)
    have key : emit x ⟨.write, b⟩ s = (true, (emit x ⟨.write, b⟩ s).2) := by
      rw [emit_eq, h0]; rfl
    rw [emitWrites, key]
    simp only
    rw [ih]
    · simp [emit_eq, h0]
    · intro j hj
      rw [sinkAnswerAt_emit]
      exact h (j + 1) (by simpa using hj)

/-- The first refusal, after `as` and on `b`: the writes of `as` and the one of `b` are delivered,
those of `bs` never emitted (R127). -/
theorem emitWrites_first_nak (x : Ext) (as : List Bytes) (b : Bytes) (bs : List Bytes) (s : State)
    (h : ∀ j, (hj : j < as.length) → sinkAnswerAt x s j ⟨.write, as[j]⟩ = 0)
    (hb : sinkAnswerAt x s as.length ⟨.write, b⟩ ≠ 0) :
    emitWrites x (as ++ b :: bs) s = (false, { s with
      sinkOut := s.sinkOut ++ (as.map fun a => ⟨⟨.write, a⟩, 0⟩) ++
        [⟨⟨.write, b⟩, sinkAnswerAt x s as.length ⟨.write, b⟩⟩]
      sinkIn := s.sinkIn.drop (as.length + 1) }) := by
  induction as generalizing s with
  | nil =>
    have key : emit x ⟨.write, b⟩ s = (false, (emit x ⟨.write, b⟩ s).2) := by
      rw [emit_eq]
      simp only [Prod.mk.injEq, and_true]
      simpa [ackByte] using hb
    rw [List.nil_append, emitWrites, key]
    simp [emit_eq]
  | cons a as ih =>
    have h0 : sinkAnswerAt x s 0 ⟨.write, a⟩ = 0 := h 0 (by simp)
    have key : emit x ⟨.write, a⟩ s = (true, (emit x ⟨.write, a⟩ s).2) := by
      rw [emit_eq, h0]; rfl
    rw [List.cons_append, emitWrites, key]
    simp only
    rw [ih]
    · rw [sinkAnswerAt_emit]
      simp [emit_eq, h0, List.drop_tail]
    · intro j hj
      rw [sinkAnswerAt_emit]
      exact h (j + 1) (by simpa using hj)
    · rw [sinkAnswerAt_emit]; exact hb

/-! ## The BlockBuffer (R121, R123) -/

/-- The carry is shorter than a block (R26). -/
theorem bbCut_carry_lt {bl : Nat} (h : 0 < bl) (carry data : Bytes) :
    (bbCut bl carry data).2.length < bl := remainder_length_lt h _

/-- Every block forwarded has the block length (R121). -/
theorem bbCut_block_length {bl : Nat} {carry data b : Bytes} (h : b ∈ (bbCut bl carry data).1) :
    b.length = bl := mem_fullBlocks_length h

/-- No byte is lost, repeated or left in the carry after being forwarded (R121). -/
theorem bbCut_flatten (bl : Nat) (carry data : Bytes) :
    (bbCut bl carry data).1.flatten ++ (bbCut bl carry data).2 = carry ++ data :=
  fullBlocks_flatten_append _ _

/-- Zero-length data forwards nothing and leaves a carry shorter than a block (R123). -/
theorem bbCut_nil {bl : Nat} {carry : Bytes} (h : carry.length < bl) :
    bbCut bl carry [] = ([], carry) := by
  simp [bbCut, fullBlocks_of_lt h, remainder_of_lt h]

/-! ## The shape of every command -/

/-- Every command answers a next state: nothing in the spec stops the block. -/
theorem exec_answers (i : Instr) (s : State) : ∃ t, exec i s = .next t := by
  cases i <;> exact ⟨_, rfl⟩

/-- What a response of a command must look like (R96): it echoes the opcode, carries the unit's
phase, and carries no payload unless OK. -/
def answers (r : Response) (opc : Byte) (ph : Phase) : Prop :=
  r.ropc = opc ∧ r.rphase = phaseCode ph ∧ (r.status ≠ .ok → r.payload = [])

theorem raise_gcm_shape (k : Status) (opc : Byte) (s : State) :
    ∃ g r, raise .gcm k opc s = { s with gcm := g, respOut := s.respOut ++ [r] } ∧
      answers r opc g.phase := ⟨_, _, rfl, rfl, rfl, fun _ => rfl⟩

theorem raise_ccm_shape (k : Status) (opc : Byte) (s : State) :
    ∃ c r, raise .ccm k opc s = { s with ccm := c, respOut := s.respOut ++ [r] } ∧
      answers r opc c.phase := ⟨_, _, rfl, rfl, rfl, fun _ => rfl⟩

theorem raise_mac_shape (k : Status) (opc : Byte) (s : State) :
    ∃ m r, raise .mac k opc s = { s with mac := m, respOut := s.respOut ++ [r] } ∧
      answers r opc m.phase := ⟨_, _, rfl, rfl, rfl, fun _ => rfl⟩

theorem bbOpen_shape (blen : Byte) (s : State) :
    ∃ b r, bbOpen blen s = { s with bb0 := b, respOut := s.respOut ++ [r] } ∧
      answers r opcBbOpen b.phase := by
  unfold bbOpen
  simp only
  split
  · exact ⟨_, _, rfl, rfl, rfl, fun _ => rfl⟩
  · exact ⟨_, _, rfl, rfl, rfl, fun _ => rfl⟩

theorem bbPut_shape (x : Ext) (payload : Bytes) (s : State) :
    ∃ b r o i, bbPut x payload s =
        { s with bb0 := b, respOut := s.respOut ++ [r], sinkOut := o, sinkIn := i } ∧
      answers r opcBbPut b.phase := by
  unfold bbPut
  split
  · exact ⟨_, _, _, _, rfl, rfl, rfl, fun _ => rfl⟩
  · simp only
    obtain ⟨o, i, h⟩ := emitWrites_only_sink x (bbCut s.bb0.blen.toNat s.bb0.carry payload).1 s
    split
    · rename_i s' heq
      obtain rfl : s' = { s with sinkOut := o, sinkIn := i } := by rw [← h, heq]
      exact ⟨_, _, _, _, rfl, rfl, rfl, fun _ => rfl⟩
    · rename_i s' heq
      obtain rfl : s' = { s with sinkOut := o, sinkIn := i } := by rw [← h, heq]
      exact ⟨_, _, _, _, rfl, rfl, rfl, fun _ => rfl⟩

theorem bbFlush_shape (x : Ext) (s : State) :
    ∃ b r o i, bbFlush x s =
        { s with bb0 := b, respOut := s.respOut ++ [r], sinkOut := o, sinkIn := i } ∧
      answers r opcBbFlush b.phase := by
  unfold bbFlush
  split
  · exact ⟨_, _, _, _, rfl, rfl, rfl, fun _ => rfl⟩
  · rw [emit_eq]
    cases (sinkAnswerAt x s 0 ⟨.flush, s.bb0.carry⟩ == ackByte)
    · exact ⟨_, _, _, _, rfl, rfl, rfl, fun _ => rfl⟩
    · exact ⟨_, _, _, _, rfl, rfl, rfl, fun _ => rfl⟩

theorem gcmInit_shape (x : Ext) (d : Dir) (klen tlen : Byte) (payload : Bytes) (s : State) :
    ∃ g r, gcmInit x d klen tlen payload s = { s with gcm := g, respOut := s.respOut ++ [r] } ∧
      answers r opcGcmInit g.phase := by
  unfold gcmInit
  simp only
  split
  · exact ⟨_, _, rfl, rfl, rfl, fun _ => rfl⟩
  · exact ⟨_, _, rfl, rfl, rfl, fun _ => rfl⟩

theorem gcmAad_shape (payload : Bytes) (s : State) :
    ∃ g r, gcmAad payload s = { s with gcm := g, respOut := s.respOut ++ [r] } ∧
      answers r opcGcmAad g.phase := by
  unfold gcmAad
  split
  · exact raise_gcm_shape _ _ _
  · split
    · exact raise_gcm_shape _ _ _
    · exact ⟨_, _, rfl, rfl, rfl, fun _ => rfl⟩

theorem gcmUpdate_shape (x : Ext) (payload : Bytes) (s : State) :
    ∃ g r, gcmUpdate x payload s = { s with gcm := g, respOut := s.respOut ++ [r] } ∧
      answers r opcGcmUpdate g.phase := by
  unfold gcmUpdate
  split
  · exact raise_gcm_shape _ _ _
  · split
    · exact raise_gcm_shape _ _ _
    · simp only
      split
      · exact ⟨_, _, rfl, rfl, rfl, fun h => absurd rfl h⟩
      · exact ⟨_, _, rfl, rfl, rfl, fun _ => rfl⟩

theorem gcmFinal_shape (x : Ext) (payload : Bytes) (s : State) :
    ∃ g r, gcmFinal x payload s = { s with gcm := g, respOut := s.respOut ++ [r] } ∧
      answers r opcGcmFinal g.phase := by
  unfold gcmFinal
  split
  · exact raise_gcm_shape _ _ _
  · split
    · exact raise_gcm_shape _ _ _
    · simp only
      split
      · exact ⟨_, _, rfl, rfl, rfl, fun h => absurd rfl h⟩
      · split
        · exact ⟨_, _, rfl, rfl, rfl, fun _ => rfl⟩
        · exact ⟨_, _, rfl, rfl, rfl, fun h => absurd rfl h⟩

theorem ccmInit_shape (d : Dir) (klen tlen : Byte) (payload : Bytes) (s : State) :
    ∃ c r, ccmInit d klen tlen payload s = { s with ccm := c, respOut := s.respOut ++ [r] } ∧
      answers r opcCcmInit c.phase := by
  unfold ccmInit
  simp only
  split
  · exact ⟨_, _, rfl, rfl, rfl, fun _ => rfl⟩
  · exact ⟨_, _, rfl, rfl, rfl, fun _ => rfl⟩

theorem ccmAad_shape (payload : Bytes) (s : State) :
    ∃ c r, ccmAad payload s = { s with ccm := c, respOut := s.respOut ++ [r] } ∧
      answers r opcCcmAad c.phase := by
  unfold ccmAad
  split
  · exact raise_ccm_shape _ _ _
  · split
    · exact raise_ccm_shape _ _ _
    · exact ⟨_, _, rfl, rfl, rfl, fun _ => rfl⟩

theorem ccmUpdate_shape (payload : Bytes) (s : State) :
    ∃ c r, ccmUpdate payload s = { s with ccm := c, respOut := s.respOut ++ [r] } ∧
      answers r opcCcmUpdate c.phase := by
  unfold ccmUpdate
  split
  · exact raise_ccm_shape _ _ _
  · split
    · exact raise_ccm_shape _ _ _
    · exact ⟨_, _, rfl, rfl, rfl, fun _ => rfl⟩

theorem ccmFinal_shape (x : Ext) (payload : Bytes) (s : State) :
    ∃ c r, ccmFinal x payload s = { s with ccm := c, respOut := s.respOut ++ [r] } ∧
      answers r opcCcmFinal c.phase := by
  unfold ccmFinal
  split
  · exact raise_ccm_shape _ _ _
  · split
    · exact raise_ccm_shape _ _ _
    · simp only
      split
      · exact ⟨_, _, rfl, rfl, rfl, fun h => absurd rfl h⟩
      · split
        · exact ⟨_, _, rfl, rfl, rfl, fun _ => rfl⟩
        · exact ⟨_, _, rfl, rfl, rfl, fun h => absurd rfl h⟩

theorem macInit_shape (x : Ext) (vv : Variant) (klen tlen : Byte) (payload : Bytes) (s : State) :
    ∃ m r, macInit x vv klen tlen payload s = { s with mac := m, respOut := s.respOut ++ [r] } ∧
      answers r opcMacInit m.phase := by
  unfold macInit
  simp only
  split
  · exact ⟨_, _, rfl, rfl, rfl, fun _ => rfl⟩
  · exact ⟨_, _, rfl, rfl, rfl, fun _ => rfl⟩

theorem macUpdate_shape (x : Ext) (payload : Bytes) (s : State) :
    ∃ m r, macUpdate x payload s = { s with mac := m, respOut := s.respOut ++ [r] } ∧
      answers r opcMacUpdate m.phase := by
  unfold macUpdate
  split
  · exact raise_mac_shape _ _ _
  · exact ⟨_, _, rfl, rfl, rfl, fun _ => rfl⟩

theorem macSign_shape (x : Ext) (payload : Bytes) (s : State) :
    ∃ m r, macSign x payload s = { s with mac := m, respOut := s.respOut ++ [r] } ∧
      answers r opcMacSign m.phase := by
  unfold macSign
  split
  · exact raise_mac_shape _ _ _
  · exact ⟨_, _, rfl, rfl, rfl, fun h => absurd rfl h⟩

theorem macVerify_shape (x : Ext) (payload : Bytes) (s : State) :
    ∃ m r, macVerify x payload s = { s with mac := m, respOut := s.respOut ++ [r] } ∧
      answers r opcMacVerify m.phase := by
  unfold macVerify
  split
  · exact raise_mac_shape _ _ _
  · simp only
    split
    · exact ⟨_, _, rfl, rfl, rfl, fun _ => rfl⟩
    · exact ⟨_, _, rfl, rfl, rfl, fun _ => rfl⟩

end Sys2Proof.Machine
end

