-- ==== Sys2Proof/Laws/PerInstr.lean ====
section
/-! SUPPORT. Families of statements made for every command, one lemma per constructor. -/

namespace Sys2Proof.Laws

/-! ## EncodeFrame: the frame of a command (R91, R97, R99) -/

/-- The frame is 8 header bytes and the payload, nothing else (R99); its first byte is `OPC`; and
the row of R97 that bears the command's mnemonic has that opcode in its match. -/
def EncodeFrame.Statement (i : Instr) : Prop :=
  (encode i).length = 8 + i.payload.length ∧ (encode i).head? = some (opcodeOf i) ∧
  ∃ row ∈ opcodeRows, row.mnemonic = mnemonicOf i ∧
    row.pattern >>> 56 = (opcodeOf i).setWidth 64

/-- The part of the statement that is the same for every command. -/
theorem encodeFrame_of_row {i : Instr}
    (h : ∃ row ∈ opcodeRows, row.mnemonic = mnemonicOf i ∧
      row.pattern >>> 56 = (opcodeOf i).setWidth 64) : EncodeFrame.Statement i := by
  refine ⟨?_, rfl, h⟩
  simp [encode]
  omega

theorem EncodeFrame.sysReset : EncodeFrame.Statement (.sysReset) :=
  encodeFrame_of_row (by simp only [mnemonicOf, opcodeOf]; decide)

theorem EncodeFrame.sysStatus : EncodeFrame.Statement (.sysStatus) :=
  encodeFrame_of_row (by simp only [mnemonicOf, opcodeOf]; decide)

theorem EncodeFrame.bbOpen (b : Byte) : EncodeFrame.Statement (.bbOpen b) :=
  encodeFrame_of_row (by simp only [mnemonicOf, opcodeOf]; decide)

theorem EncodeFrame.bbPut (b : Bytes) : EncodeFrame.Statement (.bbPut b) :=
  encodeFrame_of_row (by simp only [mnemonicOf, opcodeOf]; decide)

theorem EncodeFrame.bbFlush : EncodeFrame.Statement (.bbFlush) :=
  encodeFrame_of_row (by simp only [mnemonicOf, opcodeOf]; decide)

theorem EncodeFrame.gcmInit (d : Dir) (k : Byte) (t : Byte) (b : Bytes) : EncodeFrame.Statement (.gcmInit d k t b) :=
  encodeFrame_of_row (by simp only [mnemonicOf, opcodeOf]; decide)

theorem EncodeFrame.gcmAad (b : Bytes) : EncodeFrame.Statement (.gcmAad b) :=
  encodeFrame_of_row (by simp only [mnemonicOf, opcodeOf]; decide)

theorem EncodeFrame.gcmUpdate (b : Bytes) : EncodeFrame.Statement (.gcmUpdate b) :=
  encodeFrame_of_row (by simp only [mnemonicOf, opcodeOf]; decide)

theorem EncodeFrame.gcmFinal (b : Bytes) : EncodeFrame.Statement (.gcmFinal b) :=
  encodeFrame_of_row (by simp only [mnemonicOf, opcodeOf]; decide)

theorem EncodeFrame.ccmInit (d : Dir) (k : Byte) (t : Byte) (b : Bytes) : EncodeFrame.Statement (.ccmInit d k t b) :=
  encodeFrame_of_row (by simp only [mnemonicOf, opcodeOf]; decide)

theorem EncodeFrame.ccmAad (b : Bytes) : EncodeFrame.Statement (.ccmAad b) :=
  encodeFrame_of_row (by simp only [mnemonicOf, opcodeOf]; decide)

theorem EncodeFrame.ccmUpdate (b : Bytes) : EncodeFrame.Statement (.ccmUpdate b) :=
  encodeFrame_of_row (by simp only [mnemonicOf, opcodeOf]; decide)

theorem EncodeFrame.ccmFinal (b : Bytes) : EncodeFrame.Statement (.ccmFinal b) :=
  encodeFrame_of_row (by simp only [mnemonicOf, opcodeOf]; decide)

theorem EncodeFrame.macInit (v : Variant) (k : Byte) (t : Byte) (b : Bytes) : EncodeFrame.Statement (.macInit v k t b) :=
  encodeFrame_of_row (by simp only [mnemonicOf, opcodeOf]; decide)

theorem EncodeFrame.macUpdate (b : Bytes) : EncodeFrame.Statement (.macUpdate b) :=
  encodeFrame_of_row (by simp only [mnemonicOf, opcodeOf]; decide)

theorem EncodeFrame.macSign (b : Bytes) : EncodeFrame.Statement (.macSign b) :=
  encodeFrame_of_row (by simp only [mnemonicOf, opcodeOf]; decide)

theorem EncodeFrame.macVerify (b : Bytes) : EncodeFrame.Statement (.macVerify b) :=
  encodeFrame_of_row (by simp only [mnemonicOf, opcodeOf]; decide)

end Sys2Proof.Laws
end

