-- ==== Sys2Proof/Tests/Slice0.lean ====
section
/-! SUPPORT. Tests of the model: each check of WellFormed refusing a term, one frame per command
written out from spec/30_encoding.md R91 and R93, vectors of spec/95_test_vectors.md replayed one step
at a time with its hand-checkable ciphers, and for every statement with hypotheses a concrete state
and operands that meet them (the `witness_` theorems). -/

namespace Sys2Proof.Tests

open Sys2Proof Sys2Proof.Machine

/-! ## The toy ciphers of spec/95_test_vectors.md section 0 -/

theorem rotate_cancels (w : Nat) (b : BitVec w) (h : 8 < w) :
    (b.rotateLeft 8).rotateRight 8 = b ∧ (b.rotateRight 8).rotateLeft 8 = b := by
  constructor <;> ext i hi <;>
    simp only [← BitVec.getLsbD_eq_getElem, BitVec.getLsbD_rotateRight,
      BitVec.getLsbD_rotateLeft] <;>
    rw [Nat.mod_eq_of_lt h]
  · by_cases h1 : i < w - 8
    · simp [h1, show ¬ 8 + i < 8 by omega, show 8 + i < w by omega]
    · simp [h1, show i - (w - 8) < 8 by omega, show i < w from hi,
        show w - 8 + (i - (w - 8)) = i by omega]
  · by_cases h1 : i < 8
    · simp [h1, show ¬ w - 8 + i < w - 8 by omega, show w - 8 + i < w by omega]
    · simp [h1, show i - 8 < w - 8 by omega, show i < w from hi, show 8 + (i - 8) = i by omega]

/-- `TOY16` and `TOY8`: `E(K, B) = rotl8(xor(B, K))`. -/
def toyPerm (bl : BlockLen) (k : Bytes) : Equiv.Perm (BitVec bl.bits) where
  toFun b := (b ^^^ blockOf bl k).rotateLeft 8
  invFun c := c.rotateRight 8 ^^^ blockOf bl k
  left_inv b := by
    have h : 8 < bl.bits := by cases bl <;> decide
    simp [(rotate_cancels bl.bits _ h).1]
  right_inv c := by
    have h : 8 < bl.bits := by cases bl <;> decide
    simp [(rotate_cancels bl.bits _ h).2]

/-- The toy cipher, a sink that answers `ACK`, and candidate (c) of spec/95_test_vectors.md for
`OMAC2_K2`. -/
def toyExt : Ext where
  cipher := toyPerm
  omac2K2 bl v :=
    let rb := dblConst Params.specDefault bl
    blockOf bl (dbl rb bl (dbl rb bl (blockBytes bl v)))
  sink _ _ := 0

/-- The key of the toy vectors, `000102..0f`. -/
def toyKey : Bytes := beN 16 0x000102030405060708090A0B0C0D0E0F

/-- The last response on the port. -/
def lastWire (s : State) : Bytes := (s.respOut.getLast?.map Response.wire).getD []

/-! ## WellFormed -/

/-- The one check refuses a payload of `2^32` bytes and takes one of `2^32 - 1`. -/
theorem test_wf_refuses_a_payload_beyond_len :
    ¬ (Instr.bbPut (zeros (2 ^ 32))).wf ∧ (Instr.bbPut (zeros (2 ^ 32 - 1))).wf := by
  constructor <;> simp only [Instr.wf, Instr.payload, zeros, List.length_replicate] <;> omega

/-! ## Decode: one frame per command (R91, R93; spec/95_test_vectors.md 2.1) -/

theorem test_decode_sysReset : fetchFrame [0x01, 0, 0, 0, 0, 0, 0, 0] = .command .sysReset [] := by
  decide

theorem test_decode_sysStatus :
    fetchFrame [0x02, 0, 0, 0, 0, 0, 0, 0] = .command .sysStatus [] := by decide

theorem test_decode_bbOpen :
    fetchFrame [0x10, 0xFF, 0, 0, 0, 0, 0, 0] = .command (.bbOpen 255) [] := by decide

theorem test_decode_bbPut :
    fetchFrame [0x11, 0, 0, 0, 0, 0, 0, 3, 0x0A, 0x0B, 0x0C, 0x12] =
      .command (.bbPut [0x0A, 0x0B, 0x0C]) [0x12] := by decide

theorem test_decode_bbFlush :
    fetchFrame [0x12, 0, 0, 0, 0, 0, 0, 0] = .command .bbFlush [] := by decide

theorem test_decode_gcmInit :
    fetchFrame ([0x30, 1, 0x20, 0x0C, 0, 0, 0, 0x2C] ++ zeros 44) =
      .command (.gcmInit .decrypt 32 12 (zeros 44)) [] := by decide

theorem test_decode_gcmAad :
    fetchFrame [0x31, 0, 0, 0, 0, 0, 0, 1, 0xFE] = .command (.gcmAad [0xFE]) [] := by decide

theorem test_decode_gcmUpdate :
    fetchFrame [0x32, 0, 0, 0, 0, 0, 0, 2, 1, 2] = .command (.gcmUpdate [1, 2]) [] := by decide

theorem test_decode_gcmFinal :
    fetchFrame ([0x33, 0, 0, 0, 0, 0, 0, 0x10] ++ toyKey) = .command (.gcmFinal toyKey) [] := by
  decide

theorem test_decode_ccmInit :
    fetchFrame ([0x40, 0, 0x10, 8, 0, 0, 0, 0x1D] ++ zeros 29) =
      .command (.ccmInit .encrypt 16 8 (zeros 29)) [] := by decide

theorem test_decode_ccmAad :
    fetchFrame [0x41, 0, 0, 0, 0, 0, 0, 2, 0xAA, 0xBB] = .command (.ccmAad [0xAA, 0xBB]) [] := by
  decide

theorem test_decode_ccmUpdate :
    fetchFrame [0x42, 0, 0, 0, 0, 0, 0, 1, 8] = .command (.ccmUpdate [8]) [] := by decide

theorem test_decode_ccmFinal :
    fetchFrame [0x43, 0, 0, 0, 0, 0, 0, 0] = .command (.ccmFinal []) [] := by decide

theorem test_decode_macInit :
    fetchFrame ([0x50, 2, 0x10, 0x0C, 0, 0, 0, 0x10] ++ toyKey) =
      .command (.macInit .xcbc 16 12 toyKey) [] := by decide

theorem test_decode_macUpdate :
    fetchFrame [0x51, 0, 0, 0, 0, 0, 0, 1, 0x61] = .command (.macUpdate [0x61]) [] := by decide

theorem test_decode_macSign :
    fetchFrame [0x52, 0, 0, 0, 0, 0, 0, 0] = .command (.macSign []) [] := by decide

theorem test_decode_macVerify :
    fetchFrame [0x53, 0, 0, 0, 0, 0, 0, 1, 0xBB] = .command (.macVerify [0xBB]) [] := by decide

/-- `LEN` is big-endian: `00 00 01 00` is 256. -/
theorem test_decode_len_is_big_endian :
    takeHeader [0x11, 0, 0, 0, 0, 0, 1, 0] = some (⟨0x11, 0, 0, 0, 256⟩, []) := by decide

/-- The illegal headers of spec/95_test_vectors.md 2.1, payloads consumed. -/
theorem test_illegal_frames :
    fetchFrame [0, 0, 0, 0, 0, 0, 0, 0] = .illegal 0 .reservedOp [] ∧
    fetchFrame [0x03, 0, 0, 0, 0, 0, 0, 0] = .illegal 0x03 .reservedOp [] ∧
    fetchFrame [0x20, 0, 0, 0, 0, 0, 0, 0] = .illegal 0x20 .reservedUnit [] ∧
    fetchFrame [0x34, 0, 0, 0, 0, 0, 0, 0] = .illegal 0x34 .reservedOp [] ∧
    fetchFrame [0x60, 0, 0, 0, 0, 0, 0, 3, 0xAA, 0xBB, 0xCC, 2] = .illegal 0x60 .reservedUnit [2] ∧
    fetchFrame [0x30, 2, 16, 16, 0, 0, 0, 0] = .illegal 0x30 .mustBeZero [] ∧
    fetchFrame [0x50, 3, 16, 16, 0, 0, 0, 0] = .illegal 0x50 .macVariantThree [] ∧
    fetchFrame [0x50, 4, 16, 16, 0, 0, 0, 0] = .illegal 0x50 .mustBeZero [] ∧
    fetchFrame [0x31, 1, 0, 0, 0, 0, 0, 0] = .illegal 0x31 .mustBeZero [] ∧
    fetchFrame [0x12, 0, 0, 0, 0, 0, 0, 1, 7] = .illegal 0x12 .mustBeZero [] ∧
    fetchFrame [0x01, 0, 0, 1, 0, 0, 0, 0] = .illegal 0x01 .mustBeZero [] ∧
    fetchFrame [0x10, 4, 1, 0, 0, 0, 0, 0] = .illegal 0x10 .mustBeZero [] := by decide

/-- A table row's 64 bits as the header, and the first step after reset on it. -/
theorem test_table_word :
    decodeTableWord 64 0x1004000000000000 = some (.bbOpen 4) ∧
    decodeTableWord 72 (0xAB * 2 ^ 64 + 0x1100000000000001) = some (.bbPut [0xAB]) ∧
    lastWire (match step (State.reset.withFetchWord 64 0x1004000000000000) with
      | .next t => t | .fault _ => State.reset | .refused _ => State.reset) =
      [0, 0x10, 5, 0, 0, 0, 0, 0] := by
  refine ⟨by decide, by decide, by rfl⟩

/-! ## Primitives (spec/95_test_vectors.md 0, 2.3) -/

theorem test_toy_cipher :
    enc toyExt .b16 toyKey (beN 16 0x00112233445566778899AABBCCDDEEFF) =
      beN 16 0x102030405060708090A0B0C0D0E0F000 ∧
    dec toyExt .b16 toyKey (beN 16 0xFEFDFCFBFAF9F8F7F6F5F4F3F2F1F0FF) = rep 0xFF 16 := by decide +kernel

theorem test_dbl :
    dbl 0x87 .b16 (beN 16 0xFBEED618357133667C85E08F7236A8DE) =
      beN 16 0xF7DDAC306AE266CCF90BC11EE46D513B ∧
    dbl 0x87 .b16 (beN 16 0x80) = beN 16 0x100 ∧
    dbl 0x87 .b16 (rep 0xFF 16) = rep 0xFF 15 ++ [0x79] ∧
    dbl 0x1B .b8 (beN 8 0x8123456789ABCDEF) = beN 8 0x02468ACF13579BC5 ∧
    dbl 0x1D .b8 (beN 8 0x8000000000000000) = beN 8 0x1D := by decide +kernel

theorem test_invdbl :
    invdbl 0x87 .b16 (beN 16 0x7DF76B0C1AB899B33E42F047B91B546F) =
      beN 16 0xBEFBB5860D5C4CD99F217823DC8DAA74 ∧
    invdbl 0x1B .b8 (beN 8 0x0123456789ABCDEF) = beN 8 0x8091A2B3C4D5E6FA := by decide +kernel

theorem test_gfMul :
    gfMul (beN 16 0x0388DACE60B6A392F328C2B971B2FE78)
        (beN 16 0x66E94BD4EF8A2C3B884CFA59CA342B2E) =
      beN 16 0x5E2EC746917062882C85B0685353DEB7 ∧
    gfMul (beN 16 1) (beN 16 1) = [0xE6, 0x08] ++ zeros 13 ++ [0x03] := by decide +kernel

theorem test_incrW :
    incrW 4 (rep 0xAA 12 ++ rep 0xFF 4) = rep 0xAA 12 ++ zeros 4 ∧
    incrW 16 (rep 0xAA 12 ++ rep 0xFF 4) = rep 0xAA 11 ++ [0xAB] ++ zeros 4 ∧
    incrW 16 (rep 0xFF 16) = zeros 16 := by decide +kernel

theorem test_ccmAadPrefix :
    ccmAadPrefix 65279 = [0xFE, 0xFF] ∧ ccmAadPrefix 65280 = [0xFF, 0xFE, 0, 0, 0xFF, 0] ∧
    ccmAadPrefix (2 ^ 32) = [0xFF, 0xFF, 0, 0, 0, 1, 0, 0, 0, 0] := by decide

/-! ## SYS (spec/95_test_vectors.md 2.7) -/

/-- `BB0` open, GCM in `DATA`, CCM in `FAULT` with cause 2, MAC `READY`: row S-c's state. -/
def mixedState : State :=
  { State.reset with
    bb0 := { BbRegs.reset with phase := .ready, blen := 4 }
    gcm := { GcmRegs.reset with phase := .data }
    ccm := { CcmRegs.reset with phase := .fault, err := 2 }
    mac := { MacRegs.reset .b16 with phase := .ready } }

theorem test_sysStatus :
    statusBytes State.reset = zeros 8 ∧ statusBytes mixedState = [5, 0, 2, 0, 4, 2, 5, 0] := by decide

theorem test_sysReset : statusBytes (sysReset mixedState) = zeros 8 := by decide

/-! ## BB0 (spec/95_test_vectors.md 2.2) -/

/-- `BB0` open with block length 4 and a carry, and what the sink is going to answer. -/
def bbState (carry answers : Bytes) : State :=
  { State.reset with
    bb0 := { BbRegs.reset with phase := .ready, blen := 4, carry := carry }, sinkIn := answers }

/-- Vector B6. -/
theorem test_bbOpen_zero :
    (bbOpen 0 State.reset).bb0 = ⟨.fault, 1, 0, []⟩ ∧
    lastWire (bbOpen 4 (bbState [1] [])) = [0, 0x10, 5, 0, 0, 0, 0, 0] := by
  refine ⟨by decide, by rfl⟩

/-- Vector B2, third row. -/
theorem test_bbPut :
    (bbPut toyExt [0x0D, 0x0E, 0x0F, 0x10, 0x11] (bbState [0x0A, 0x0B, 0x0C] [])).sinkOut =
      [⟨⟨.write, [0x0A, 0x0B, 0x0C, 0x0D]⟩, 0⟩, ⟨⟨.write, [0x0E, 0x0F, 0x10, 0x11]⟩, 0⟩] := by decide

/-- Vector B8: the second event refused. -/
theorem test_bbPut_refused :
    let t := bbPut toyExt (beN 12 0x303132333435363738393A3B) (bbState [0x99] [0, 1])
    t.sinkOut = [⟨⟨.write, [0x99, 0x30, 0x31, 0x32]⟩, 0⟩, ⟨⟨.write, [0x33, 0x34, 0x35, 0x36]⟩, 1⟩] ∧
      t.bb0 = ⟨.fault, 4, 0, []⟩ := by decide

/-- Vector B2's flush, its wire form, and vector B9's refusal. -/
theorem test_bbFlush :
    (bbFlush toyExt (bbState [0x12, 0x13] [])).sinkOut.map (fun r => sinkWire r.event) =
      [[1, 2, 0x12, 0x13]] ∧
    (bbFlush toyExt (bbState [5] [0xFF])).bb0 = ⟨.fault, 4, 0, []⟩ := by decide

/-! ## GCM: program P5 of spec/95_test_vectors.md, one step each -/

/-- A GCM session under the toy key with the hash subkey of P5. -/
def gcmToy (d : Dir) (ph : Phase) (ctrLow : Byte) (x abuf dbuf hold : Bytes) (alen clen : BitVec 64) :
    State :=
  { State.reset with
    gcm :=
      { phase := ph, err := 0, dir := d, tlen := 16, kv := true, k := toyKey
        h := beN 16 0x0102030405060708090A0B0C0D0E0F00
        j0 := beN 16 0xA0A1A2A3A4A5A6A7A8A9AAAB00000001
        ctr := beN 15 0xA0A1A2A3A4A5A6A7A8A9AAAB000000 ++ [ctrLow]
        x := x, alen := alen, clen := clen, abuf := abuf, dbuf := dbuf, hold := hold } }

/-- P5 step 1 gives the session's start. -/
theorem test_gcmInit :
    (gcmInit toyExt .encrypt 16 16 (toyKey ++ beN 12 0xA0A1A2A3A4A5A6A7A8A9AAAB) State.reset).gcm =
      (gcmToy .encrypt .aad 2 (zeros 16) [] [] [] 0 0).gcm := by decide +kernel

/-- P5 step 2: five bytes of associated data are kept in the carry. -/
theorem test_gcmAad :
    (gcmAad (beN 5 0xF0F1F2F3F4) (gcmToy .encrypt .aad 2 (zeros 16) [] [] [] 0 0)).gcm =
      (gcmToy .encrypt .aad 2 (zeros 16) (beN 5 0xF0F1F2F3F4) [] [] 40 0).gcm := by decide +kernel

/-- P5 step 3 closes the associated data. -/
theorem test_gcmUpdate_closes_the_aad :
    (gcmUpdate toyExt (beN 10 0x00010203040506070809)
        (gcmToy .encrypt .aad 2 (zeros 16) (beN 5 0xF0F1F2F3F4) [] [] 40 0)).gcm =
      (gcmToy .encrypt .data 2 (beN 16 0x4996CBF439E442372E5CD590C6AB0D78) []
        (beN 10 0x00010203040506070809) [] 40 80).gcm := by decide +kernel

/-- P5 step 4: the first ciphertext block. -/
theorem test_gcmUpdate :
    let t := gcmUpdate toyExt (beN 9 0x0A0B0C0D0E0F101112)
      (gcmToy .encrypt .data 2 (beN 16 0x4996CBF439E442372E5CD590C6AB0D78) []
        (beN 10 0x00010203040506070809) [] 40 80)
    t.gcm = (gcmToy .encrypt .data 3 (beN 16 0x0F47ECD7B3AF7FA9392A797E25580744) []
        [0x10, 0x11, 0x12] [] 40 152).gcm ∧
      t.respOut = [⟨.ok, 0x32, 2, beN 16 0xA0A1A2A3A4A5A6A7A8A9AA07010303AF⟩] := by decide +kernel

/-- P5 step 5: the last piece and the tag. -/
theorem test_gcmFinal_encrypt :
    (gcmFinal toyExt [] (gcmToy .encrypt .data 3 (beN 16 0x0F47ECD7B3AF7FA9392A797E25580744) []
        [0x10, 0x11, 0x12] [] 40 152)).respOut =
      [⟨.ok, 0x33, 3, beN 19 0xB0B1B2CE794900226CAEDA4329E960F7FDDA62⟩] := by decide +kernel

/-- P5's decryption, last step: the held plaintext is released. -/
theorem test_gcmFinal_decrypt :
    (gcmFinal toyExt (beN 16 0xCE794900226CAEDA4329E960F7FDDA62)
        (gcmToy .decrypt .data 3 (beN 16 0x0F47ECD7B3AF7FA9392A797E25580744) []
          [0xB0, 0xB1, 0xB2] toyKey 40 152)).respOut =
      [⟨.ok, 0x33, 3, toyKey ++ [0x10, 0x11, 0x12]⟩] := by decide +kernel

/-! ## CCM: the hand-checkable session of spec/95_test_vectors.md 2.5 -/

/-- A CCM session under the toy key with the nonce of 2.5 and tag length 4. -/
def ccmToy (d : Dir) (ph : Phase) (a m : Bytes) : State :=
  { State.reset with
    ccm := { CcmRegs.reset with
      phase := ph, dir := d, tlen := 4, nlen := 13, kv := true, k := toyKey
      n := beN 13 0x101112131415161718191A1B1C, astore := a, mstore := m } }

theorem test_ccmInit :
    (ccmInit .encrypt 16 4 (toyKey ++ beN 13 0x101112131415161718191A1B1C) State.reset).ccm =
      (ccmToy .encrypt .aad [] []).ccm := by decide +kernel

theorem test_ccmAad :
    (ccmAad [0xBB] (ccmToy .encrypt .aad [0xAA] [])).ccm = (ccmToy .encrypt .aad [0xAA, 0xBB] []).ccm := by
  decide

theorem test_ccmUpdate :
    (ccmUpdate [4, 5] (ccmToy .encrypt .aad [] [1, 2, 3])).ccm =
      (ccmToy .encrypt .data [] [1, 2, 3, 4, 5]).ccm := by decide

theorem test_ccmFinal_encrypt :
    (ccmFinal toyExt [] (ccmToy .encrypt .data [0xAA, 0xBB] [1, 2, 3, 4, 5])).respOut =
      [⟨.ok, 0x43, 3, beN 9 0x1011121314ABBD0300⟩] := by decide +kernel

theorem test_ccmFinal_decrypt :
    (ccmFinal toyExt [0xAB, 0xBD, 0x03, 0x00]
        (ccmToy .decrypt .data [0xAA, 0xBB] [0x10, 0x11, 0x12, 0x13, 0x14])).respOut =
      [⟨.ok, 0x43, 3, [1, 2, 3, 4, 5]⟩] := by decide +kernel

/-! ## MAC: the toy vectors of spec/95_test_vectors.md 2.6 -/

/-- The AES setting with 8-byte blocks and the toy key lengths: `TOY8`'s parameters. -/
def toy8Params : Params := { Params.specDefault with blockLen := .b8, keyLens := [8] }

/-- A CMAC session under `TOY8` with the key `00..07` and tag length 8. -/
def macToy (x buf held : Bytes) (heldv : Bool) : State :=
  { State.reset with
    par := toy8Params
    mac :=
      { phase := .ready, err := 0, var := .cmac, tlen := 8, kv := true, k := beN 8 0x0001020304050607
        kc := beN 8 0x0001020304050607, l := beN 8 0x0102030405060700
        k1 := beN 8 0x020406080A0C0E00, k2 := beN 8 0x04080C1014181C00, k3 := zeros 8
        x := x, buf := buf, held := held, heldv := heldv } }

/-- The subkeys of 2.6; and under another value of the parameter `RB(8)` the key whose `L` is `80 00*7`
has that byte as `K1`. -/
theorem test_macInit_cmac :
    (macInit toyExt .cmac 8 8 (beN 8 0x0001020304050607) { State.reset with par := toy8Params }).mac =
      (macToy (zeros 8) [] (zeros 8) false).mac ∧
    (macInit toyExt .cmac 8 8 (beN 8 0x0080000000000000)
      { State.reset with par := { toy8Params with rb8 := 0x1D } }).mac.k1 = beN 8 0x1D := by
  decide +kernel

theorem test_macInit_xcbc :
    let m := (macInit toyExt .xcbc 8 4 (beN 8 0x0001020304050607)
      { State.reset with par := toy8Params }).mac
    m.kc = beN 8 0x0003020504070601 ∧ m.k1 = m.kc ∧ m.k2 = beN 8 0x0300010607040502 ∧
      m.k3 = beN 8 0x0201000706050403 ∧ m.l = zeros 8 := by decide +kernel

/-- The 9-byte message: the held block is chained when its successor's bytes end the message. -/
theorem test_macSign :
    (macSign toyExt (beN 9 0x101112131415161718) (macToy (zeros 8) [] (zeros 8) false)).respOut =
      [⟨.ok, 0x52, 5, beN 8 0x991E03000D0A170C⟩] := by decide +kernel

/-- `10..17`, `18`, then `19..1f`: the state after the third MAC.UPDATE. -/
theorem test_macUpdate :
    (macUpdate toyExt (beN 7 0x191A1B1C1D1E1F)
        (macToy (zeros 8) [0x18] (beN 8 0x1011121314151617) true)).mac =
      (macToy (rep 0x10 8) [] (beN 8 0x18191A1B1C1D1E1F) true).mac := by decide +kernel

/-- The empty message's tag verifies; its first seven bytes do not, and the unit stays `READY`. -/
theorem test_macVerify :
    (macVerify toyExt (beN 8 0x090E13101D1A0784) (macToy (zeros 8) [] (zeros 8) false)).respOut =
      [⟨.ok, 0x53, 5, []⟩] ∧
    (macVerify toyExt (beN 7 0x090E13101D1A07) (macToy (zeros 8) [] (zeros 8) false)).respOut =
      [⟨.authenticationFailure, 0x53, 5, []⟩] := by decide +kernel

/-- A full last block under XCBC takes `K2` and a padded one `K3` (spec/90_conflicts.md C1): tags of
`10..17` and of the empty message. -/
theorem test_macSign_xcbc :
    let s := macInit toyExt .xcbc 8 4 (beN 8 0x0001020304050607)
      { State.reset with par := toy8Params }
    (macSign toyExt (beN 8 0x1011121314151617) s).respOut.getLast? =
      some ⟨.ok, 0x52, 5, [0x12, 0x11, 0x10, 0x17]⟩ ∧
    (macSign toyExt [] s).respOut.getLast? = some ⟨.ok, 0x52, 5, [2, 2, 2, 2]⟩ := by decide +kernel

/-! ## The assembler (R101, R102) -/

theorem test_assemble :
    assemble .b16 "BB.OPEN bl=4".toList = some [.bbOpen 4] ∧
    assemble .b16 "GCM.FINAL".toList = some [.gcmFinal []] ∧
    assemble .b16 "MAC.INIT key=0aFF var=xcbc".toList = some [.macInit .xcbc 2 16 [0x0A, 0xFF]] ∧
    assemble .b16 "CCM.INIT dir=dec key=00 nonce=-".toList = some [.ccmInit .decrypt 1 8 [0]] ∧
    assemble .b16 "BB.PUT 0".toList = none ∧ assemble .b16 "BB.PUT =0a".toList = none := by decide +kernel

theorem test_assemble_pseudo :
    assemble .b16 "GMAC key=01 iv=02 aad=-".toList =
      some [.gcmInit .encrypt 1 16 [1, 2], .gcmAad [], .gcmUpdate [], .gcmFinal []] ∧
    assemble .b16 "BB.CLOSE".toList = some [.bbFlush] := by decide +kernel

/-! ## Witnesses: a state and operands that meet a statement's hypotheses together -/

/-! ### States in every phase -/

/-- A legal GCM session with 5 bytes of associated data open (`AAD`), or 19 bytes of data in
(`DATA`), 16 of them held when decrypting. -/
def gcmState (d : Dir) (ph : Phase) : State :=
  { State.reset with
    gcm :=
      { phase := ph, err := 0, dir := d, tlen := 16, kv := true, k := toyKey
        h := enc Config.ext .b16 toyKey (zeros 16), j0 := zeros 15 ++ [1], ctr := zeros 15 ++ [2]
        x := zeros 16, alen := 40, clen := if ph = .data then 152 else 0
        abuf := if ph = .data then [] else [1, 2, 3, 4, 5]
        dbuf := if ph = .data then [7, 8, 9] else []
        hold := if ph = .data ∧ d = .decrypt then toyKey else [] } }

/-- A legal CCM session with a 13-byte nonce. -/
def ccmState (d : Dir) (ph : Phase) : State :=
  ccmToy d ph [0xAA] (if ph = .data then [1, 2, 3] else [])

/-- A legal MAC session of the default setting, under `XCBC`, with a held block and a carry. -/
def macState : State :=
  { State.reset with
    mac :=
      { phase := .ready, err := 0, var := .xcbc, tlen := 16, kv := true, k := toyKey
        kc := enc Config.ext .b16 toyKey (rep 1 16), l := zeros 16
        k1 := enc Config.ext .b16 toyKey (rep 1 16), k2 := enc Config.ext .b16 toyKey (rep 2 16)
        k3 := enc Config.ext .b16 toyKey (rep 3 16), x := zeros 16, buf := [1, 2], held := toyKey
        heldv := true } }

/-- A MAC session ready for a fresh message. -/
def macFresh : State :=
  { macState with mac := { macState.mac with buf := [], held := zeros 16, heldv := false } }

/-- Every unit in `FAULT`, each with a cause of its own. -/
def faultState : State :=
  { State.reset with
    bb0 := { BbRegs.reset with phase := .fault, err := 4 }
    gcm := { GcmRegs.reset with phase := .fault, err := 3 }
    ccm := { CcmRegs.reset with phase := .fault, err := 2 }
    mac := { MacRegs.reset .b16 with phase := .fault, err := 1 } }

/-- Both AEAD units `DONE`. -/
def doneState : State :=
  { State.reset with
    gcm := { GcmRegs.reset with phase := .done }, ccm := { CcmRegs.reset with phase := .done } }

theorem reset_params_legal : paramsLegal Params.specDefault := by
  simp [paramsLegal, Params.specDefault]

/-- Legal states: reset, an open buffer, the sessions, the faults, `DONE`
(EveryStepKeepsTheStateLegal, FaultIsSticky). -/
theorem witness_legal_states :
    Inv State.reset ∧ Inv (bbState [1, 2, 3] []) ∧ Inv macState ∧ Inv macFresh ∧ Inv faultState ∧
      Inv doneState := by
  refine ⟨⟨reset_params_legal, ?_⟩, ⟨reset_params_legal, ?_⟩, ⟨reset_params_legal, ?_⟩,
    ⟨reset_params_legal, ?_⟩, ⟨reset_params_legal, ?_⟩, ⟨reset_params_legal, ?_⟩⟩ <;>
  simp [State.reset, bbState, macState, macFresh, faultState, doneState, bbLegal, gcmLegal,
    ccmLegal, macLegal, macSubkeysDerived, BbRegs.reset, GcmRegs.reset, CcmRegs.reset,
    MacRegs.reset, Params.specDefault, toyKey, zeros, beN]

theorem witness_legal_aead_sessions :
    Inv (gcmState .encrypt .aad) ∧ Inv (gcmState .decrypt .data) ∧ Inv (ccmState .encrypt .aad) ∧
      Inv (ccmState .decrypt .data) := by
  refine ⟨⟨reset_params_legal, ?_⟩, ⟨reset_params_legal, ?_⟩, ⟨reset_params_legal, ?_⟩,
    ⟨reset_params_legal, ?_⟩⟩ <;>
  simp [gcmState, ccmState, ccmToy, State.reset, bbLegal, gcmLegal, gcmSession, ccmLegal,
    ccmSession, macLegal, BbRegs.reset, GcmRegs.reset, CcmRegs.reset, MacRegs.reset,
    Params.specDefault, toyKey, zeros, beN]

/-! ### Encoding and the step -/

/-- A state with the given bytes on the command port. -/
def withPort (b : Bytes) (s : State) : State := { s with cmdIn := b }

/-- DecodeOfEncodeGivesTheCommand: well formed up to the last payload length. -/
theorem witness_wf :
    (Instr.gcmInit .decrypt 0xFF 0 (zeros (2 ^ 32 - 1))).wf ∧ Instr.sysReset.wf := by
  constructor <;> simp only [Instr.wf, Instr.payload, zeros, List.length_replicate, List.length_nil] <;>
    omega

/-- EncodeOfDecodedFrameGivesTheFrame, StepRunsTheDecodedCommand. -/
theorem witness_decoded_frame :
    fetchFrame (withPort [0x50, 2, 1, 4, 0, 0, 0, 1, 9, 0x02] macState).cmdIn =
      .command (.macInit .xcbc 1 4 [9]) [0x02] := by decide

/-- DecoderFollowsTheOpcodeMap: a decoded header, a refused one, and a header that selects a row. -/
theorem witness_opcode_map :
    decodeCommand ⟨0x50, 2, 0xFF, 0, (1 : BitVec 32).toNat⟩ [9] = .ok (.macInit .xcbc 0xFF 0 [9]) ∧
    decodeCommand ⟨0x50, 3, 0xFF, 0, (1 : BitVec 32).toNat⟩ [9] = .error .macVariantThree ∧
    (∃ r ∈ opcodeRows,
      r.selects ((0x50 : Byte) ++ (2 : Byte) ++ (0xFF : Byte) ++ (0 : Byte) ++ (1 : BitVec 32))) := by
  refine ⟨by decide, by decide, ⟨"MAC.INIT", 0x5000000000000000, 0xFFFC000000000000⟩, by decide, ?_⟩
  unfold OpcodeRow.selects
  decide

/-- StepWaitsForAWholeFrame: 7 bytes, and a header whose one payload byte is missing. -/
theorem witness_wait :
    (withPort [1, 0, 0, 0, 0, 0, 0] State.reset).cmdIn.length < 8 ∧
    takeHeader (withPort [0x11, 0, 0, 0, 0, 0, 0, 1] State.reset).cmdIn =
      some (⟨0x11, 0, 0, 0, 1⟩, []) ∧ ([] : Bytes).length < 1 := by decide

/-- IllegalFrameIsAnsweredAndChangesNoUnit: every case of R98 at its boundary. -/
theorem witness_illegal_headers :
    illegalHeader ⟨0x20, 0, 0, 0, 0⟩ ∧ illegalHeader ⟨0x2F, 0, 0, 0, 0⟩ ∧
    illegalHeader ⟨0x60, 0, 0, 0, 3⟩ ∧ illegalHeader ⟨0xFF, 0, 0, 0, 0⟩ ∧
    illegalHeader ⟨0x00, 0, 0, 0, 0⟩ ∧ illegalHeader ⟨0x03, 0, 0, 0, 0⟩ ∧
    illegalHeader ⟨0x13, 0, 0, 0, 0⟩ ∧ illegalHeader ⟨0x34, 0, 0, 0, 0⟩ ∧
    illegalHeader ⟨0x44, 0, 0, 0, 2⟩ ∧ illegalHeader ⟨0x54, 0, 0, 0, 0⟩ ∧
    illegalHeader ⟨0x01, 0, 0, 1, 0⟩ ∧ illegalHeader ⟨0x12, 0, 0, 0, 1⟩ ∧
    illegalHeader ⟨0x10, 4, 1, 0, 0⟩ ∧ illegalHeader ⟨0x10, 0, 0, 0, 1⟩ ∧
    illegalHeader ⟨0x31, 1, 0, 0, 0⟩ ∧ illegalHeader ⟨0x30, 2, 16, 16, 0⟩ ∧
    illegalHeader ⟨0x50, 3, 16, 16, 0⟩ ∧ illegalHeader ⟨0x50, 4, 16, 16, 0⟩ := by
  refine ⟨?_, ?_, ?_, ?_, ?_, ?_, ?_, ?_, ?_, ?_, ?_, ?_, ?_, ?_, ?_, ?_, ?_, ?_⟩ <;>
    (unfold illegalHeader; decide)

/-- IllegalFrameIsAnsweredAndChangesNoUnit, EveryFrameGetsOneResponse: whole frames on the port, an
illegal one and one of each unit. -/
theorem witness_whole_frames :
    takeHeader (withPort [0x44, 0, 0, 0, 0, 0, 0, 2, 0xBE, 0xEF, 7] State.reset).cmdIn =
      some (⟨0x44, 0, 0, 0, 2⟩, [0xBE, 0xEF] ++ [7]) ∧
    takeHeader (withPort [0x02, 0, 0, 0, 0, 0, 0, 0] State.reset).cmdIn =
      some (⟨0x02, 0, 0, 0, 0⟩, [] ++ []) ∧ Header.unit ⟨0x02, 0, 0, 0, 0⟩ = 0 ∧
    takeHeader (withPort [0x10, 4, 0, 0, 0, 0, 0, 0] State.reset).cmdIn =
      some (⟨0x10, 4, 0, 0, 0⟩, [] ++ []) ∧ Header.unit ⟨0x10, 4, 0, 0, 0⟩ = 1 ∧
    takeHeader (withPort [0x33, 0, 0, 0, 0, 0, 0, 0] State.reset).cmdIn =
      some (⟨0x33, 0, 0, 0, 0⟩, [] ++ []) ∧ Header.unit ⟨0x33, 0, 0, 0, 0⟩ = 3 ∧
    takeHeader (withPort [0x41, 0, 0, 0, 0, 0, 0, 1, 5] State.reset).cmdIn =
      some (⟨0x41, 0, 0, 0, 1⟩, [5] ++ []) ∧ Header.unit ⟨0x41, 0, 0, 0, 1⟩ = 4 ∧
    takeHeader (withPort [0x52, 0, 0, 0, 0, 0, 0, 0] State.reset).cmdIn =
      some (⟨0x52, 0, 0, 0, 0⟩, [] ++ []) ∧ Header.unit ⟨0x52, 0, 0, 0, 0⟩ = 5 := by decide

/-- StepNeverChangesTheParameters, EveryStepKeepsTheStateLegal: a step from a legal state. -/
theorem witness_step_from_a_legal_state :
    Inv (withPort [0x12, 0, 0, 0, 0, 0, 0, 0] faultState) ∧
    ∃ t, step (withPort [0x12, 0, 0, 0, 0, 0, 0, 0] faultState) = .next t :=
  ⟨witness_legal_states.2.2.2.2.1, _, rfl⟩

/-! ### Errors, phases, isolation -/

/-- FaultIsSticky: one command of each unit, in a legal state. -/
theorem witness_fault_is_sticky :
    (unitOf .bbFlush = some .bb0 ∧ isInit .bbFlush = false ∧ phaseOf .bb0 faultState = .fault) ∧
    (unitOf (.gcmFinal []) = some .gcm ∧ isInit (.gcmFinal []) = false ∧
      phaseOf .gcm faultState = .fault) ∧
    (unitOf (.ccmAad [1]) = some .ccm ∧ isInit (.ccmAad [1]) = false ∧
      phaseOf .ccm faultState = .fault) ∧
    (unitOf (.macVerify []) = some .mac ∧ isInit (.macVerify []) = false ∧
      phaseOf .mac faultState = .fault) := by decide

/-- OutOfOrderCommandFaultsTheUnit: one command of each unit, from `IDLE`, `DATA` and `DONE`, and one
from `FAULT`. -/
theorem witness_out_of_order :
    (unitOf .bbFlush = some .bb0 ∧ acceptedIn .bbFlush (phaseOf .bb0 faultState) = false ∧
      phaseOf .bb0 faultState = .fault) ∧
    (unitOf (.bbPut [1]) = some .bb0 ∧ acceptedIn (.bbPut [1]) (phaseOf .bb0 State.reset) = false ∧
      phaseOf .bb0 State.reset ≠ .fault) ∧
    (unitOf (.gcmAad [1]) = some .gcm ∧
      acceptedIn (.gcmAad [1]) (phaseOf .gcm (gcmState .encrypt .data)) = false ∧
      phaseOf .gcm (gcmState .encrypt .data) ≠ .fault) ∧
    (unitOf (.ccmFinal []) = some .ccm ∧
      acceptedIn (.ccmFinal []) (phaseOf .ccm doneState) = false ∧ phaseOf .ccm doneState ≠ .fault) ∧
    (unitOf (.macSign []) = some .mac ∧ acceptedIn (.macSign []) (phaseOf .mac State.reset) = false ∧
      phaseOf .mac State.reset ≠ .fault) := by decide

/-- The status of the last response after a command. -/
def statusAfter (i : Instr) (s : State) : Option Status :=
  match exec i s with
  | .next t => t.respOut.getLast?.map Response.status
  | .fault _ => none
  | .refused _ => none

/-- PhaseTransitionsFollowTheTable: not accepted; accepted and OK; accepted and not OK; MAC.VERIFY
accepted and not OK. -/
theorem witness_phase_transitions :
    acceptedIn .bbFlush (phaseOf .bb0 State.reset) = false ∧
    (acceptedIn (.bbOpen 1) (phaseOf .bb0 faultState) = true ∧
      statusAfter (.bbOpen 1) faultState = some .ok) ∧
    (acceptedIn (.gcmFinal [1]) (phaseOf .gcm (gcmState .encrypt .aad)) = true ∧
      statusAfter (.gcmFinal [1]) (gcmState .encrypt .aad) = some .invalidParameterLength) ∧
    (acceptedIn (.macVerify []) (phaseOf .mac macFresh) = true ∧
      statusAfter (.macVerify []) macFresh = some .authenticationFailure) := by
  refine ⟨by decide, ⟨by decide, by rfl⟩, ⟨by decide, by rfl⟩, ⟨by decide, by rfl⟩⟩

/-- CommandsLeaveOtherUnitsAlone: a command of a unit that is not `BB0`, and its next state. -/
theorem witness_leaves_others :
    unitOf (.macUpdate [1]) = some .mac ∧ (UnitId.mac ≠ .bb0) ∧
    ∃ t, exec (.macUpdate [1]) mixedState = .next t := ⟨rfl, by decide, _, rfl⟩

/-- CommandsReadOnlyTheirUnit: states that differ everywhere but in the addressed unit. -/
theorem witness_reads_only :
    (unitOf (.gcmAad [1]) = some .gcm ∧ State.reset.par = doneState.par ∧
      sameUnit .gcm (gcmState .encrypt .aad)
        { faultState with gcm := (gcmState .encrypt .aad).gcm, sinkIn := [1] }) ∧
    (sameUnit .bb0 (bbState [1] [0]) { faultState with bb0 := (bbState [1] [0]).bb0, sinkIn := [0] } ∧
      (bbState [1] [0]).sinkIn = [0] ∧ (bbState [1] [0]).sinkOut = faultState.sinkOut) :=
  ⟨⟨rfl, rfl, rfl⟩, rfl, rfl, rfl⟩

/-- LengthErrorsHaveExactlyTheListedCauses: the causes at the edges of their ranges, in a phase that
accepts the command. -/
theorem witness_length_causes :
    lengthCause (.bbOpen 0) State.reset ∧ ¬ lengthCause (.bbOpen 1) State.reset ∧
    lengthCause (.gcmInit .encrypt 16 16 (zeros 15)) State.reset ∧
    lengthCause (.gcmInit .encrypt 16 16 (zeros 16)) State.reset ∧
    ¬ lengthCause (.gcmInit .encrypt 16 16 (zeros 17)) State.reset ∧
    lengthCause (.gcmInit .encrypt 16 5 (zeros 28)) State.reset ∧
    lengthCause (.ccmInit .encrypt 16 8 (zeros 22)) State.reset ∧
    ¬ lengthCause (.ccmInit .encrypt 16 4 (zeros 23)) State.reset ∧
    ¬ lengthCause (.ccmInit .encrypt 16 16 (zeros 29)) State.reset ∧
    lengthCause (.ccmInit .encrypt 16 8 (zeros 30)) State.reset ∧
    lengthCause (.ccmInit .encrypt 16 2 (zeros 29)) State.reset ∧
    lengthCause (.ccmInit .encrypt 16 7 (zeros 29)) State.reset ∧
    lengthCause (.ccmInit .encrypt 16 18 (zeros 29)) State.reset ∧
    lengthCause (.macInit .cmac 15 16 (zeros 16)) State.reset ∧
    lengthCause (.macInit .cmac 15 16 (zeros 15)) State.reset ∧
    lengthCause (.macInit .cmac 16 0 (zeros 16)) State.reset ∧
    ¬ lengthCause (.macInit .xcbc 16 16 (zeros 16)) State.reset ∧
    lengthCause (.macInit .cmac 16 17 (zeros 16)) State.reset ∧
    lengthCause (.gcmFinal [0]) (gcmState .encrypt .data) ∧
    lengthCause (.ccmFinal [0]) (ccmState .encrypt .aad) ∧
    ¬ lengthCause (.ccmFinal [0]) (ccmState .decrypt .aad) := by
  refine ⟨?_, ?_, ?_, ?_, ?_, ?_, ?_, ?_, ?_, ?_, ?_, ?_, ?_, ?_, ?_, ?_, ?_, ?_, ?_, ?_, ?_⟩ <;>
    (simp only [lengthCause]; try decide)

/-- A GCM session whose associated data has used `n` bits, or its data. -/
def gcmCounted (ph : Phase) (n : BitVec 64) : State :=
  { gcmState .encrypt ph with gcm := { (gcmState .encrypt ph).gcm with alen := n, clen := n } }

/-- A CCM session that stores `na` and `nm` bytes. -/
def ccmCounted (na nm : Nat) : State := ccmToy .encrypt .aad (zeros na) (zeros nm)

theorem ccmCounted_fields (na nm : Nat) :
    (ccmCounted na nm).ccm.astore.length = na ∧ (ccmCounted na nm).ccm.mstore.length = nm ∧
      (ccmCounted na nm).ccm.nlen.toNat = 13 ∧ (ccmCounted na nm).ccm.phase = .aad :=
  ⟨List.length_replicate, List.length_replicate, rfl, rfl⟩

/-- TooLongMessagesAreRefusedOnArrival (and GcmAadEntersTheAccumulator, GcmUpdateEncrypts): the two
counters at their limits; one byte more is a cause. -/
theorem witness_gcm_limits :
    tooLongCause (.gcmAad [1]) (gcmCounted .aad 0xFFFFFFFFFFFFFFF8) ∧
    ¬ tooLongCause (.gcmAad [1]) (gcmCounted .aad 0xFFFFFFFFFFFFFFF0) ∧
    tooLongCause (.gcmUpdate [1]) (gcmCounted .data 0xFFFFFFFFFFFFFFF8) ∧
    ¬ tooLongCause (.gcmUpdate []) (gcmCounted .data 0xFFFFFFFFFFFFFFF8) ∧
    acceptedIn (.gcmAad [1]) (phaseOf .gcm (gcmCounted .aad 0)) = true ∧
    acceptedIn (.gcmUpdate [1]) (phaseOf .gcm (gcmCounted .data 0)) = true := by
  simp only [tooLongCause]
  decide +kernel

/-- TooLongMessagesAreRefusedOnArrival (and CcmAadStores, CcmUpdateStores): the stores at their
limits, `2^64` and, for a 13-byte nonce, `2^16`. -/
theorem witness_ccm_limits :
    tooLongCause (.ccmAad [1]) (ccmCounted (2 ^ 64 - 1) 0) ∧
    ¬ tooLongCause (.ccmAad [1]) (ccmCounted (2 ^ 64 - 2) 0) ∧
    tooLongCause (.ccmUpdate [1]) (ccmCounted 0 65535) ∧
    ¬ tooLongCause (.ccmUpdate [1]) (ccmCounted 0 65534) ∧
    acceptedIn (.ccmAad [1]) (phaseOf .ccm (ccmCounted 1 0)) = true ∧
    acceptedIn (.ccmUpdate [1]) (phaseOf .ccm (ccmCounted 1 0)) = true := by
  have h1 := (ccmCounted_fields (2 ^ 64 - 1) 0).1
  have h2 := (ccmCounted_fields (2 ^ 64 - 2) 0).1
  have h3 := (ccmCounted_fields 0 65535).2.1
  have h4 := (ccmCounted_fields 0 65534).2.1
  have h5 := (ccmCounted_fields 0 65535).2.2.1
  have h6 := (ccmCounted_fields 0 65534).2.2.1
  refine ⟨?_, ?_, ?_, ?_, rfl, rfl⟩ <;> simp only [tooLongCause] <;> rw [List.length_singleton]
  · rw [h1]
    omega
  · rw [h2]
    omega
  · rw [h3, h5]
    omega
  · rw [h4, h6]
    omega

/-! ### BB0 and the buffer -/

/-- BbOpenOpensAnEmptyBuffer: both ends of the range. -/
theorem witness_bbOpen : (1 : Byte) ≠ 0 ∧ (255 : Byte) ≠ 0 := by decide

/-- BbPutForwardsEveryFullBlock: no full block, and two that the sink acknowledges. -/
theorem witness_bbPut :
    ((bbState [1] []).bb0.phase = .ready ∧ 4 = (bbState [1] []).bb0.blen.toNat ∧ 0 < 4 ∧
      0 = ((bbState [1] []).bb0.carry ++ [2, 3]).length / 4) ∧
    ((bbState [1] [0, 0]).bb0.phase = .ready ∧
      2 = ((bbState [1] [0, 0]).bb0.carry ++ [2, 3, 4, 5, 6, 7, 8]).length / 4 ∧
      ∀ j < 2, sinkAnswerAt Config.ext (bbState [1] [0, 0]) j
        ⟨.write, slice ((bbState [1] [0, 0]).bb0.carry ++ [2, 3, 4, 5, 6, 7, 8]) (j * 4) ((j + 1) * 4)⟩
          = 0) := by
  refine ⟨by decide, by decide, by decide, fun j hj => ?_⟩
  match j, hj with
  | 0, _ => rfl
  | 1, _ => rfl

/-- BbPutStopsAtTheFirstRefusal: the first of two events refused, and the last. -/
theorem witness_bbPut_refused :
    ((bbState [1] [9]).bb0.phase = .ready ∧
      0 < ((bbState [1] [9]).bb0.carry ++ [2, 3, 4, 5, 6, 7, 8]).length / 4 ∧
      sinkAnswerAt Config.ext (bbState [1] [9]) 0 ⟨.write, [1, 2, 3, 4]⟩ = 9 ∧ (9 : Byte) ≠ 0) ∧
    (1 < ((bbState [1] [0, 255]).bb0.carry ++ [2, 3, 4, 5, 6, 7, 8]).length / 4 ∧
      sinkAnswerAt Config.ext (bbState [1] [0, 255]) 0 ⟨.write, [1, 2, 3, 4]⟩ = 0 ∧
      sinkAnswerAt Config.ext (bbState [1] [0, 255]) 1 ⟨.write, [5, 6, 7, 8]⟩ = 255 ∧
      (255 : Byte) ≠ 0) :=
  ⟨⟨rfl, by decide, rfl, by decide⟩, by decide, rfl, rfl, by decide⟩

/-- BbFlushEmitsTheRemainder, with an empty carry and with one; BbFlushRefusedFaults. -/
theorem witness_bbFlush :
    ((bbState [] [0]).bb0.phase = .ready ∧
      sinkAnswerAt Config.ext (bbState [] [0]) 0 ⟨.flush, (bbState [] [0]).bb0.carry⟩ = 0) ∧
    ((bbState [1] [0]).bb0.phase = .ready ∧
      sinkAnswerAt Config.ext (bbState [1] [0]) 0 ⟨.flush, (bbState [1] [0]).bb0.carry⟩ = 0) ∧
    ((bbState [1] [1]).bb0.phase = .ready ∧
      sinkAnswerAt Config.ext (bbState [1] [1]) 0 ⟨.flush, (bbState [1] [1]).bb0.carry⟩ = 1 ∧
      (1 : Byte) ≠ 0) :=
  ⟨⟨rfl, rfl⟩, ⟨rfl, rfl⟩, rfl, rfl, by decide⟩

/-- BufferCallsDoNotDependOnTheCutting, BbStreamEmitsTheWholeSequence: nine bytes in three pieces, and
no bytes at all, where the flush is the only event. -/
theorem witness_stream :
    (0 < 4 ∧ [[1, 2], [], [3, 4, 5, 6, 7, 8, 9]].flatten = ([1, 2, 3, 4, 5, 6, 7, 8, 9] : Bytes) ∧
      (bbState [] [0, 0, 0]).bb0.phase = .ready ∧ (bbState [] [0, 0, 0]).bb0.carry = [] ∧
      4 = (bbState [] [0, 0, 0]).bb0.blen.toNat ∧
      2 = ([1, 2, 3, 4, 5, 6, 7, 8, 9] : Bytes).length / 4) ∧
    (∀ j < 2, sinkAnswerAt Config.ext (bbState [] [0, 0, 0]) j
      ⟨.write, slice [1, 2, 3, 4, 5, 6, 7, 8, 9] (j * 4) ((j + 1) * 4)⟩ = 0) ∧
    sinkAnswerAt Config.ext (bbState [] [0, 0, 0]) 2
      ⟨.flush, ([1, 2, 3, 4, 5, 6, 7, 8, 9] : Bytes).drop (2 * 4)⟩ = 0 ∧
    ((([] : List Bytes).flatten = [] ∧ 0 = ([] : Bytes).length / 4) ∧
      sinkAnswerAt Config.ext (bbState [] [0]) 0 ⟨.flush, ([] : Bytes).drop (0 * 4)⟩ = 0) := by
  refine ⟨by decide, fun j hj => ?_, rfl, by decide, rfl⟩
  match j, hj with
  | 0, _ => rfl
  | 1, _ => rfl

/-! ### Primitives -/

/-- CtrStepDecryptsWhatItEncrypts, CounterIncrementWraps, CbcDecryptInvertsEncrypt,
DoublingAndInverseDoublingCancel, FieldMultiplyLaws: blocks of both lengths, a counter of its own
width, an empty piece, and the smallest and the largest odd reduction byte. -/
theorem witness_primitives :
    ([] : Bytes).length ≤ BlockLen.b8.bytes ∧ toyKey.length ≤ BlockLen.b16.bytes ∧
    16 ≤ toyKey.length ∧ 4 ≤ toyKey.length ∧ toyKey.length = BlockLen.b16.bytes ∧
    (zeros 8).length = BlockLen.b8.bytes ∧ toyKey.length = 16 ∧
    (1 : Byte).toNat % 2 = 1 ∧ (0xFF : Byte).toNat % 2 = 1 := by decide

/-- CounterWidthUnseenWithoutWrap: two steps up to the last value. -/
theorem witness_no_wrap :
    (zeros 12 ++ [0xFF, 0xFF, 0xFF, 0xFD]).length = 16 ∧
    intBe ((zeros 12 ++ [0xFF, 0xFF, 0xFF, 0xFD]).drop 12) + 2 ≤ 2 ^ 32 - 1 := by decide +kernel

/-! ### GCM -/

/-- GcmInitOpensASession (and the GCM sessions): a 12-byte IV, a 1-byte IV that is derived, and the
smallest and largest tag. -/
theorem witness_gcmInit :
    State.reset.par.blockLen = .b16 ∧ (16 : Byte).toNat = toyKey.length ∧
    (16 : Byte).toNat ∈ State.reset.par.keyLens ∧
    (zeros 12 ≠ [] ∧ (zeros 12).length = 12) ∧
    (zeros 1 ≠ [] ∧ State.reset.par.gcmIvNon96 = .derive) ∧
    (4 : Byte).toNat ∈ State.reset.par.gcmTagLens ∧ (16 : Byte).toNat ∈ State.reset.par.gcmTagLens :=
  by decide

/-- GcmAadEntersTheAccumulator: the last byte the counter takes. -/
theorem witness_gcmAad :
    (gcmCounted .aad 0xFFFFFFFFFFFFFFF0).gcm.phase = .aad ∧
    (gcmCounted .aad 0xFFFFFFFFFFFFFFF0).gcm.alen.toNat + 8 * ([1] : Bytes).length ≤ 2 ^ 64 - 1 := by
  decide +kernel

/-- GcmUpdateEncrypts, GcmUpdateDecryptsIntoHold: from `AAD` and from `DATA`, a block completed. -/
theorem witness_gcmUpdate :
    ((gcmState .encrypt .aad).gcm.phase = .aad ∧ (gcmState .encrypt .aad).gcm.dir = .encrypt ∧
      (gcmState .encrypt .aad).gcm.clen.toNat + 8 * toyKey.length ≤
        (gcmState .encrypt .aad).par.gcmPtLimit.toNat) ∧
    ((gcmState .decrypt .data).gcm.phase = .data ∧ (gcmState .decrypt .data).gcm.dir = .decrypt ∧
      (gcmState .decrypt .data).gcm.clen.toNat + 8 * toyKey.length ≤
        (gcmState .decrypt .data).par.gcmPtLimit.toNat ∧
      (fullBlocks 16 ((gcmState .decrypt .data).gcm.dbuf ++ toyKey)).length = 1) := by
  refine ⟨⟨rfl, rfl, by decide +kernel⟩, rfl, rfl, by decide +kernel, by decide +kernel⟩

/-- GcmFinalEncryptReturnsTheTag, GcmFinalDecryptReleasesOnMatch and ...NothingOnMismatch: the tag
itself, and the empty sequence, which is no 16-byte tag. -/
theorem witness_gcmFinal :
    ((gcmState .encrypt .aad).gcm.phase = .aad ∧ (gcmState .encrypt .aad).gcm.dir = .encrypt) ∧
    ((gcmState .decrypt .data).gcm.phase = .data ∧ (gcmState .decrypt .data).gcm.dir = .decrypt) ∧
    (∃ tag, tag = finalTag Config.ext (gcmState .decrypt .data).gcm) ∧
    (rep 0 17 ≠ finalTag Config.ext (gcmState .decrypt .data).gcm) := by
  refine ⟨⟨rfl, rfl⟩, ⟨rfl, rfl⟩, ⟨_, rfl⟩, fun h => ?_⟩
  have := congrArg List.length h
  simp only [finalTag, first, List.length_take, rep, List.length_replicate] at this
  have h16 : (gcmState .decrypt .data).gcm.tlen.toNat = 16 := rfl
  omega

/-- GcmEncryptionSessionComputesGcm (and GcmDecryptionSessionReturnsThePlaintext, with the data of the
next theorem): a 12-byte IV, cut associated data and data within the limits. -/
theorem witness_gcm_session :
    State.reset.par.blockLen = .b16 ∧ (16 : Byte).toNat = toyKey.length ∧
    (16 : Byte).toNat ∈ State.reset.par.keyLens ∧ zeros 12 ≠ [] ∧
    ((zeros 12).length = 12 ∨ State.reset.par.gcmIvNon96 = .derive) ∧
    (13 : Byte).toNat ∈ State.reset.par.gcmTagLens ∧
    8 * ([[1, 2], [3]] : List Bytes).flatten.length ≤ 2 ^ 64 - 1 ∧
    8 * ([toyKey, [], [1, 2, 3]] : List Bytes).flatten.length ≤ State.reset.par.gcmPtLimit.toNat := by
  decide +kernel

/-- The decryption session's data may be the ciphertext in one piece. -/
theorem witness_gcm_decryption_session :
    [gcmCrypt Config.ext (gcmIncBytes State.reset.par) toyKey (zeros 12) [1, 2, 3]].flatten =
      gcmCrypt Config.ext (gcmIncBytes State.reset.par) toyKey (zeros 12) [1, 2, 3] ∧
    8 * [gcmCrypt Config.ext (gcmIncBytes State.reset.par) toyKey (zeros 12) [1, 2, 3]].flatten.length ≤
      State.reset.par.gcmPtLimit.toNat := by
  refine ⟨List.append_nil _, ?_⟩
  have h : (gcmCrypt Config.ext (gcmIncBytes State.reset.par) toyKey (zeros 12) [1, 2, 3]).length ≤ 3 := by
    change (bxor [1, 2, 3] _ ++ []).length ≤ 3
    simp [bxor]
  have h2 : State.reset.par.gcmPtLimit.toNat = 2 ^ 64 - 1 := by decide +kernel
  simp only [List.flatten_cons, List.flatten_nil, List.append_nil, h2]
  omega

/-- SealThenUnsealReturnsThePlaintext: an omitted tag length and a stated one. -/
theorem witness_seal :
    State.reset.par.blockLen = .b16 ∧ toyKey.length < 256 ∧
    toyKey.length ∈ State.reset.par.keyLens ∧ zeros 12 ≠ [] ∧
    ((zeros 12).length = 12 ∨ State.reset.par.gcmIvNon96 = .derive) ∧
    ((none : Option Byte).getD 16).toNat ∈ State.reset.par.gcmTagLens ∧
    ((some 4 : Option Byte).getD 16).toNat ∈ State.reset.par.gcmTagLens ∧
    8 * ([1, 2, 3] : Bytes).length ≤ 2 ^ 64 - 1 ∧
    8 * toyKey.length ≤ State.reset.par.gcmPtLimit.toNat := by decide +kernel

/-! ### CCM -/

/-- CcmInitOpensASession: the shortest and the longest nonce, the shortest and the longest tag. -/
theorem witness_ccmInit :
    State.reset.par.blockLen = .b16 ∧ (16 : Byte).toNat = toyKey.length ∧
    (16 : Byte).toNat ∈ State.reset.par.keyLens ∧
    (7 ≤ (zeros 7).length ∧ (zeros 7).length ≤ 13) ∧ (7 ≤ (zeros 13).length ∧ (zeros 13).length ≤ 13) ∧
    (4 ≤ (4 : Byte).toNat ∧ (4 : Byte).toNat ≤ 16 ∧ (4 : Byte).toNat % 2 = 0) ∧
    (4 ≤ (16 : Byte).toNat ∧ (16 : Byte).toNat ≤ 16 ∧ (16 : Byte).toNat % 2 = 0) := by decide

/-- CcmAadStores, CcmUpdateStores: the last byte each store takes. -/
theorem witness_ccm_stores :
    ((ccmCounted (2 ^ 64 - 2) 0).ccm.phase = .aad ∧
      (ccmCounted (2 ^ 64 - 2) 0).ccm.astore.length + ([1] : Bytes).length < 2 ^ 64) ∧
    ((ccmCounted 0 65534).ccm.phase = .aad ∧
      (ccmCounted 0 65534).ccm.mstore.length + ([1] : Bytes).length <
        2 ^ (8 * (15 - (ccmCounted 0 65534).ccm.nlen.toNat))) := by
  have h1 := ccmCounted_fields (2 ^ 64 - 2) 0
  have h2 := ccmCounted_fields 0 65534
  refine ⟨⟨h1.2.2.2, ?_⟩, h2.2.2.2, ?_⟩ <;> rw [List.length_singleton]
  · rw [h1.1]
    omega
  · rw [h2.2.1, h2.2.2.1]
    omega

/-- CcmCounterBlocksStepByOne: the last two counter values of a 13-byte nonce. -/
theorem witness_ccm_counter :
    let c := (ccmState .encrypt .aad).ccm
    7 ≤ c.nlen.toNat ∧ c.nlen.toNat ≤ 13 ∧ c.n.length = c.nlen.toNat ∧
      65535 < 2 ^ (8 * (15 - c.nlen.toNat)) ∧ 65534 + 1 < 2 ^ (8 * (15 - c.nlen.toNat)) := by decide +kernel

/-- CcmFinalEncryptReturnsCiphertextAndTag, CcmFinalDecryptReleasesOnMatchOnly: both directions, the
tag itself and a sequence that is no 4-byte tag. -/
theorem witness_ccmFinal :
    ((ccmState .encrypt .aad).ccm.phase = .aad ∧ (ccmState .encrypt .aad).ccm.dir = .encrypt ∧
      7 ≤ (ccmState .encrypt .aad).ccm.nlen.toNat ∧ (ccmState .encrypt .aad).ccm.nlen.toNat ≤ 13 ∧
      (ccmState .encrypt .aad).ccm.n.length = (ccmState .encrypt .aad).ccm.nlen.toNat ∧
      (ccmState .encrypt .aad).ccm.mstore.length <
        2 ^ (8 * (15 - (ccmState .encrypt .aad).ccm.nlen.toNat))) ∧
    ((ccmState .decrypt .data).ccm.phase = .data ∧ (ccmState .decrypt .data).ccm.dir = .decrypt ∧
      7 ≤ (ccmState .decrypt .data).ccm.nlen.toNat ∧ (ccmState .decrypt .data).ccm.nlen.toNat ≤ 13 ∧
      (ccmState .decrypt .data).ccm.n.length = (ccmState .decrypt .data).ccm.nlen.toNat ∧
      (ccmState .decrypt .data).ccm.mstore.length <
        2 ^ (8 * (15 - (ccmState .decrypt .data).ccm.nlen.toNat))) ∧
    (∃ p tag, p = ccmCrypt Config.ext (ccmState .decrypt .data).ccm.k (ccmState .decrypt .data).ccm.n
        (ccmState .decrypt .data).ccm.mstore ∧
      tag = ccmTagOf Config.ext (ccmState .decrypt .data).ccm.k (ccmState .decrypt .data).ccm.n
        (ccmState .decrypt .data).ccm.tlen.toNat (ccmState .decrypt .data).ccm.astore p) ∧
    (∀ p, zeros 5 ≠ ccmTagOf Config.ext (ccmState .decrypt .data).ccm.k
      (ccmState .decrypt .data).ccm.n (ccmState .decrypt .data).ccm.tlen.toNat
      (ccmState .decrypt .data).ccm.astore p) := by
  refine ⟨⟨rfl, rfl, by decide, by decide, rfl, by decide +kernel⟩,
    ⟨rfl, rfl, by decide, by decide, rfl, by decide +kernel⟩, ⟨_, _, rfl, rfl⟩, fun p h => ?_⟩
  have := congrArg List.length h
  have h4 : (ccmState .decrypt .data).ccm.tlen.toNat = 4 := rfl
  simp only [ccmTagOf, bxor, first, zeros, List.length_replicate, List.length_zipWith,
    List.length_take, h4] at this
  omega

/-- CcmSessionsComputeCcmAndInvertIt: two cuttings of the same associated data, and the ciphertext in
one piece. -/
theorem witness_ccm_session :
    (State.reset.par.blockLen = .b16 ∧ (16 : Byte).toNat = toyKey.length ∧
      (16 : Byte).toNat ∈ State.reset.par.keyLens ∧ 7 ≤ (zeros 13).length ∧ (zeros 13).length ≤ 13 ∧
      4 ≤ (8 : Byte).toNat ∧ (8 : Byte).toNat ≤ 16 ∧ (8 : Byte).toNat % 2 = 0) ∧
    ([[1, 2], [3]] : List Bytes).flatten.length < 2 ^ 64 ∧
    ([[4], [5, 6]] : List Bytes).flatten.length < 2 ^ (8 * (15 - (zeros 13).length)) ∧
    ([[1], [], [2, 3]] : List Bytes).flatten = [[1, 2], [3]].flatten ∧
    (∃ c, c = ccmCrypt Config.ext toyKey (zeros 13) [4, 5, 6] ∧ [c].flatten = c) :=
  ⟨by decide, by decide +kernel, by decide +kernel, by decide +kernel, _, rfl, List.append_nil _⟩

/-! ### MAC -/

/-- MacInitDerivesTheSubkeys: the shortest and the longest tag, with the key lengths XCBC needs. -/
theorem witness_macInit :
    BlockLen.b16 = State.reset.par.blockLen ∧ (BlockLen.b16 = .b16 → (0x87 : Byte) = 0x87) ∧
    (BlockLen.b16 = .b8 → (0x87 : Byte) = State.reset.par.rb8) ∧ (16 : Byte).toNat = toyKey.length ∧
    (16 : Byte).toNat ∈ State.reset.par.keyLens ∧ BlockLen.b16.bytes ∈ State.reset.par.keyLens ∧
    1 ≤ (1 : Byte).toNat ∧ (1 : Byte).toNat ≤ BlockLen.b16.bytes ∧
    1 ≤ (16 : Byte).toNat ∧ (16 : Byte).toNat ≤ BlockLen.b16.bytes := by decide

/-- MacUpdateChainsAllButTheLastBlock, MacSignReturnsTheTag, MacVerifyReportsAndStaysReady: `READY`
with a held block and a short carry; the tag itself, and a sequence longer than any tag. -/
theorem witness_mac_ready :
    macState.mac.phase = .ready ∧ .b16 = macState.par.blockLen ∧ macState.mac.heldv = true ∧
    macState.mac.buf.length < BlockLen.b16.bytes ∧
    (∃ tag, tag = first (macTagFrom Config.ext .b16 macState.mac []) macState.mac.tlen.toNat) ∧
    zeros 17 ≠ first (macTagFrom Config.ext .b16 macState.mac []) macState.mac.tlen.toNat := by
  refine ⟨rfl, rfl, rfl, by decide, ⟨_, rfl⟩, fun h => ?_⟩
  have := congrArg List.length h
  have h16 : macState.mac.tlen.toNat = 16 := rfl
  simp only [first, zeros, List.length_replicate, List.length_take, h16] at this
  omega

/-- A fresh CMAC session under `TOY8`'s parameters. -/
def macTest : State := macToy (zeros 8) [] (zeros 8) false

/-- MacSessionComputesTheMac: a fresh message, under XCBC and under CMAC. -/
theorem witness_mac_session :
    (macFresh.mac.phase = .ready ∧ .b16 = macFresh.par.blockLen ∧ macFresh.mac.x = zeros 16 ∧ macFresh.mac.buf = [] ∧
      macFresh.mac.held = zeros 16 ∧ macFresh.mac.heldv = false ∧ macFresh.mac.var = .xcbc) ∧
    (macTest.mac.phase = .ready ∧ .b8 = macTest.par.blockLen ∧ macTest.mac.x = zeros 8 ∧
      macTest.mac.buf = [] ∧ macTest.mac.held = zeros 8 ∧ macTest.mac.heldv = false ∧
      macTest.mac.var ≠ .xcbc) :=
  ⟨⟨rfl, rfl, rfl, rfl, rfl, rfl, rfl⟩, rfl, rfl, rfl, rfl, rfl, rfl, by decide⟩

/-- Omac2OfWholeBlocksEqualsCmac: one block and two. -/
theorem witness_whole_blocks :
    ((16 : Byte).toNat = toyKey.length ∧ (16 : Byte).toNat ∈ State.reset.par.keyLens ∧
      1 ≤ (16 : Byte).toNat ∧ (16 : Byte).toNat ≤ State.reset.par.blockLen.bytes) ∧
    (toyKey ≠ [] ∧ toyKey.length % State.reset.par.blockLen.bytes = 0) ∧
    (toyKey ++ toyKey ≠ [] ∧ (toyKey ++ toyKey).length % State.reset.par.blockLen.bytes = 0) := by
  decide

end Sys2Proof.Tests
end

section
/-! The parameters are fixed for the life of a device instance (spec/00_scope.md R9): what one step
of the sequencer can do, and that no command writes a parameter. -/

namespace Sys2Proof.Machine

variable {s t : State}

/-- Everything a step can do (R20, R98, R100): wait for a whole frame, run the command of one, or
answer an illegal one. -/
theorem step_cases (h : step s = .next t) :
    (fetchFrame s.cmdIn = .wait ∧ t = s) ∨
    (∃ i rest, fetchFrame s.cmdIn = .command i rest ∧ exec i (consumeTo rest s) = .next t) ∨
    (∃ opc why rest, fetchFrame s.cmdIn = .illegal opc why rest ∧
      t = answerIllegal opc (consumeTo rest s)) := by
  unfold step at h
  split at h
  next hf => cases h; exact .inl ⟨hf, rfl⟩
  next i rest hf => exact .inr (.inl ⟨i, rest, hf, h⟩)
  next opc why rest hf => cases h; exact .inr (.inr ⟨opc, why, rest, hf, rfl⟩)

/-- No command writes a parameter: it changes registers of units and the ports only (R9). -/
theorem exec_par {i : Instr} (h : exec i s = .next t) : t.par = s.par := by
  cases i <;> cases h
  case sysReset => rfl
  case sysStatus => rfl
  case bbOpen blen => obtain ⟨_, _, e, _⟩ := bbOpen_shape blen s; rw [e]
  case bbPut p => obtain ⟨_, _, _, _, e, _⟩ := bbPut_shape Config.ext p s; rw [e]
  case bbFlush => obtain ⟨_, _, _, _, e, _⟩ := bbFlush_shape Config.ext s; rw [e]
  case gcmInit d k n p => obtain ⟨_, _, e, _⟩ := gcmInit_shape Config.ext d k n p s; rw [e]
  case gcmAad p => obtain ⟨_, _, e, _⟩ := gcmAad_shape p s; rw [e]
  case gcmUpdate p => obtain ⟨_, _, e, _⟩ := gcmUpdate_shape Config.ext p s; rw [e]
  case gcmFinal p => obtain ⟨_, _, e, _⟩ := gcmFinal_shape Config.ext p s; rw [e]
  case ccmInit d k n p => obtain ⟨_, _, e, _⟩ := ccmInit_shape d k n p s; rw [e]
  case ccmAad p => obtain ⟨_, _, e, _⟩ := ccmAad_shape p s; rw [e]
  case ccmUpdate p => obtain ⟨_, _, e, _⟩ := ccmUpdate_shape p s; rw [e]
  case ccmFinal p => obtain ⟨_, _, e, _⟩ := ccmFinal_shape Config.ext p s; rw [e]
  case macInit v k n p => obtain ⟨_, _, e, _⟩ := macInit_shape Config.ext v k n p s; rw [e]
  case macUpdate p => obtain ⟨_, _, e, _⟩ := macUpdate_shape Config.ext p s; rw [e]
  case macSign p => obtain ⟨_, _, e, _⟩ := macSign_shape Config.ext p s; rw [e]
  case macVerify p => obtain ⟨_, _, e, _⟩ := macVerify_shape Config.ext p s; rw [e]

/-- Settles O9: waiting changes nothing, and neither a command nor the answer to an illegal frame
writes a parameter. -/
theorem stepNeverChangesTheParameters : Obligations.StepNeverChangesTheParameters := by
  intro s t h
  obtain ⟨_, rfl⟩ | ⟨i, rest, _, he⟩ | ⟨opc, why, rest, _, rfl⟩ := step_cases h
  · rfl
  · exact (exec_par he).trans (consumeTo_par s rest)
  · exact (answerIllegal_par _ opc).trans (consumeTo_par s rest)

end Sys2Proof.Machine
end

section
/-! What a command of a unit reads and writes (spec/10_state.md R22): the parameters and the registers
of its own unit, one response, and for `BB0` the sink port. A command is therefore determined by its
run on the part of the state its unit sees, every other unit standing at reset. -/

namespace Sys2Proof.Machine

/-! ## The part of the state a unit sees -/

/-- The state with only what a command of `u` may read: the parameters, the registers of `u` and, for
`BB0`, the sink port; everything else as at reset (R22). -/
def seenBy (u : UnitId) (s : State) : State :=
  match u with
  | .bb0 => { State.reset with par := s.par, bb0 := s.bb0, sinkOut := s.sinkOut, sinkIn := s.sinkIn }
  | .gcm => { State.reset with par := s.par, gcm := s.gcm }
  | .ccm => { State.reset with par := s.par, ccm := s.ccm }
  | .mac => { State.reset with par := s.par, mac := s.mac }

/-- `s` after a command of `u` whose run on `seenBy u s` ends in `t`: the registers of `u` and, for
`BB0`, the sink port are taken from `t`, and `t`'s responses are added on the response port. -/
def putBack (u : UnitId) (s t : State) : State :=
  match u with
  | .bb0 => { s with bb0 := t.bb0, respOut := s.respOut ++ t.respOut,
                     sinkOut := t.sinkOut, sinkIn := t.sinkIn }
  | .gcm => { s with gcm := t.gcm, respOut := s.respOut ++ t.respOut }
  | .ccm => { s with ccm := t.ccm, respOut := s.respOut ++ t.respOut }
  | .mac => { s with mac := t.mac, respOut := s.respOut ++ t.respOut }

/-- `f` reads and writes nothing but what `u` sees. -/
def LocalTo (u : UnitId) (f : State → State) : Prop := ∀ s, f s = putBack u s (f (seenBy u s))

@[simp] theorem seenBy_par (u : UnitId) (s : State) : (seenBy u s).par = s.par := by cases u <;> rfl

@[simp] theorem seenBy_respOut (u : UnitId) (s : State) : (seenBy u s).respOut = [] := by
  cases u <;> rfl

@[simp] theorem seenBy_bb0_bb0 (s : State) : (seenBy .bb0 s).bb0 = s.bb0 := rfl

@[simp] theorem seenBy_gcm_gcm (s : State) : (seenBy .gcm s).gcm = s.gcm := rfl

@[simp] theorem seenBy_ccm_ccm (s : State) : (seenBy .ccm s).ccm = s.ccm := rfl

@[simp] theorem seenBy_mac_mac (s : State) : (seenBy .mac s).mac = s.mac := rfl

@[simp] theorem putBack_par (u : UnitId) (s t : State) : (putBack u s t).par = s.par := by
  cases u <;> rfl

@[simp] theorem putBack_cmdIn (u : UnitId) (s t : State) : (putBack u s t).cmdIn = s.cmdIn := by
  cases u <;> rfl

@[simp] theorem putBack_respOut (u : UnitId) (s t : State) :
    (putBack u s t).respOut = s.respOut ++ t.respOut := by cases u <;> rfl

/-- Only `BB0` has the sink port. -/
theorem putBack_sink {u : UnitId} (hu : u ≠ .bb0) (s t : State) :
    (putBack u s t).sinkOut = s.sinkOut ∧ (putBack u s t).sinkIn = s.sinkIn := by
  cases u
  case bb0 => exact absurd rfl hu
  all_goals exact ⟨rfl, rfl⟩

/-- What is put back for one unit leaves the others as they were. -/
theorem sameUnit_putBack_of_ne {u v : UnitId} (hv : v ≠ u) (s t : State) :
    sameUnit v s (putBack u s t) := by
  cases u <;> cases v <;> simp_all [sameUnit, putBack]

/-- What is put back for a unit does not depend on the state it is put into. -/
theorem sameUnit_putBack (u : UnitId) (s s' t : State) :
    sameUnit u (putBack u s t) (putBack u s' t) := by cases u <;> rfl

/-- States that agree on what `u` sees are the same to `u`. -/
theorem seenBy_congr {u : UnitId} {s s' : State} (hp : s.par = s'.par) (hu : sameUnit u s s')
    (hb : u = .bb0 → s.sinkOut = s'.sinkOut ∧ s.sinkIn = s'.sinkIn) :
    seenBy u s = seenBy u s' := by
  cases u
  case bb0 =>
    obtain ⟨ho, hi⟩ := hb rfl
    simp only [sameUnit] at hu
    simp only [seenBy, hp, hu, ho, hi]
  all_goals
    simp only [sameUnit] at hu
    simp only [seenBy, hp, hu]

/-! ## The commands of each unit are local to it -/

/-- Taking an error concerns its unit only (R277). -/
theorem raise_local (u : UnitId) (k : Status) (opc : Byte) : LocalTo u (raise u k opc) := by
  intro s
  cases u <;> rfl

/-- Emitting on what `BB0` sees is emitting on the whole state: the same answer, the same port. -/
theorem emitWrites_seenBy (x : Ext) (bs : List Bytes) (s : State) :
    emitWrites x bs (seenBy .bb0 s) =
      ((emitWrites x bs s).1, seenBy .bb0 (emitWrites x bs s).2) := by
  induction bs generalizing s with
  | nil => rfl
  | cons b bs ih =>
    have hemit : emit x ⟨.write, b⟩ (seenBy .bb0 s) =
        ((emit x ⟨.write, b⟩ s).1, seenBy .bb0 (emit x ⟨.write, b⟩ s).2) := rfl
    rw [emitWrites, emitWrites, hemit]
    obtain ⟨ack, s1⟩ := emit x ⟨.write, b⟩ s
    cases ack
    · rfl
    · exact ih s1

/-- A test of what the unit sees, with an error when it holds, in front of a local command. -/
theorem LocalTo.guard {u : UnitId} {c : State → Prop} [DecidablePred c] {k : Status} {opc : Byte}
    {f : State → State} (hc : ∀ s, c (seenBy u s) ↔ c s) (hf : LocalTo u f) :
    LocalTo u fun s => if c s then raise u k opc s else f s := by
  intro s
  by_cases h : c s
  · simp only [hc, h, if_true]
    exact raise_local u k opc s
  · simp only [hc, h, if_false]
    exact hf s

theorem bbOpen_local (blen : Byte) : LocalTo .bb0 (bbOpen blen) := by
  intro s
  unfold bbOpen
  dsimp only
  split
  · rfl
  · rfl

theorem bbPut_local (x : Ext) (payload : Bytes) : LocalTo .bb0 (bbPut x payload) := by
  unfold bbPut
  refine .guard (fun _ => Iff.rfl) fun s => ?_
  obtain ⟨o, i, h⟩ := emitWrites_only_sink x (bbCut s.bb0.blen.toNat s.bb0.carry payload).1 s
  simp only [seenBy_bb0_bb0, emitWrites_seenBy]
  generalize emitWrites x (bbCut s.bb0.blen.toNat s.bb0.carry payload).1 s = r at h
  obtain ⟨ack, s1⟩ := r
  subst h
  cases ack
  · rfl
  · rfl

theorem bbFlush_local (x : Ext) : LocalTo .bb0 (bbFlush x) := by
  unfold bbFlush
  refine .guard (fun _ => Iff.rfl) fun s => ?_
  have hans : sinkAnswerAt x (seenBy .bb0 s) 0 ⟨.flush, s.bb0.carry⟩ =
      sinkAnswerAt x s 0 ⟨.flush, s.bb0.carry⟩ := rfl
  rw [seenBy_bb0_bb0, emit_eq, emit_eq, hans]
  cases sinkAnswerAt x s 0 ⟨.flush, s.bb0.carry⟩ == ackByte
  · rfl
  · rfl

theorem gcmInit_local (x : Ext) (d : Dir) (klen tlen : Byte) (payload : Bytes) :
    LocalTo .gcm (gcmInit x d klen tlen payload) := by
  intro s
  unfold gcmInit
  dsimp only
  rw [seenBy_par]
  split
  · rfl
  · rfl

theorem gcmAad_local (payload : Bytes) : LocalTo .gcm (gcmAad payload) := by
  unfold gcmAad
  exact .guard (fun _ => Iff.rfl) (.guard (fun _ => Iff.rfl) fun _ => rfl)

theorem gcmUpdate_local (x : Ext) (payload : Bytes) : LocalTo .gcm (gcmUpdate x payload) := by
  unfold gcmUpdate
  refine .guard (fun _ => Iff.rfl) (.guard (fun _ => Iff.rfl) fun s => ?_)
  simp only [seenBy_gcm_gcm, seenBy_par]
  split
  · rfl
  · rfl

theorem gcmFinal_local (x : Ext) (payload : Bytes) : LocalTo .gcm (gcmFinal x payload) := by
  unfold gcmFinal
  refine .guard (fun _ => Iff.rfl) (.guard (fun _ => Iff.rfl) fun s => ?_)
  simp only [seenBy_gcm_gcm, seenBy_par]
  split
  · rfl
  · split
    · rfl
    · rfl

theorem ccmInit_local (d : Dir) (klen tlen : Byte) (payload : Bytes) :
    LocalTo .ccm (ccmInit d klen tlen payload) := by
  intro s
  unfold ccmInit
  dsimp only
  rw [seenBy_par]
  split
  · rfl
  · rfl

theorem ccmAad_local (payload : Bytes) : LocalTo .ccm (ccmAad payload) := by
  unfold ccmAad
  exact .guard (fun _ => Iff.rfl) (.guard (fun _ => Iff.rfl) fun _ => rfl)

theorem ccmUpdate_local (payload : Bytes) : LocalTo .ccm (ccmUpdate payload) := by
  unfold ccmUpdate
  exact .guard (fun _ => Iff.rfl) (.guard (fun _ => Iff.rfl) fun _ => rfl)

theorem ccmFinal_local (x : Ext) (payload : Bytes) : LocalTo .ccm (ccmFinal x payload) := by
  unfold ccmFinal
  refine .guard (fun _ => Iff.rfl) (.guard (fun _ => Iff.rfl) fun s => ?_)
  rw [seenBy_ccm_ccm]
  dsimp only
  split
  · rfl
  · split
    · rfl
    · rfl

theorem macInit_local (x : Ext) (vv : Variant) (klen tlen : Byte) (payload : Bytes) :
    LocalTo .mac (macInit x vv klen tlen payload) := by
  intro s
  unfold macInit
  dsimp only
  rw [seenBy_par]
  split
  · rfl
  · rfl

theorem macUpdate_local (x : Ext) (payload : Bytes) : LocalTo .mac (macUpdate x payload) := by
  unfold macUpdate
  exact .guard (fun _ => Iff.rfl) fun _ => rfl

theorem macSign_local (x : Ext) (payload : Bytes) : LocalTo .mac (macSign x payload) := by
  unfold macSign
  exact .guard (fun _ => Iff.rfl) fun _ => rfl

theorem macVerify_local (x : Ext) (payload : Bytes) : LocalTo .mac (macVerify x payload) := by
  unfold macVerify
  refine .guard (fun _ => Iff.rfl) fun s => ?_
  simp only [seenBy_mac_mac, seenBy_par]
  split
  · rfl
  · rfl

/-- A command of a unit is its run on what the unit sees, put back (R22). -/
theorem exec_local {i : Instr} {u : UnitId} (hu : unitOf i = some u) (s : State) :
    ∃ t, exec i (seenBy u s) = .next t ∧ exec i s = .next (putBack u s t) := by
  cases i <;> cases hu
  case bbOpen blen => exact ⟨_, rfl, congrArg _ (bbOpen_local blen s)⟩
  case bbPut p => exact ⟨_, rfl, congrArg _ (bbPut_local Config.ext p s)⟩
  case bbFlush => exact ⟨_, rfl, congrArg _ (bbFlush_local Config.ext s)⟩
  case gcmInit d k n p => exact ⟨_, rfl, congrArg _ (gcmInit_local Config.ext d k n p s)⟩
  case gcmAad p => exact ⟨_, rfl, congrArg _ (gcmAad_local p s)⟩
  case gcmUpdate p => exact ⟨_, rfl, congrArg _ (gcmUpdate_local Config.ext p s)⟩
  case gcmFinal p => exact ⟨_, rfl, congrArg _ (gcmFinal_local Config.ext p s)⟩
  case ccmInit d k n p => exact ⟨_, rfl, congrArg _ (ccmInit_local d k n p s)⟩
  case ccmAad p => exact ⟨_, rfl, congrArg _ (ccmAad_local p s)⟩
  case ccmUpdate p => exact ⟨_, rfl, congrArg _ (ccmUpdate_local p s)⟩
  case ccmFinal p => exact ⟨_, rfl, congrArg _ (ccmFinal_local Config.ext p s)⟩
  case macInit v k n p => exact ⟨_, rfl, congrArg _ (macInit_local Config.ext v k n p s)⟩
  case macUpdate p => exact ⟨_, rfl, congrArg _ (macUpdate_local Config.ext p s)⟩
  case macSign p => exact ⟨_, rfl, congrArg _ (macSign_local Config.ext p s)⟩
  case macVerify p => exact ⟨_, rfl, congrArg _ (macVerify_local Config.ext p s)⟩

/-- A command of a unit answers exactly once, with its opcode and the unit's phase after it (R96). -/
theorem exec_one_response {i : Instr} {u : UnitId} {s t : State} (hu : unitOf i = some u)
    (h : exec i s = .next t) :
    ∃ r, t.respOut = s.respOut ++ [r] ∧ answers r (opcodeOf i) (phaseOf u t) := by
  cases i <;> cases hu <;> cases h
  case bbOpen blen => obtain ⟨_, r, e, ha⟩ := bbOpen_shape blen s; rw [e]; exact ⟨r, rfl, ha⟩
  case bbPut p =>
    obtain ⟨_, r, _, _, e, ha⟩ := bbPut_shape Config.ext p s; rw [e]; exact ⟨r, rfl, ha⟩
  case bbFlush =>
    obtain ⟨_, r, _, _, e, ha⟩ := bbFlush_shape Config.ext s; rw [e]; exact ⟨r, rfl, ha⟩
  case gcmInit d k n p =>
    obtain ⟨_, r, e, ha⟩ := gcmInit_shape Config.ext d k n p s; rw [e]; exact ⟨r, rfl, ha⟩
  case gcmAad p => obtain ⟨_, r, e, ha⟩ := gcmAad_shape p s; rw [e]; exact ⟨r, rfl, ha⟩
  case gcmUpdate p =>
    obtain ⟨_, r, e, ha⟩ := gcmUpdate_shape Config.ext p s; rw [e]; exact ⟨r, rfl, ha⟩
  case gcmFinal p =>
    obtain ⟨_, r, e, ha⟩ := gcmFinal_shape Config.ext p s; rw [e]; exact ⟨r, rfl, ha⟩
  case ccmInit d k n p =>
    obtain ⟨_, r, e, ha⟩ := ccmInit_shape d k n p s; rw [e]; exact ⟨r, rfl, ha⟩
  case ccmAad p => obtain ⟨_, r, e, ha⟩ := ccmAad_shape p s; rw [e]; exact ⟨r, rfl, ha⟩
  case ccmUpdate p => obtain ⟨_, r, e, ha⟩ := ccmUpdate_shape p s; rw [e]; exact ⟨r, rfl, ha⟩
  case ccmFinal p =>
    obtain ⟨_, r, e, ha⟩ := ccmFinal_shape Config.ext p s; rw [e]; exact ⟨r, rfl, ha⟩
  case macInit v k n p =>
    obtain ⟨_, r, e, ha⟩ := macInit_shape Config.ext v k n p s; rw [e]; exact ⟨r, rfl, ha⟩
  case macUpdate p =>
    obtain ⟨_, r, e, ha⟩ := macUpdate_shape Config.ext p s; rw [e]; exact ⟨r, rfl, ha⟩
  case macSign p =>
    obtain ⟨_, r, e, ha⟩ := macSign_shape Config.ext p s; rw [e]; exact ⟨r, rfl, ha⟩
  case macVerify p =>
    obtain ⟨_, r, e, ha⟩ := macVerify_shape Config.ext p s; rw [e]; exact ⟨r, rfl, ha⟩

/-! ## Isolation of the units (R22) -/

/-- Settles O20: a command's next state is its own state with what its unit sees put back. -/
theorem commandsLeaveOtherUnitsAlone : Obligations.CommandsLeaveOtherUnitsAlone := by
  intro i u s t hu h
  obtain ⟨t0, -, he⟩ := exec_local hu s
  obtain rfl : putBack u s t0 = t := by rw [he] at h; exact Host.Outcome.next.inj h
  exact ⟨fun v hv => sameUnit_putBack_of_ne hv s t0, putBack_par u s t0, putBack_cmdIn u s t0,
    fun hb => putBack_sink hb s t0⟩

/-- Settles O21: on states that agree on what the unit sees, the run that is put back is the same,
its one response included. -/
theorem commandsReadOnlyTheirUnit : Obligations.CommandsReadOnlyTheirUnit := by
  intro i u s s' hu hp hsame hsink
  obtain ⟨t0, h0, hs⟩ := exec_local hu s
  have hs' : exec i s' = .next (putBack u s' t0) := by
    obtain ⟨t1, h1, h1'⟩ := exec_local hu s'
    rw [← seenBy_congr hp hsame hsink, h0] at h1
    rwa [← Host.Outcome.next.inj h1] at h1'
  obtain ⟨r, hr, -⟩ := exec_one_response hu h0
  rw [seenBy_respOut, List.nil_append] at hr
  refine ⟨_, _, r, hs, hs', sameUnit_putBack u s s' t0, ?_, ?_, ?_⟩
  · rw [putBack_respOut, hr]
  · rw [putBack_respOut, hr]
  · rintro rfl
    exact ⟨rfl, rfl⟩

end Sys2Proof.Machine
end

section
/-! Every step keeps the state legal (spec/10_state.md R24 to R26, R31, R43, R51, R60). Per unit: the
commands keep the unit's own invariant; that they keep the other units' is their isolation (R22). -/

namespace Sys2Proof.Machine

/-- The cause `raise` records satisfies what the first cause and the new one satisfy (R25, R278). -/
theorem recordedCause {C : Byte → Prop} {ph : Phase} {first new : Byte}
    (hfirst : ph = .fault → C first) (hnew : C new) : C (if ph = .fault then first else new) := by
  split
  next hf => exact hfirst hf
  next => exact hnew

/-! ## BB0 (R26) -/

section Bb

variable {b : BbRegs} {s : State}

/-- The causes that can put `BB0` into `FAULT`. -/
abbrev bbCause (e : Byte) : Prop := e = 1 ∨ e = 4 ∨ e = 5

theorem bbLegal_reset : bbLegal BbRegs.reset := rfl

theorem bbLegal_iff_of_ready (hp : b.phase = .ready) :
    bbLegal b ↔ b.err = 0 ∧ b.blen ≠ 0 ∧ b.carry.length < b.blen.toNat := by
  simp only [bbLegal, hp]

theorem bbLegal_of_ready (h : b.err = 0 ∧ b.blen ≠ 0 ∧ b.carry.length < b.blen.toNat)
    (hp : b.phase = .ready) : bbLegal b := (bbLegal_iff_of_ready hp).mpr h

theorem bbLegal_fault_cause (h : bbLegal b) (hp : b.phase = .fault) : bbCause b.err := by
  simp only [bbLegal, hp] at h
  obtain ⟨-, -, hcause⟩ := h
  exact hcause

theorem bbLegal_raise {k : Status} {opc : Byte} (hs : s.bb0.phase = .fault → bbCause s.bb0.err)
    (hk : bbCause (statusCode k)) : bbLegal (raise .bb0 k opc s).bb0 :=
  ⟨rfl, rfl, recordedCause hs hk⟩

theorem bbOpen_keeps_legal (blen : Byte) (s : State) : bbLegal (bbOpen blen s).bb0 := by
  unfold bbOpen
  dsimp only
  split
  next => exact bbLegal_raise (nofun) (by decide)
  next h =>
    refine ⟨rfl, h, ?_⟩
    exact Nat.pos_of_ne_zero fun h0 => h (BitVec.eq_of_toNat_eq h0)

theorem bbPut_keeps_legal (x : Ext) (payload : Bytes) (h : bbLegal s.bb0) :
    bbLegal (bbPut x payload s).bb0 := by
  unfold bbPut
  split
  next => exact bbLegal_raise (bbLegal_fault_cause h) (by decide)
  next hp =>
    have hp : s.bb0.phase = .ready := not_not.mp hp
    have hio : bbCause (statusCode .ioFailure) := by decide
    obtain ⟨herr, hblen, hcarry⟩ := (bbLegal_iff_of_ready hp).mp h
    obtain ⟨o, i, hs⟩ := emitWrites_only_sink x (bbCut s.bb0.blen.toNat s.bb0.carry payload).1 s
    dsimp only
    generalize emitWrites x (bbCut s.bb0.blen.toNat s.bb0.carry payload).1 s = r at hs
    obtain ⟨ack, s1⟩ := r
    subst hs
    cases ack
    · exact bbLegal_raise (fun hf => absurd (hp.symm.trans hf) (by decide)) hio
    · exact bbLegal_of_ready ⟨herr, hblen, bbCut_carry_lt (Nat.zero_lt_of_lt hcarry) _ _⟩ hp

theorem bbFlush_keeps_legal (x : Ext) (h : bbLegal s.bb0) : bbLegal (bbFlush x s).bb0 := by
  unfold bbFlush
  split
  next => exact bbLegal_raise (bbLegal_fault_cause h) (by decide)
  next hp =>
    have hp : s.bb0.phase = .ready := not_not.mp hp
    have hio : bbCause (statusCode .ioFailure) := by decide
    obtain ⟨herr, hblen, hcarry⟩ := (bbLegal_iff_of_ready hp).mp h
    rw [emit_eq]
    cases sinkAnswerAt x s 0 ⟨.flush, s.bb0.carry⟩ == ackByte
    · exact bbLegal_raise (fun hf => absurd (hp.symm.trans hf) (by decide)) hio
    · exact bbLegal_of_ready ⟨herr, hblen, Nat.zero_lt_of_lt hcarry⟩ hp

end Bb

/-! ## Byte and bit counts -/

theorem keyLenOk_iff (p : Params) (n : Nat) : keyLenOk p n = true ↔ n ∈ p.keyLens := by
  simp [keyLenOk]

theorem tagLenOk_iff (p : Params) (n : Nat) : tagLenOk p n = true ↔ n ∈ p.gcmTagLens := by
  simp [tagLenOk]

/-- A bit counter that stays within a limit does not wrap (R164, R165). -/
theorem bitCountAdd_toNat {count limit : BitVec 64} {n : Nat}
    (h : bitCountFits count limit n = true) :
    (bitCountAdd count n).toNat = count.toNat + 8 * n := by
  have hle : count.toNat + 8 * n ≤ limit.toNat := by simpa [bitCountFits] using h
  have hlt := limit.isLt
  rw [bitCountAdd, BitVec.toNat_add, BitVec.toNat_ofNat, Nat.mod_eq_of_lt (by omega : 8 * n < 2 ^ 64),
    Nat.mod_eq_of_lt (by omega)]

theorem ccmAadFits_iff (c : CcmRegs) (n : Nat) :
    ccmAadFits c n = true ↔ c.astore.length + n < 2 ^ 64 := decide_eq_true_iff

theorem ccmMsgFits_iff (c : CcmRegs) (n : Nat) :
    ccmMsgFits c n = true ↔ c.mstore.length + n < 2 ^ (8 * (15 - c.nlen.toNat)) :=
  decide_eq_true_iff

theorem initKey_length {klen : Byte} {payload : Bytes} (h : klen.toNat ≤ payload.length) :
    (initKey klen payload).length = klen.toNat := by
  simp [initKey, h]

theorem initIv_length (klen : Byte) (payload : Bytes) :
    (initIv klen payload).length = payload.length - klen.toNat := by
  simp [initIv]

/-! ## Widths (R30, R145, R161) -/

theorem gcmIncBytes_le (p : Params) : gcmIncBytes p ≤ 16 := by
  unfold gcmIncBytes
  split
  · decide
  · decide

theorem incrIter_length {q : Nat} {c : Bytes} (n : Nat) (h : q ≤ c.length) :
    (incrIter q n c).length = c.length := by
  induction n generalizing c with
  | zero => rfl
  | succ n ih => rw [incrIter_succ, ih (by rwa [incrW_length h]), incrW_length h]

theorem gcmJ0_length (h iv : Bytes) : (gcmJ0 h iv).length = 16 := by
  unfold gcmJ0
  split
  next h12 => simp [h12]
  next => exact ghashFrom_length (ghashFrom_length (zeros_length 16) _) _

theorem closedX_length {g : GcmRegs} (h : g.x.length = 16) : (closedX g).length = 16 := by
  unfold closedX
  split
  · exact gfMul_length _ _
  · exact h

theorem ctrPieces_flatten_length (x : Ext) (q : Nat) (k ctr : Bytes) {bs : List Bytes}
    (h : ∀ b ∈ bs, b.length = 16) :
    (ctrPieces x q k ctr bs).flatten.length = 16 * bs.length := by
  rw [List.length_flatten, ctrPieces_map_length x q k ctr bs fun b hb => (h b hb).le,
    List.map_congr_left h, List.map_const', List.sum_replicate, smul_eq_mul, Nat.mul_comm]

/-! ## GCM (R31) -/

section Gcm

variable {p : Params} {g : GcmRegs} {s : State}

/-- The causes that can put an AEAD unit into `FAULT`. -/
abbrev aeadCause (e : Byte) : Prop := e = 1 ∨ e = 2 ∨ e = 3 ∨ e = 5

theorem ne_fault_of_sessionPhase {ph : Phase} (h : sessionPhase ph = true) : ph ≠ .fault := by
  rintro rfl
  cases h

theorem gcmLegal_reset : gcmLegal p GcmRegs.reset := rfl

theorem gcmLegal_done : gcmLegal p { GcmRegs.reset with phase := .done, err := 0 } := rfl

theorem gcmLegal_iff_session (hp : sessionPhase g.phase = true) :
    gcmLegal p g ↔ gcmSession p g := by
  unfold gcmLegal
  cases h : g.phase <;> simp_all [sessionPhase]

theorem gcmLegal_of_session (h : gcmSession p g) (hp : sessionPhase g.phase = true) :
    gcmLegal p g := (gcmLegal_iff_session hp).mpr h

theorem gcmLegal_fault_cause (h : gcmLegal p g) (hp : g.phase = .fault) : aeadCause g.err := by
  simp only [gcmLegal, hp] at h
  obtain ⟨-, hcause⟩ := h
  exact hcause

theorem gcmLegal_raise {k : Status} {opc : Byte} (hs : s.gcm.phase = .fault → aeadCause s.gcm.err)
    (hk : aeadCause (statusCode k)) : gcmLegal p (raise .gcm k opc s).gcm :=
  ⟨rfl, recordedCause hs hk⟩

/-- A unit just keyed, nothing received: an `AAD` session (R160). -/
theorem gcmSession_keyed {k j0 ctr : Bytes} {tlen : Byte} (d : Dir) (hbl : p.blockLen = .b16)
    (hk : k.length ∈ p.keyLens) (ht : tlen.toNat ∈ p.gcmTagLens) (hj0 : j0.length = 16)
    (hctr : ctr.length = 16) :
    gcmSession p { GcmRegs.reset with
      phase := .aad, dir := d, tlen := tlen, kv := true, k := k,
      h := enc Config.ext .b16 k (zeros 16), j0 := j0, ctr := ctr } := by
  simp [gcmSession, GcmRegs.reset, hbl, hk, ht, hj0, hctr]

theorem gcmInit_keeps_legal (d : Dir) (klen tlen : Byte) (payload : Bytes) (s : State) :
    gcmLegal s.par (gcmInit Config.ext d klen tlen payload s).gcm := by
  unfold gcmInit
  dsimp only
  split
  next => exact gcmLegal_raise (nofun) (by decide)
  next hok =>
    simp only [gcmInitOk, Bool.not_eq_true', Bool.not_eq_false, Bool.and_eq_true, beq_iff_eq,
      decide_eq_true_eq, keyLenOk_iff, tagLenOk_iff] at hok
    obtain ⟨⟨⟨⟨⟨hbl, hle⟩, hkey⟩, -⟩, -⟩, htag⟩ := hok
    have hj0 : (gcmJ0 (enc Config.ext .b16 (initKey klen payload) (zeros 16))
        (initIv klen payload)).length = 16 := gcmJ0_length _ _
    have hctr := incrW_length (q := gcmIncBytes s.par) (by rw [hj0]; exact gcmIncBytes_le _)
    have hk : (initKey klen payload).length ∈ s.par.keyLens := (initKey_length hle).symm ▸ hkey
    exact gcmLegal_of_session (gcmSession_keyed d hbl hk htag hj0 (hctr.trans hj0)) rfl

/-- An `AAD` session after `data`: the counter counts it, the carry is what its full blocks leave
(R164). -/
theorem gcmSession_putAad {data x : Bytes} {alen : BitVec 64} (h : gcmSession p g)
    (hp : g.phase = .aad) (halen : alen.toNat = g.alen.toNat + 8 * data.length)
    (hx : x.length = 16) :
    gcmSession p { g with alen := alen, x := x, abuf := remainder 16 (g.abuf ++ data) } := by
  obtain ⟨hbl, hkv, herr, hk, ht, hh, hj0, hctr, -, hal, hcl, haad, -, hdbuf, hhe, hhd⟩ := h
  obtain ⟨habuf, hc0⟩ := haad hp
  refine ⟨hbl, hkv, herr, hk, ht, hh, hj0, hctr, hx, ?_, hcl, fun _ => ⟨?_, hc0⟩, fun hd => ?_,
    hdbuf, hhe, hhd⟩
  · dsimp only
    omega
  · simp only [remainder_length, List.length_append]
    omega
  · exact absurd (hp.symm.trans hd) (by decide)

theorem gcmAad_keeps_legal (payload : Bytes) (h : gcmLegal s.par s.gcm) :
    gcmLegal s.par (gcmAad payload s).gcm := by
  unfold gcmAad
  split
  next => exact gcmLegal_raise (gcmLegal_fault_cause h) (by decide)
  next hp =>
    split
    next => exact gcmLegal_raise (gcmLegal_fault_cause h) (by decide)
    next hfit =>
      have hp : s.gcm.phase = .aad := not_not.mp hp
      have hphase : sessionPhase s.gcm.phase = true := by rw [hp]; rfl
      have hsession := (gcmLegal_iff_session hphase).mp h
      have ⟨_, _, _, _, _, _, _, _, hx, _⟩ := hsession
      dsimp only
      rw [gcmAbsorbAll_eq]
      exact gcmLegal_of_session (gcmSession_putAad (g := s.gcm) hsession hp
        (bitCountAdd_toNat (by simpa using hfit)) (ghashFrom_length hx _)) hphase

/-- Closing the associated data ends in a `DATA` session (R167). -/
theorem gcmSession_openData (h : gcmSession p g) (hp : sessionPhase g.phase = true) :
    gcmSession p (gcmOpenData g) ∧ (gcmOpenData g).phase = .data := by
  have hdata : (gcmOpenData g).phase = .data := by
    rw [gcmOpenData_eq]
    cases hph : g.phase <;> simp_all [sessionPhase]
  obtain ⟨hbl, hkv, herr, hk, ht, hh, hj0, hctr, hx, hal, hcl, -, habuf, hdbuf, hhe, hhd⟩ := h
  refine ⟨?_, hdata⟩
  rw [gcmOpenData_eq] at hdata ⊢
  refine ⟨hbl, hkv, herr, hk, ht, hh, hj0, hctr, closedX_length hx, hal, hcl, fun ha => ?_,
    fun _ => ?_, hdbuf, hhe, hhd⟩
  · exact absurd (hdata.symm.trans ha) (by decide)
  · dsimp only at hdata ⊢
    split
    next => rfl
    next ha => exact habuf (by rwa [if_neg ha] at hdata)

/-- Whole blocks of data move the counter and the accumulator, and give as many bytes as they
take (R168). -/
theorem gcmDataBlocks_regs (x : Ext) (p : Params) {bs : List Bytes} (hx : g.x.length = 16)
    (hb : ∀ b ∈ bs, b.length = 16) :
    (gcmDataBlocks x p bs g).1.length = 16 * bs.length ∧
    ∃ acc, acc.length = 16 ∧ (gcmDataBlocks x p bs g).2 =
      { g with ctr := incrIter (gcmIncBytes p) bs.length g.ctr, x := acc } := by
  obtain hd | hd : g.dir = .encrypt ∨ g.dir = .decrypt := by cases g.dir <;> simp
  · rw [gcmDataBlocks_encrypt x p bs hd hb]
    exact ⟨ctrPieces_flatten_length _ _ _ _ hb, _, ghashFrom_length hx _, rfl⟩
  · rw [gcmDataBlocks_decrypt x p bs hd hb]
    exact ⟨ctrPieces_flatten_length _ _ _ _ hb, _, ghashFrom_length hx _, rfl⟩

/-- A `DATA` session after `data`: the counter counts it, the carry is what its full blocks leave,
and a decrypting unit holds their output (R165). -/
theorem gcmSession_putData {data ctr x hold : Bytes} {clen : BitVec 64} (h : gcmSession p g)
    (hp : g.phase = .data) (hclen : clen.toNat = g.clen.toNat + 8 * data.length)
    (hctr : ctr.length = 16) (hx : x.length = 16) (henc : g.dir = .encrypt → hold = g.hold)
    (hdec : g.dir = .decrypt →
      hold.length = g.hold.length + 16 * ((g.dbuf.length + data.length) / 16)) :
    gcmSession p { g with clen := clen, ctr := ctr, x := x,
                          dbuf := remainder 16 (g.dbuf ++ data), hold := hold } := by
  obtain ⟨hbl, hkv, herr, hk, ht, hh, hj0, -, -, hal, hcl, -, habuf, hdbuf, hhe, hhd⟩ := h
  refine ⟨hbl, hkv, herr, hk, ht, hh, hj0, hctr, hx, hal, ?_, fun ha => ?_, fun _ => habuf hp, ?_,
    fun he => (henc he).trans (hhe he), fun hd => ?_⟩
  · dsimp only
    omega
  · exact absurd (hp.symm.trans ha) (by decide)
  · simp only [remainder_length, List.length_append]
    omega
  · have hheld := hhd hd
    have hnew := hdec hd
    simp only [remainder_length, List.length_append]
    omega

theorem gcmUpdate_keeps_legal (x : Ext) (payload : Bytes) (h : gcmLegal s.par s.gcm) :
    gcmLegal s.par (gcmUpdate x payload s).gcm := by
  unfold gcmUpdate
  split
  next => exact gcmLegal_raise (gcmLegal_fault_cause h) (by decide)
  next hp =>
    split
    next => exact gcmLegal_raise (gcmLegal_fault_cause h) (by decide)
    next hfit =>
      have hp : sessionPhase s.gcm.phase = true := by simpa using hp
      obtain ⟨hopen, hdata⟩ := gcmSession_openData ((gcmLegal_iff_session hp).mp h) hp
      have hcount : (bitCountAdd (gcmOpenData s.gcm).clen payload.length).toNat =
          (gcmOpenData s.gcm).clen.toNat + 8 * payload.length :=
        bitCountAdd_toNat (limit := s.par.gcmPtLimit) (by rw [gcmOpenData_eq]; simpa using hfit)
      generalize gcmOpenData s.gcm = g at hopen hdata hcount ⊢
      have ⟨_, _, _, _, _, _, _, hctr, hx, _⟩ := hopen
      obtain ⟨hout, acc, hacc, hregs⟩ := gcmDataBlocks_regs x s.par
        (g := { g with clen := bitCountAdd g.clen payload.length })
        (bs := (bbCut 16 g.dbuf payload).1) hx fun b => bbCut_block_length
      have hinc : gcmIncBytes s.par ≤ g.ctr.length := by rw [hctr]; exact gcmIncBytes_le _
      have hctr' := (incrIter_length (bbCut 16 g.dbuf payload).1.length hinc).trans hctr
      have hblocks : (bbCut 16 g.dbuf payload).1.length = (g.dbuf.length + payload.length) / 16 := by
        simp [bbCut]
      have hphase : sessionPhase g.phase = true := by rw [hdata]; rfl
      dsimp only
      rw [hregs]
      split
      next hd =>
        have hdec : g.dir ≠ .decrypt := fun hd' => absurd (hd.symm.trans hd') (by decide)
        exact gcmLegal_of_session (gcmSession_putData (g := g) hopen hdata hcount hctr' hacc
          (fun _ => rfl) fun hd' => absurd hd' hdec) hphase
      next hd =>
        have henc : g.dir ≠ .encrypt := fun he => absurd (hd.symm.trans he) (by decide)
        refine gcmLegal_of_session (gcmSession_putData (g := g) hopen hdata hcount hctr' hacc
          (fun he => absurd he henc) fun _ => ?_) hphase
        rw [List.length_append, hout, hblocks]

theorem gcmFinal_keeps_legal (x : Ext) (payload : Bytes) (h : gcmLegal s.par s.gcm) :
    gcmLegal s.par (gcmFinal x payload s).gcm := by
  unfold gcmFinal
  split
  next => exact gcmLegal_raise (gcmLegal_fault_cause h) (by decide)
  next hp =>
    split
    next => exact gcmLegal_raise (gcmLegal_fault_cause h) (by decide)
    next =>
      have hp : sessionPhase s.gcm.phase = true := by simpa using hp
      obtain ⟨-, hdata⟩ := gcmSession_openData ((gcmLegal_iff_session hp).mp h) hp
      dsimp only
      split
      next => exact gcmLegal_done
      next =>
        split
        next =>
          refine gcmLegal_raise (fun hf => ?_) (by decide)
          simp [gcmAbsorb, gcmFlushData_eq, hdata] at hf
        next => exact gcmLegal_done

end Gcm

/-! ## CCM (R43) -/

section Ccm

variable {p : Params} {c : CcmRegs} {s : State}

theorem ccmLegal_reset : ccmLegal p CcmRegs.reset := rfl

theorem ccmLegal_done : ccmLegal p { CcmRegs.reset with phase := .done, err := 0 } := rfl

theorem ccmLegal_iff_session (hp : sessionPhase c.phase = true) :
    ccmLegal p c ↔ ccmSession p c := by
  unfold ccmLegal
  cases h : c.phase <;> simp_all [sessionPhase]

theorem ccmLegal_of_session (h : ccmSession p c) (hp : sessionPhase c.phase = true) :
    ccmLegal p c := (ccmLegal_iff_session hp).mpr h

theorem ccmLegal_fault_cause (h : ccmLegal p c) (hp : c.phase = .fault) : aeadCause c.err := by
  simp only [ccmLegal, hp] at h
  obtain ⟨-, hcause⟩ := h
  exact hcause

theorem ccmLegal_raise {k : Status} {opc : Byte} (hs : s.ccm.phase = .fault → aeadCause s.ccm.err)
    (hk : aeadCause (statusCode k)) : ccmLegal p (raise .ccm k opc s).ccm :=
  ⟨rfl, recordedCause hs hk⟩

/-- The passes of CCM.FINAL write the working registers only. -/
theorem ccm_passes_phase (x : Ext) (pt data : Bytes) (c : CcmRegs) :
    (ccmMac x pt (ccmCtr x data (ccmStart x c)).2).phase = c.phase := by
  rw [ccmCtr, ccmCtrPieces_eq]
  rfl

theorem ccmInit_keeps_legal (d : Dir) (klen tlen : Byte) (payload : Bytes) (s : State) :
    ccmLegal s.par (ccmInit d klen tlen payload s).ccm := by
  unfold ccmInit
  dsimp only
  split
  next => exact ccmLegal_raise (nofun) (by decide)
  next hok =>
    simp only [ccmInitOk, ccmTagLenOk, Bool.not_eq_true', Bool.not_eq_false, Bool.and_eq_true,
      beq_iff_eq, decide_eq_true_eq, keyLenOk_iff] at hok
    obtain ⟨⟨⟨⟨⟨hbl, hle⟩, hkey⟩, hn7⟩, hn13⟩, ⟨ht4, ht16⟩, hteven⟩ := hok
    have hnlen : (BitVec.ofNat 8 (payload.length - klen.toNat)).toNat =
        payload.length - klen.toNat := by
      rw [BitVec.toNat_ofNat, Nat.mod_eq_of_lt (by omega)]
    have hk : (initKey klen payload).length ∈ s.par.keyLens := (initKey_length hle).symm ▸ hkey
    exact ccmLegal_of_session ⟨hbl, rfl, rfl, hk, hn7.trans_eq hnlen.symm, hnlen.trans_le hn13,
      (initIv_length klen payload).trans hnlen.symm, ht4, ht16, hteven, Nat.two_pow_pos _,
      Nat.two_pow_pos _, rfl, rfl, rfl, fun _ => rfl⟩ rfl

theorem ccmAad_keeps_legal (payload : Bytes) (h : ccmLegal s.par s.ccm) :
    ccmLegal s.par (ccmAad payload s).ccm := by
  unfold ccmAad
  split
  next => exact ccmLegal_raise (ccmLegal_fault_cause h) (by decide)
  next hp =>
    split
    next => exact ccmLegal_raise (ccmLegal_fault_cause h) (by decide)
    next hfit =>
      have hsess : sessionPhase s.ccm.phase = true := by rw [not_not.mp hp]; rfl
      obtain ⟨hbl, hkv, herr, hk, hn7, hn13, hn, ht4, ht16, ht, hm, -, hy, ha, hs0, haad⟩ :=
        (ccmLegal_iff_session hsess).mp h
      have hfit := (ccmAadFits_iff _ _).mp (by simpa using hfit)
      exact ccmLegal_of_session ⟨hbl, hkv, herr, hk, hn7, hn13, hn, ht4, ht16, ht, hm,
        List.length_append.trans_lt hfit, hy, ha, hs0, haad⟩ hsess

theorem ccmUpdate_keeps_legal (payload : Bytes) (h : ccmLegal s.par s.ccm) :
    ccmLegal s.par (ccmUpdate payload s).ccm := by
  unfold ccmUpdate
  split
  next => exact ccmLegal_raise (ccmLegal_fault_cause h) (by decide)
  next hp =>
    split
    next => exact ccmLegal_raise (ccmLegal_fault_cause h) (by decide)
    next hfit =>
      obtain ⟨hbl, hkv, herr, hk, hn7, hn13, hn, ht4, ht16, ht, -, has, hy, ha, hs0, -⟩ :=
        (ccmLegal_iff_session (by simpa using hp)).mp h
      have hfit := (ccmMsgFits_iff _ _).mp (by simpa using hfit)
      exact ccmLegal_of_session ⟨hbl, hkv, herr, hk, hn7, hn13, hn, ht4, ht16, ht,
        List.length_append.trans_lt hfit, has, hy, ha, hs0, nofun⟩ rfl

theorem ccmFinal_keeps_legal (x : Ext) (payload : Bytes) (h : ccmLegal s.par s.ccm) :
    ccmLegal s.par (ccmFinal x payload s).ccm := by
  unfold ccmFinal
  split
  next => exact ccmLegal_raise (ccmLegal_fault_cause h) (by decide)
  next hp =>
    split
    next => exact ccmLegal_raise (ccmLegal_fault_cause h) (by decide)
    next =>
      have hp : sessionPhase s.ccm.phase = true := by simpa using hp
      dsimp only
      split
      next => exact ccmLegal_done
      next =>
        split
        next =>
          refine ccmLegal_raise (fun hf => ?_) (by decide)
          exact absurd ((ccm_passes_phase x _ _ s.ccm).symm.trans hf) (ne_fault_of_sessionPhase hp)
        next => exact ccmLegal_done

end Ccm

/-! ## MAC (R51) -/

section Mac

variable {p : Params} {m : MacRegs} {s : State}

/-- The causes that can put `MAC` into `FAULT`. -/
abbrev macCause (e : Byte) : Prop := e = 1 ∨ e = 5

/-- `MAC` in `READY` (R51), the clause of `macLegal` under a name. -/
def macReady (p : Params) (m : MacRegs) : Prop :=
  m.kv = true ∧ m.err = 0 ∧ m.k.length ∈ p.keyLens ∧ macSubkeysDerived p m ∧
  1 ≤ m.tlen.toNat ∧ m.tlen.toNat ≤ p.blockLen.bytes ∧
  m.x.length = p.blockLen.bytes ∧ m.held.length = p.blockLen.bytes ∧
  m.buf.length < p.blockLen.bytes ∧
  (m.heldv = false → m.x = zeros p.blockLen.bytes ∧ m.held = zeros p.blockLen.bytes)

theorem macLegal_reset : macLegal p (MacRegs.reset p.blockLen) := rfl

theorem macLegal_iff_ready (hp : m.phase = .ready) : macLegal p m ↔ macReady p m := by
  simp only [macLegal, macReady, hp]

theorem macLegal_of_ready (h : macReady p m) (hp : m.phase = .ready) : macLegal p m :=
  (macLegal_iff_ready hp).mpr h

theorem macLegal_fault_cause (h : macLegal p m) (hp : m.phase = .fault) : macCause m.err := by
  simp only [macLegal, hp] at h
  obtain ⟨-, hcause⟩ := h
  exact hcause

theorem macLegal_raise {k : Status} {opc : Byte} (hs : s.mac.phase = .fault → macCause s.mac.err)
    (hk : macCause (statusCode k)) : macLegal s.par (raise .mac k opc s).mac :=
  ⟨rfl, recordedCause hs hk⟩

/-- Derivation writes the subkeys and the chain key only (R232). -/
theorem macDerive_regs (x : Ext) (p : Params) (m : MacRegs) :
    ∃ kc l k1 k2 k3, macDerive x p m = { m with kc := kc, l := l, k1 := k1, k2 := k2, k3 := k3 } := by
  unfold macDerive
  split
  · exact ⟨_, _, _, _, _, rfl⟩
  · exact ⟨_, _, _, _, _, rfl⟩
  · exact ⟨_, _, _, _, _, rfl⟩

/-- What derivation writes is what R232 derives from `MAC.K`. -/
theorem macSubkeysDerived_macDerive (p : Params) (m : MacRegs) :
    macSubkeysDerived p (macDerive Config.ext p m) := by
  cases hv : m.var <;>
    simp [macDerive, macSubkeysDerived, hv, macDeriveCmac, macDeriveOmac2, macDeriveXcbc]

/-- A keyed unit with its accumulator reset is ready (R236). -/
theorem macReady_resetAcc (hkv : m.kv = true) (herr : m.err = 0) (hk : m.k.length ∈ p.keyLens)
    (hsub : macSubkeysDerived p m) (ht1 : 1 ≤ m.tlen.toNat)
    (ht : m.tlen.toNat ≤ p.blockLen.bytes) : macReady p (macResetAcc p.blockLen m) :=
  ⟨hkv, herr, hk, hsub, ht1, ht, zeros_length _, zeros_length _, p.blockLen.bytes_pos,
    fun _ => ⟨rfl, rfl⟩⟩

theorem cbcMac_length (x : Ext) (bl : BlockLen) (k : Bytes) {v : Bytes} (bs : List Bytes)
    (h : v.length = bl.bytes) : (cbcMac x bl k v bs).length = bl.bytes := by
  induction bs generalizing v with
  | nil => exact h
  | cons b bs ih => exact ih (cbcEncStep_length _ _ _ _ _)

/-- Putting message bytes keeps the unit ready (R233, R234). -/
theorem macReady_macPut (x : Ext) (data : Bytes) (h : macReady p m) :
    macReady p (macPut x p.blockLen data m) := by
  obtain ⟨hkv, herr, hk, hsub, ht1, ht, hx, hheld, -, hempty⟩ := h
  have hblock : ∀ b ∈ macWaiting m ++ fullBlocks p.blockLen.bytes (m.buf ++ data),
      b.length = p.blockLen.bytes := by
    intro b hb
    rcases List.mem_append.mp hb with hw | hf
    · cases hv : m.heldv
      · simp [hv] at hw
      · simp only [macWaiting_true hv, List.mem_singleton] at hw
        rw [hw, hheld]
    · exact mem_fullBlocks_length hf
  rw [macPut_eq]
  refine ⟨hkv, herr, hk, hsub, ht1, ht, cbcMac_length _ _ _ _ hx, ?_,
    remainder_length_lt p.blockLen.bytes_pos _, fun hv => ?_⟩
  · dsimp only
    by_cases hw : macWaiting m ++ fullBlocks p.blockLen.bytes (m.buf ++ data) = []
    · rw [hw]
      exact hheld
    · rw [List.getLastD_eq_getLast?, List.getLast?_eq_some_getLast hw]
      exact hblock _ (List.getLast_mem hw)
  · have hw : macWaiting m ++ fullBlocks p.blockLen.bytes (m.buf ++ data) = [] := by simpa using hv
    have hnone : m.heldv = false := by
      cases hv' : m.heldv
      · rfl
      · simp [macWaiting_true hv'] at hw
    dsimp only
    rw [hw]
    exact hempty hnone

/-- Finalising leaves a ready unit with its accumulator reset (R235, R236). -/
theorem macReady_macFinalize (x : Ext) (h : macReady p m) :
    macReady p (macFinalize x p.blockLen m).2 := by
  obtain ⟨hkv, herr, hk, hsub, ht1, ht, -⟩ := h
  rw [macFinalize_regs]
  exact macReady_resetAcc hkv herr hk hsub ht1 ht

theorem macFinalize_phase (x : Ext) (bl : BlockLen) (m : MacRegs) :
    (macFinalize x bl m).2.phase = .ready := by rw [macFinalize_regs]

theorem macInit_keeps_legal (vv : Variant) (klen tlen : Byte) (payload : Bytes) (s : State) :
    macLegal s.par (macInit Config.ext vv klen tlen payload s).mac := by
  unfold macInit
  dsimp only
  split
  next => exact macLegal_raise (nofun) (by decide)
  next hok =>
    simp only [macInitOk, Bool.not_eq_true', Bool.not_eq_false, Bool.and_eq_true, beq_iff_eq,
      decide_eq_true_eq, keyLenOk_iff] at hok
    obtain ⟨⟨⟨⟨hlen, hkey⟩, -⟩, ht1⟩, ht⟩ := hok
    have hsub := macSubkeysDerived_macDerive s.par
      { (resetUnit .mac s).mac with k := payload, var := vv, tlen := tlen }
    obtain ⟨kc, l, k1, k2, k3, hregs⟩ := macDerive_regs Config.ext s.par
      { (resetUnit .mac s).mac with k := payload, var := vv, tlen := tlen }
    rw [hregs] at hsub ⊢
    exact macLegal_of_ready (macReady_resetAcc rfl rfl (hlen ▸ hkey) hsub ht1 ht) rfl

theorem macUpdate_keeps_legal (x : Ext) (payload : Bytes) (h : macLegal s.par s.mac) :
    macLegal s.par (macUpdate x payload s).mac := by
  unfold macUpdate
  split
  next => exact macLegal_raise (macLegal_fault_cause h) (by decide)
  next hp =>
    have hp : s.mac.phase = .ready := not_not.mp hp
    exact macLegal_of_ready (macReady_macPut x payload ((macLegal_iff_ready hp).mp h))
      (by rw [macPut_eq]; exact hp)

theorem macSign_keeps_legal (x : Ext) (payload : Bytes) (h : macLegal s.par s.mac) :
    macLegal s.par (macSign x payload s).mac := by
  unfold macSign
  split
  next => exact macLegal_raise (macLegal_fault_cause h) (by decide)
  next hp =>
    have hready := (macLegal_iff_ready (not_not.mp hp)).mp h
    exact macLegal_of_ready (macReady_macFinalize x (macReady_macPut x payload hready))
      (macFinalize_phase _ _ _)

theorem macVerify_keeps_legal (x : Ext) (payload : Bytes) (h : macLegal s.par s.mac) :
    macLegal s.par (macVerify x payload s).mac := by
  unfold macVerify
  split
  next => exact macLegal_raise (macLegal_fault_cause h) (by decide)
  next hp =>
    have hfinal : macLegal s.par (macFinalize x s.par.blockLen s.mac).2 :=
      macLegal_of_ready (macReady_macFinalize x ((macLegal_iff_ready (not_not.mp hp)).mp h))
        (macFinalize_phase _ _ _)
    dsimp only
    split
    next => exact hfinal
    next => exact hfinal

end Mac

/-! ## The whole state -/

/-- The invariant of one unit. -/
def unitLegal (u : UnitId) (s : State) : Prop :=
  match u with
  | .bb0 => bbLegal s.bb0
  | .gcm => gcmLegal s.par s.gcm
  | .ccm => ccmLegal s.par s.ccm
  | .mac => macLegal s.par s.mac

theorem inv_iff_unitLegal (s : State) : Inv s ↔ paramsLegal s.par ∧ ∀ u, unitLegal u s := by
  constructor
  · rintro ⟨hp, hb, hg, hc, hm⟩
    refine ⟨hp, fun u => ?_⟩
    cases u
    · exact hb
    · exact hg
    · exact hc
    · exact hm
  · rintro ⟨hp, h⟩
    exact ⟨hp, h .bb0, h .gcm, h .ccm, h .mac⟩

/-- A unit's invariant speaks of its registers and the parameters only. -/
theorem unitLegal_congr {u : UnitId} {s t : State} (hu : sameUnit u s t) (hp : t.par = s.par)
    (h : unitLegal u s) : unitLegal u t := by
  cases u <;> simp_all [sameUnit, unitLegal]

/-- With every unit at reset the state is legal (R63). -/
theorem inv_of_reset_units {s : State} (hp : paramsLegal s.par) (hb : s.bb0 = BbRegs.reset)
    (hg : s.gcm = GcmRegs.reset) (hc : s.ccm = CcmRegs.reset)
    (hm : s.mac = MacRegs.reset s.par.blockLen) : Inv s :=
  ⟨hp, hb ▸ bbLegal_reset, hg ▸ gcmLegal_reset, hc ▸ ccmLegal_reset, hm ▸ macLegal_reset⟩

/-- A command keeps the invariant of the unit it addresses. -/
theorem exec_keeps_own_unit {i : Instr} {u : UnitId} {s t : State} (hu : unitOf i = some u)
    (hs : unitLegal u s) (h : exec i s = .next t) : unitLegal u t := by
  have hpar : t.par = s.par := exec_par h
  cases i <;> cases hu <;> cases h <;> simp only [unitLegal, hpar] at hs ⊢
  case bbOpen blen => exact bbOpen_keeps_legal blen s
  case bbPut p => exact bbPut_keeps_legal Config.ext p hs
  case bbFlush => exact bbFlush_keeps_legal Config.ext hs
  case gcmInit d k n p => exact gcmInit_keeps_legal d k n p s
  case gcmAad p => exact gcmAad_keeps_legal p hs
  case gcmUpdate p => exact gcmUpdate_keeps_legal Config.ext p hs
  case gcmFinal p => exact gcmFinal_keeps_legal Config.ext p hs
  case ccmInit d k n p => exact ccmInit_keeps_legal d k n p s
  case ccmAad p => exact ccmAad_keeps_legal p hs
  case ccmUpdate p => exact ccmUpdate_keeps_legal p hs
  case ccmFinal p => exact ccmFinal_keeps_legal Config.ext p hs
  case macInit v k n p => exact macInit_keeps_legal v k n p s
  case macUpdate p => exact macUpdate_keeps_legal Config.ext p hs
  case macSign p => exact macSign_keeps_legal Config.ext p hs
  case macVerify p => exact macVerify_keeps_legal Config.ext p hs

/-- A command of a unit keeps every unit's invariant: its own by its meaning, the others' because it
leaves them alone (R22). -/
theorem exec_unit_keeps_inv {i : Instr} {u : UnitId} {s t : State} (hu : unitOf i = some u)
    (hs : Inv s) (h : exec i s = .next t) : Inv t := by
  rw [inv_iff_unitLegal] at hs ⊢
  obtain ⟨hparams, hunits⟩ := hs
  obtain ⟨hothers, hpar, -, -⟩ := commandsLeaveOtherUnitsAlone i u s t hu h
  refine ⟨hpar ▸ hparams, fun v => ?_⟩
  by_cases hv : v = u
  · exact hv ▸ exec_keeps_own_unit hu (hunits u) h
  · exact unitLegal_congr (hothers v hv) hpar (hunits v)

/-- Every command keeps the state legal; SYS.RESET puts every unit at reset, SYS.STATUS changes no
register (R261, R262). -/
theorem exec_keeps_inv {i : Instr} {s t : State} (hs : Inv s) (h : exec i s = .next t) : Inv t := by
  cases hu : unitOf i with
  | some u => exact exec_unit_keeps_inv hu hs h
  | none =>
    cases i
    case sysReset =>
      cases h
      obtain ⟨hparams, -⟩ := hs
      exact inv_of_reset_units hparams rfl rfl rfl rfl
    case sysStatus =>
      cases h
      exact hs
    all_goals cases hu

/-- Settles O10: every unit stands at reset, and the parameters are in range. -/
theorem resetStateIsLegal : Obligations.ResetStateIsLegal := by
  refine inv_of_reset_units ?_ rfl rfl rfl rfl
  simp [paramsLegal, State.reset, Params.specDefault]

/-- Settles O11: waiting and the answer to an illegal frame change no register, and every command
keeps the invariant of each unit. -/
theorem everyStepKeepsTheStateLegal : Obligations.EveryStepKeepsTheStateLegal := by
  intro s t hs h
  obtain ⟨-, rfl⟩ | ⟨i, rest, -, he⟩ | ⟨opc, why, rest, -, rfl⟩ := step_cases h
  · exact hs
  · exact exec_keeps_inv (s := consumeTo rest s) hs he
  · exact hs

/-! ## Values at reset and codes -/

/-- Settles O12: the reset values of R63, the block-wide registers of `MAC` as wide as the block. -/
theorem resetClearsEveryRegister : Obligations.ResetClearsEveryRegister :=
  ⟨rfl, rfl, rfl, zeros State.reset.par.blockLen.bytes, rfl, rfl⟩

/-- Settles O13: both tables of codes, evaluated. -/
theorem phaseAndStatusCodes : Obligations.PhaseAndStatusCodes := ⟨rfl, rfl⟩

end Sys2Proof.Machine
end

section
/-! A stream through `BB0` (spec/40_blockbuffer.md R120 to R132): what the BB.PUT commands and the
BB.FLUSH put on the sink port depends on the bytes, not on how they are cut (R124). -/

namespace Sys2Proof.Machine

/-- The sink acknowledges the next events, one `WRITE` for each block in order (R126). -/
def acksWrites (x : Ext) (bs : List Bytes) (s : State) : Prop :=
  ∀ j, (hj : j < bs.length) → sinkAnswerAt x s j ⟨.write, bs[j]⟩ = 0

/-- The state after `p` BB.PUT commands that delivered the blocks `bs` and left the carry `rest`. -/
def bbForwarded (p : Nat) (bs : List Bytes) (rest : Bytes) (s : State) : State :=
  { s with
    bb0 := { s.bb0 with carry := rest }
    sinkOut := s.sinkOut ++ bs.map fun b => ⟨⟨.write, b⟩, 0⟩
    sinkIn := s.sinkIn.drop bs.length
    respOut := s.respOut ++ List.replicate p ⟨.ok, opcBbPut, phaseCode s.bb0.phase, []⟩ }

section Stream

variable {x : Ext} {s : State}

/-! ## The two commands on an open buffer whose events are acknowledged -/

/-- BB.PUT delivers every full block of carry and payload and keeps the remainder (R121, R131). -/
theorem bbPut_all_ack {payload : Bytes} (hp : s.bb0.phase = .ready)
    (h : acksWrites x (fullBlocks s.bb0.blen.toNat (s.bb0.carry ++ payload)) s) :
    bbPut x payload s =
      bbForwarded 1 (fullBlocks s.bb0.blen.toNat (s.bb0.carry ++ payload))
        (remainder s.bb0.blen.toNat (s.bb0.carry ++ payload)) s := by
  have hemit := emitWrites_all_ack x _ s h
  rw [bbPut, if_neg (not_not.mpr hp)]
  simp only [bbCut, hemit]
  rfl

/-- BB.FLUSH delivers the carry in one event and empties it (R122, R132). -/
theorem bbFlush_ack (hp : s.bb0.phase = .ready)
    (h : sinkAnswerAt x s 0 ⟨.flush, s.bb0.carry⟩ = 0) :
    bbFlush x s = { s with
      bb0 := { s.bb0 with carry := [] }
      sinkOut := s.sinkOut ++ [⟨⟨.flush, s.bb0.carry⟩, 0⟩]
      sinkIn := s.sinkIn.tail
      respOut := s.respOut ++ [⟨.ok, opcBbFlush, phaseCode s.bb0.phase, []⟩] } := by
  rw [bbFlush, if_neg (not_not.mpr hp), emit_eq, h]
  rfl

/-! ## Several BB.PUT commands -/

/-- After `bs` the sink gives the answers it would have given that many events later. -/
theorem sinkAnswerAt_bbForwarded (p : Nat) (bs : List Bytes) (rest : Bytes) (n : Nat)
    (ev : SinkEvent) :
    sinkAnswerAt x (bbForwarded p bs rest s) n ev = sinkAnswerAt x s (bs.length + n) ev := by
  simp [sinkAnswerAt, bbForwarded, Nat.add_assoc]

theorem acksWrites_of_append_left {as bs : List Bytes} (h : acksWrites x (as ++ bs) s) :
    acksWrites x as s := fun j hj => by
  have hack := h j (by simp; omega)
  rwa [List.getElem_append_left hj] at hack

/-- A sink that acknowledges `as` and then `bs` acknowledges `bs` once `as` is delivered. -/
theorem acksWrites_bbForwarded {as bs : List Bytes} (h : acksWrites x (as ++ bs) s) (p : Nat)
    (rest : Bytes) : acksWrites x bs (bbForwarded p as rest s) := fun j hj => by
  have hack := h (as.length + j) (by simp; omega)
  rw [List.getElem_append_right (Nat.le_add_right _ _)] at hack
  rw [sinkAnswerAt_bbForwarded]
  simpa using hack

/-- Delivering in two parts is delivering at once; only the last carry stays. -/
theorem bbForwarded_bbForwarded (p q : Nat) (as bs : List Bytes) (r r' : Bytes) :
    bbForwarded q bs r' (bbForwarded p as r s) = bbForwarded (p + q) (as ++ bs) r' s := by
  simp [bbForwarded, List.replicate_append_replicate]

/-- Nothing is delivered by no command. -/
theorem bbForwarded_zero : bbForwarded 0 [] s.bb0.carry s = s := by
  simp [bbForwarded]

theorem execAll_cons_bbPut (d : Bytes) (is : List Instr) :
    execAll (.bbPut d :: is) s = execAll is (bbPut Config.ext d s) := rfl

/-- BB.PUT of the pieces, every event acknowledged, is one cut of the carry and all their bytes,
whatever command follows (R124). -/
theorem execAll_bbPuts (ds : List Bytes) (is : List Instr) (hp : s.bb0.phase = .ready)
    (hc : s.bb0.carry.length < s.bb0.blen.toNat)
    (h : acksWrites Config.ext (fullBlocks s.bb0.blen.toNat (s.bb0.carry ++ ds.flatten)) s) :
    execAll (ds.map Instr.bbPut ++ is) s =
      execAll is (bbForwarded ds.length
        (fullBlocks s.bb0.blen.toNat (s.bb0.carry ++ ds.flatten))
        (remainder s.bb0.blen.toNat (s.bb0.carry ++ ds.flatten)) s) := by
  induction ds generalizing s with
  | nil =>
    rw [List.flatten_nil, List.append_nil, fullBlocks_of_lt hc, remainder_of_lt hc]
    exact congrArg (execAll is) bbForwarded_zero.symm
  | cons d ds ih =>
    rw [List.flatten_cons, ← List.append_assoc] at h ⊢
    rw [fullBlocks_append] at h ⊢
    have hput := bbPut_all_ack hp (acksWrites_of_append_left h)
    have hrest := remainder_length_lt (Nat.zero_lt_of_lt hc) (s.bb0.carry ++ d)
    have hds := ih (s := bbForwarded 1 _ (remainder _ (s.bb0.carry ++ d)) s) hp hrest
      (acksWrites_bbForwarded h 1 _)
    rw [List.map_cons, List.cons_append, execAll_cons_bbPut, hput]
    refine hds.trans (congrArg (execAll is) ?_)
    rw [bbForwarded_bbForwarded, ← remainder_append (s.bb0.carry ++ d), List.length_cons,
      Nat.add_comm 1]
    rfl

end Stream

/-- Settles O31, from the cut of all the pieces at once (`execAll_bbPuts`) and one flush. -/
theorem bbStreamEmitsTheWholeSequence : Obligations.BbStreamEmitsTheWholeSequence := by
  rintro ds m n k s hp hcarry rfl hn rfl rfl hwrites hflush
  have hacks : acksWrites Config.ext (fullBlocks s.bb0.blen.toNat ds.flatten) s := by
    intro j hj
    simpa [fullBlocks_eq_slices] using hwrites j (by simpa using hj)
  have hputs := execAll_bbPuts ds [.bbFlush] hp (by simpa [hcarry] using hn)
    (by simpa [hcarry] using hacks)
  rw [hcarry, List.nil_append] at hputs
  have hdone := bbFlush_ack (x := Config.ext)
    (s := bbForwarded ds.length (fullBlocks s.bb0.blen.toNat ds.flatten)
      (remainder s.bb0.blen.toNat ds.flatten) s) hp
    (by rw [sinkAnswerAt_bbForwarded, fullBlocks_length]; exact hflush)
  refine ⟨_, hputs.trans (congrArg Host.Outcome.next hdone), ?_, ?_, ?_⟩
  · simp [bbForwarded, ← hcarry]
  · intro r hr
    simp only [bbForwarded, List.append_assoc, List.drop_left, List.mem_append,
      List.mem_replicate, List.mem_singleton] at hr
    rcases hr with ⟨-, rfl⟩ | rfl <;> rfl
  · simp [bbForwarded, fullBlocks_eq_slices, remainder]

end Sys2Proof.Machine
end

section
/-! The command frame (spec/30_encoding.md R91 to R100). A header is read back from its eight bytes,
and the decoder answers a command exactly when the header and the payload are those of the command's
frame. -/

namespace Sys2Proof

/-! ## The eight header bytes (R91) -/

/-- The header as it stands on the port, byte 0 first (R72, R91). -/
def Header.bytes (h : Header) : Bytes := [h.opc, h.arg0, h.arg1, h.arg2] ++ beN 4 h.len

/-- A frame is its header's bytes and the payload. -/
theorem encode_eq (i : Instr) : encode i = (headerOf i).bytes ++ i.payload := rfl

theorem takeHeader_of_short {stream : Bytes} (h : stream.length < 8) : takeHeader stream = none := by
  unfold takeHeader
  split
  next => simp at h; omega
  next => rfl

/-- Reading a header undoes writing one whose `LEN` fits 32 bits (R91, R100). -/
theorem takeHeader_bytes_append {h : Header} (body : Bytes) (hlen : h.len < 2 ^ 32) :
    takeHeader (h.bytes ++ body) = some (h, body) := by
  have hback : intBe (beN 4 h.len) = h.len := by
    rw [intBe_beN, Nat.mod_eq_of_lt (by omega)]
  obtain ⟨opc, a0, a1, a2, len⟩ := h
  exact congrArg (fun n => some (Header.mk opc a0 a1 a2 n, body)) hback

/-- A header read from a stream stands at its front, and its `LEN` fits 32 bits. -/
theorem eq_bytes_append_of_takeHeader {stream body : Bytes} {h : Header}
    (ht : takeHeader stream = some (h, body)) : h.len < 2 ^ 32 ∧ stream = h.bytes ++ body := by
  unfold takeHeader at ht
  split at ht
  next o a0 a1 a2 l3 l2 l1 l0 rest =>
    cases ht
    have hlt := intBe_lt [l3, l2, l1, l0]
    have hback := beN_intBe [l3, l2, l1, l0]
    simp only [List.length_cons, List.length_nil] at hlt hback
    refine ⟨hlt, ?_⟩
    rw [Header.bytes, hback]
    rfl
  next => cases ht

/-! ## The fetched frame (R100) -/

theorem fetchFrame_of_short_header {stream : Bytes} (h : stream.length < 8) :
    fetchFrame stream = .wait := by
  rw [fetchFrame, takeHeader_of_short h]

theorem fetchFrame_of_short_body {stream body : Bytes} {h : Header}
    (ht : takeHeader stream = some (h, body)) (hb : body.length < h.len) :
    fetchFrame stream = .wait := by
  simp only [fetchFrame, ht, if_pos hb]

/-- What the front of the port is, once a whole frame has come, as the decoder reads the header. -/
def Fetched.ofDecoded (opc : Byte) (rest : Bytes) : Except Reject Instr → Fetched
  | .ok i => .command i rest
  | .error e => .illegal opc e rest

/-- A whole frame on the port is what the decoder reads from its header and payload. -/
theorem fetchFrame_of_whole {stream payload rest : Bytes} {h : Header}
    (ht : takeHeader stream = some (h, payload ++ rest)) (hl : payload.length = h.len) :
    fetchFrame stream = .ofDecoded h.opc rest (decodeCommand h payload) := by
  have hwhole : ¬ (payload ++ rest).length < h.len := by simp [hl]
  simp only [fetchFrame, ht, if_neg hwhole]
  rw [← hl, List.take_left, List.drop_left]
  cases decodeCommand h payload with
  | ok i => rfl
  | error e => rfl

/-- A command read from a stream comes from a whole frame at its front. -/
theorem whole_of_fetchFrame {stream rest : Bytes} {i : Instr}
    (hf : fetchFrame stream = .command i rest) :
    ∃ h payload, takeHeader stream = some (h, payload ++ rest) ∧ payload.length = h.len ∧
      decodeCommand h payload = .ok i := by
  unfold fetchFrame at hf
  split at hf
  next => cases hf
  next h body ht =>
    split at hf
    next => cases hf
    next hwhole =>
      split at hf
      next j hd =>
        cases hf
        exact ⟨h, body.take h.len, by rw [List.take_append_drop]; exact ht,
          List.length_take_of_le (Nat.le_of_not_lt hwhole), hd⟩
      next => cases hf

/-! ## The decoder (R93, R94, R97) -/

/-- The commands whose frame has no payload: their `LEN` must be zero (R93). -/
def Instr.lenMustBeZero : Instr → Bool
  | .sysReset | .sysStatus | .bbOpen _ | .bbFlush => true
  | .bbPut _ | .gcmInit .. | .gcmAad _ | .gcmUpdate _ | .gcmFinal _ | .ccmInit .. | .ccmAad _
  | .ccmUpdate _ | .ccmFinal _ | .macInit .. | .macUpdate _ | .macSign _ | .macVerify _ => false

theorem Instr.payload_of_lenMustBeZero {i : Instr} (h : i.lenMustBeZero = true) :
    i.payload = [] := by
  cases i <;> cases h <;> rfl

/-- The header and the payload are `i`'s: its opcode, its operands, and its payload or, for a command
without one, `LEN = 0` (R93, R97). -/
def Selected (h : Header) (payload : Bytes) (i : Instr) : Prop :=
  h.opc = opcodeOf i ∧ (h.arg0, h.arg1, h.arg2) = argsOf i ∧
    if i.lenMustBeZero then h.len = 0 else i.payload = payload

/-- The opcode bytes of R97 as numerals, for `simp`. -/
theorem opcode_numerals :
    (opcSysReset = 0x01 ∧ opcSysStatus = 0x02) ∧
    (opcBbOpen = 0x10 ∧ opcBbPut = 0x11 ∧ opcBbFlush = 0x12) ∧
    (opcGcmInit = 0x30 ∧ opcGcmAad = 0x31 ∧ opcGcmUpdate = 0x32 ∧ opcGcmFinal = 0x33) ∧
    (opcCcmInit = 0x40 ∧ opcCcmAad = 0x41 ∧ opcCcmUpdate = 0x42 ∧ opcCcmFinal = 0x43) ∧
    (opcMacInit = 0x50 ∧ opcMacUpdate = 0x51 ∧ opcMacSign = 0x52 ∧ opcMacVerify = 0x53) := by decide

/-- The two nibbles determine `OPC` (R91, R92). -/
theorem Header.opc_eq {h : Header} {u o : Nat} (hu : h.unit = u) (ho : h.op = o) :
    h.opc = BitVec.ofNat 8 (16 * u + o) := by
  subst hu ho
  rw [Header.unit, Header.op, Nat.div_add_mod, BitVec.ofNat_toNat, BitVec.setWidth_eq]

theorem decodeDir_eq_ok_iff {a : Byte} {d : Dir} : decodeDir a = .ok d ↔ a = dirByte d := by
  unfold decodeDir
  cases d <;> split_ifs <;> simp_all [dirByte]

theorem decodeVariant_eq_ok_iff {a : Byte} {v : Variant} :
    decodeVariant a = .ok v ↔ a = variantByte v := by
  unfold decodeVariant
  cases v <;> split_ifs <;> simp_all [variantByte]

theorem decodeDir_dirByte (d : Dir) : decodeDir (dirByte d) = .ok d := decodeDir_eq_ok_iff.mpr rfl

theorem decodeVariant_variantByte (v : Variant) : decodeVariant (variantByte v) = .ok v :=
  decodeVariant_eq_ok_iff.mpr rfl

section Selecting

variable {h : Header} {payload : Bytes} {i j : Instr}

theorem selected_of_needZeroArgs (hd : needZeroArgs h j = .ok i) (hopc : h.opc = opcodeOf j)
    (hargs : argsOf j = (0, 0, 0)) (hlen : j.lenMustBeZero = false) (hp : j.payload = payload) :
    Selected h payload i := by
  unfold needZeroArgs at hd
  split at hd
  next hz =>
    obtain ⟨h0, h1, h2⟩ := hz
    cases hd
    simp [Selected, hopc, hargs, hlen, hp, h0, h1, h2]
  next => cases hd

theorem selected_of_needZeroArgsLen (hd : needZeroArgsLen h j = .ok i) (hopc : h.opc = opcodeOf j)
    (hargs : argsOf j = (0, 0, 0)) (hlen : j.lenMustBeZero = true) : Selected h payload i := by
  unfold needZeroArgsLen at hd
  split at hd
  next hz =>
    obtain ⟨h0, h1, h2, hl⟩ := hz
    cases hd
    simp [Selected, hopc, hargs, hlen, h0, h1, h2, hl]
  next => cases hd

/-- A command the decoder answers is the one whose frame has this header and this payload. -/
theorem selected_of_decodeCommand (hd : decodeCommand h payload = .ok i) :
    Selected h payload i := by
  unfold decodeCommand at hd
  split at hd
  next hu =>
    split at hd
    next ho => exact selected_of_needZeroArgsLen hd (h.opc_eq hu ho) rfl rfl
    next ho => exact selected_of_needZeroArgsLen hd (h.opc_eq hu ho) rfl rfl
    next => cases hd
  next hu =>
    split at hd
    next ho =>
      split at hd
      next hz =>
        obtain ⟨h1, h2, hl⟩ := hz
        cases hd
        exact ⟨h.opc_eq hu ho, by rw [h1, h2]; rfl, hl⟩
      next => cases hd
    next ho => exact selected_of_needZeroArgs hd (h.opc_eq hu ho) rfl rfl rfl
    next ho => exact selected_of_needZeroArgsLen hd (h.opc_eq hu ho) rfl rfl
    next => cases hd
  next hu =>
    split at hd
    next ho =>
      split at hd
      next d hdir =>
        cases hd
        exact ⟨h.opc_eq hu ho, by rw [decodeDir_eq_ok_iff.mp hdir]; rfl, rfl⟩
      next => cases hd
    next ho => exact selected_of_needZeroArgs hd (h.opc_eq hu ho) rfl rfl rfl
    next ho => exact selected_of_needZeroArgs hd (h.opc_eq hu ho) rfl rfl rfl
    next ho => exact selected_of_needZeroArgs hd (h.opc_eq hu ho) rfl rfl rfl
    next => cases hd
  next hu =>
    split at hd
    next ho =>
      split at hd
      next d hdir =>
        cases hd
        exact ⟨h.opc_eq hu ho, by rw [decodeDir_eq_ok_iff.mp hdir]; rfl, rfl⟩
      next => cases hd
    next ho => exact selected_of_needZeroArgs hd (h.opc_eq hu ho) rfl rfl rfl
    next ho => exact selected_of_needZeroArgs hd (h.opc_eq hu ho) rfl rfl rfl
    next ho => exact selected_of_needZeroArgs hd (h.opc_eq hu ho) rfl rfl rfl
    next => cases hd
  next hu =>
    split at hd
    next ho =>
      split at hd
      next v hvar =>
        cases hd
        exact ⟨h.opc_eq hu ho, by rw [decodeVariant_eq_ok_iff.mp hvar]; rfl, rfl⟩
      next => cases hd
    next ho => exact selected_of_needZeroArgs hd (h.opc_eq hu ho) rfl rfl rfl
    next ho => exact selected_of_needZeroArgs hd (h.opc_eq hu ho) rfl rfl rfl
    next ho => exact selected_of_needZeroArgs hd (h.opc_eq hu ho) rfl rfl rfl
    next => cases hd
  next => cases hd

/-- The decoder answers the command whose header and payload it is given. -/
theorem decodeCommand_of_selected (hs : Selected h payload i) : decodeCommand h payload = .ok i := by
  obtain ⟨opc, a0, a1, a2, len⟩ := h
  obtain ⟨hopc, hargs, hlast⟩ := hs
  dsimp only at hopc hargs hlast
  subst hopc
  cases i <;> cases hargs <;> cases hlast <;>
    simp [decodeCommand, Header.unit, Header.op, opcodeOf, opcode_numerals, needZeroArgs,
      needZeroArgsLen, decodeDir_dirByte, decodeVariant_variantByte, Instr.payload]

/-- With as many payload bytes as `LEN` says, the header and the payload are those of the command's
own frame and no other (R91, R93). -/
theorem selected_iff_of_length (hl : payload.length = h.len) :
    Selected h payload i ↔ h = headerOf i ∧ payload = i.payload := by
  obtain ⟨opc, a0, a1, a2, len⟩ := h
  dsimp only at hl
  subst hl
  cases hz : i.lenMustBeZero
  · simp only [Selected, headerOf, hz, Prod.ext_iff, Header.mk.injEq, Bool.false_eq_true, if_false]
    grind
  · have hp := i.payload_of_lenMustBeZero hz
    simp only [Selected, headerOf, hz, hp, Prod.ext_iff, Header.mk.injEq, if_true]
    grind

end Selecting

end Sys2Proof

namespace Sys2Proof.Machine

/-! ## Reading back what was written -/

/-- Settles O1: the eight bytes of the header are read back, and the decoder answers the command whose
header and payload stand there. -/
theorem decodeOfEncodeGivesTheCommand : Obligations.DecodeOfEncodeGivesTheCommand := by
  intro i rest hwf
  have ht : takeHeader (encode i ++ rest) = some (headerOf i, i.payload ++ rest) := by
    rw [encode_eq, List.append_assoc, takeHeader_bytes_append _ hwf]
  have hd : decodeCommand (headerOf i) i.payload = .ok i :=
    decodeCommand_of_selected ((selected_iff_of_length rfl).mpr ⟨rfl, rfl⟩)
  rw [fetchFrame_of_whole ht rfl, hd]
  rfl

/-- Settles O2: the header read stands at the front of the stream, and it and the payload are those of
the command decoded. -/
theorem encodeOfDecodedFrameGivesTheFrame : Obligations.EncodeOfDecodedFrameGivesTheFrame := by
  intro stream i rest hf
  obtain ⟨h, payload, ht, hl, hd⟩ := whole_of_fetchFrame hf
  obtain ⟨hlt, hstream⟩ := eq_bytes_append_of_takeHeader ht
  obtain ⟨rfl, rfl⟩ := (selected_iff_of_length hl).mp (selected_of_decodeCommand hd)
  exact ⟨hlt, by rw [hstream, encode_eq, List.append_assoc]⟩

/-- Settles O4: each sample is the frame that `encode` gives for its command, and is read back. -/
theorem sampleFramesDecode : Obligations.SampleFramesDecode :=
  ⟨by decide, by decide, by decide, by decide, by decide, by decide, by decide⟩

end Sys2Proof.Machine
end

section
/-! The opcode map as match and mask (spec/30_encoding.md R97): a mask works on the fields of the header
one by one, and a row selects a header exactly when the decoder reads the row's command from it. -/

namespace Sys2Proof

/-! ## The fields of the header word (R91) -/

/-- The header word `hdr` of R91: the fields of the header, `OPC` first. -/
abbrev headerWord (opc a0 a1 a2 : Byte) (len : BitVec 32) : BitVec (8 + 8 + 8 + 8 + 32) :=
  opc ++ a0 ++ a1 ++ a2 ++ len

theorem bitVec_append_eq_append_iff {m n : Nat} {x x' : BitVec m} {y y' : BitVec n} :
    x ++ y = x' ++ y' ↔ x = x' ∧ y = y' := by
  refine ⟨fun h => ⟨?_, ?_⟩, fun ⟨hx, hy⟩ => by rw [hx, hy]⟩
  · simpa [BitVec.extractLsb'_append_eq_of_le] using congrArg (BitVec.extractLsb' n m) h
  · simpa [BitVec.setWidth_append] using congrArg (BitVec.setWidth n) h

section Masks

variable {opc a0 a1 a2 : Byte} {len : BitVec 32}

/-- Matching under a mask is matching each field under its part of the mask. -/
theorem headerWord_and_eq_iff (mo m0 m1 m2 po p0 p1 p2 : Byte) (ml pl : BitVec 32) :
    headerWord opc a0 a1 a2 len &&& headerWord mo m0 m1 m2 ml = headerWord po p0 p1 p2 pl ↔
      opc &&& mo = po ∧ a0 &&& m0 = p0 ∧ a1 &&& m1 = p1 ∧ a2 &&& m2 = p2 ∧ len &&& ml = pl := by
  simp only [headerWord, BitVec.and_append, bitVec_append_eq_append_iff, and_assoc]

theorem word_and_zero {n : Nat} (w : BitVec n) : w &&& 0 = 0 := BitVec.and_zero

theorem byte_and_ff (b : Byte) : b &&& 0xFF = b := BitVec.and_allOnes

theorem len_and_ffffffff (l : BitVec 32) : l &&& 0xFFFFFFFF = l := BitVec.and_allOnes

/-- The mask of a command without operands and payload. -/
theorem fixedMask_iff (c : Byte) :
    headerWord opc a0 a1 a2 len &&& headerWord 0xFF 0xFF 0xFF 0xFF 0xFFFFFFFF =
        headerWord c 0 0 0 0 ↔
      opc = c ∧ a0 = 0 ∧ a1 = 0 ∧ a2 = 0 ∧ len = 0 := by
  rw [headerWord_and_eq_iff]
  simp only [byte_and_ff, len_and_ffffffff]

/-- The mask of BB.OPEN, which leaves `ARG0` free. -/
theorem openMask_iff (c : Byte) :
    headerWord opc a0 a1 a2 len &&& headerWord 0xFF 0 0xFF 0xFF 0xFFFFFFFF =
        headerWord c 0 0 0 0 ↔
      opc = c ∧ a1 = 0 ∧ a2 = 0 ∧ len = 0 := by
  rw [headerWord_and_eq_iff]
  simp only [byte_and_ff, len_and_ffffffff, word_and_zero, true_and]

/-- The mask of a command with a payload and no other operand. -/
theorem payloadMask_iff (c : Byte) :
    headerWord opc a0 a1 a2 len &&& headerWord 0xFF 0xFF 0xFF 0xFF 0 = headerWord c 0 0 0 0 ↔
      opc = c ∧ a0 = 0 ∧ a1 = 0 ∧ a2 = 0 := by
  rw [headerWord_and_eq_iff]
  simp only [byte_and_ff, word_and_zero, and_true]

/-- All bits of `ARG0` but `d` are zero. -/
theorem dirBits_iff (a : Byte) : a &&& 0xFE = 0 ↔ ∃ d, a = dirByte d := by
  have hvalues : a &&& 0xFE = 0 ↔ a = 0 ∨ a = 1 := by
    revert a
    decide
  rw [hvalues]
  constructor
  · rintro (rfl | rfl)
    · exact ⟨.encrypt, rfl⟩
    · exact ⟨.decrypt, rfl⟩
  · rintro ⟨d, rfl⟩
    cases d
    · exact .inl rfl
    · exact .inr rfl

/-- All bits of `ARG0` but `vv` are zero and `vv` is not 3. -/
theorem variantBits_iff (a : Byte) : (a &&& 0xFC = 0 ∧ a &&& 3 ≠ 3) ↔ ∃ v, a = variantByte v := by
  have hvalues : (a &&& 0xFC = 0 ∧ a &&& 3 ≠ 3) ↔ a = 0 ∨ a = 1 ∨ a = 2 := by
    revert a
    decide
  rw [hvalues]
  constructor
  · rintro (rfl | rfl | rfl)
    · exact ⟨.cmac, rfl⟩
    · exact ⟨.omac2, rfl⟩
    · exact ⟨.xcbc, rfl⟩
  · rintro ⟨v, rfl⟩
    cases v
    · exact .inl rfl
    · exact .inr (.inl rfl)
    · exact .inr (.inr rfl)

/-- The mask of GCM.INIT and CCM.INIT. -/
theorem dirMask_iff (c : Byte) :
    headerWord opc a0 a1 a2 len &&& headerWord 0xFF 0xFE 0 0 0 = headerWord c 0 0 0 0 ↔
      opc = c ∧ ∃ d, a0 = dirByte d := by
  rw [headerWord_and_eq_iff, ← dirBits_iff]
  simp only [byte_and_ff, word_and_zero, and_true]

/-- `vv` stands in bits 49 and 48 of the header word (R93, R97). -/
theorem headerWord_vv_eq_three_iff :
    headerWord opc a0 a1 a2 len >>> 48 &&& 3#64 = 3#64 ↔ a0 &&& 3 = 3 := by
  have hfield : headerWord opc a0 a1 a2 len >>> 48 &&& 3#64 =
      headerWord 0 (a0 &&& 3) 0 0 0 >>> 48 := by
    rw [← (headerWord_and_eq_iff (a0 := a0) 0 3 0 0 0 (a0 &&& 3) 0 0 0 0).mpr (by simp),
      BitVec.ushiftRight_and_distrib]
    rfl
  have hvalues : ∀ c : Byte, headerWord 0 c 0 0 0 >>> 48 = 3#64 ↔ c = 3 := by decide
  rw [hfield, hvalues]

/-- The mask of MAC.INIT together with its exception. -/
theorem variantMask_iff (c : Byte) :
    (headerWord opc a0 a1 a2 len &&& headerWord 0xFF 0xFC 0 0 0 = headerWord c 0 0 0 0 ∧
        headerWord opc a0 a1 a2 len >>> 48 &&& 3#64 ≠ 3#64) ↔
      opc = c ∧ ∃ v, a0 = variantByte v := by
  rw [headerWord_and_eq_iff, ne_eq, headerWord_vv_eq_three_iff, ← variantBits_iff]
  simp only [byte_and_ff, word_and_zero, and_true, and_assoc]

end Masks

/-! ## The rows and the decoder -/

section Rows

variable {opc a0 a1 a2 : Byte} {len : BitVec 32} {payload : Bytes} {i : Instr} {row : OpcodeRow}

/-- A header that a row selects is the header of one of the row's commands. -/
theorem exists_selected_of_selects (hrow : row ∈ opcodeRows)
    (hs : row.selects (headerWord opc a0 a1 a2 len)) :
    ∃ i, mnemonicOf i = row.mnemonic ∧ Selected ⟨opc, a0, a1, a2, len.toNat⟩ payload i := by
  obtain ⟨hm, hvv⟩ := hs
  simp only [opcodeRows, List.mem_cons, List.not_mem_nil, or_false] at hrow
  obtain rfl | rfl | rfl | rfl | rfl | rfl | rfl | rfl | rfl | rfl | rfl | rfl | rfl | rfl | rfl |
    rfl | rfl := hrow
  · obtain ⟨rfl, rfl, rfl, rfl, rfl⟩ := (fixedMask_iff 0x01).mp hm
    exact ⟨.sysReset, rfl, rfl, rfl, rfl⟩
  · obtain ⟨rfl, rfl, rfl, rfl, rfl⟩ := (fixedMask_iff 0x02).mp hm
    exact ⟨.sysStatus, rfl, rfl, rfl, rfl⟩
  · obtain ⟨rfl, rfl, rfl, rfl⟩ := (openMask_iff 0x10).mp hm
    exact ⟨.bbOpen a0, rfl, rfl, rfl, rfl⟩
  · obtain ⟨rfl, rfl, rfl, rfl⟩ := (payloadMask_iff 0x11).mp hm
    exact ⟨.bbPut payload, rfl, rfl, rfl, rfl⟩
  · obtain ⟨rfl, rfl, rfl, rfl, rfl⟩ := (fixedMask_iff 0x12).mp hm
    exact ⟨.bbFlush, rfl, rfl, rfl, rfl⟩
  · obtain ⟨rfl, d, rfl⟩ := (dirMask_iff 0x30).mp hm
    exact ⟨.gcmInit d a1 a2 payload, rfl, rfl, rfl, rfl⟩
  · obtain ⟨rfl, rfl, rfl, rfl⟩ := (payloadMask_iff 0x31).mp hm
    exact ⟨.gcmAad payload, rfl, rfl, rfl, rfl⟩
  · obtain ⟨rfl, rfl, rfl, rfl⟩ := (payloadMask_iff 0x32).mp hm
    exact ⟨.gcmUpdate payload, rfl, rfl, rfl, rfl⟩
  · obtain ⟨rfl, rfl, rfl, rfl⟩ := (payloadMask_iff 0x33).mp hm
    exact ⟨.gcmFinal payload, rfl, rfl, rfl, rfl⟩
  · obtain ⟨rfl, d, rfl⟩ := (dirMask_iff 0x40).mp hm
    exact ⟨.ccmInit d a1 a2 payload, rfl, rfl, rfl, rfl⟩
  · obtain ⟨rfl, rfl, rfl, rfl⟩ := (payloadMask_iff 0x41).mp hm
    exact ⟨.ccmAad payload, rfl, rfl, rfl, rfl⟩
  · obtain ⟨rfl, rfl, rfl, rfl⟩ := (payloadMask_iff 0x42).mp hm
    exact ⟨.ccmUpdate payload, rfl, rfl, rfl, rfl⟩
  · obtain ⟨rfl, rfl, rfl, rfl⟩ := (payloadMask_iff 0x43).mp hm
    exact ⟨.ccmFinal payload, rfl, rfl, rfl, rfl⟩
  · obtain ⟨rfl, v, rfl⟩ := (variantMask_iff 0x50).mp ⟨hm, hvv rfl⟩
    exact ⟨.macInit v a1 a2 payload, rfl, rfl, rfl, rfl⟩
  · obtain ⟨rfl, rfl, rfl, rfl⟩ := (payloadMask_iff 0x51).mp hm
    exact ⟨.macUpdate payload, rfl, rfl, rfl, rfl⟩
  · obtain ⟨rfl, rfl, rfl, rfl⟩ := (payloadMask_iff 0x52).mp hm
    exact ⟨.macSign payload, rfl, rfl, rfl, rfl⟩
  · obtain ⟨rfl, rfl, rfl, rfl⟩ := (payloadMask_iff 0x53).mp hm
    exact ⟨.macVerify payload, rfl, rfl, rfl, rfl⟩

/-- Only the row of MAC.INIT looks at more than match and mask. -/
theorem selects_of_mask {hdr : BitVec 64} (hm : hdr &&& row.mask = row.pattern)
    (hname : row.mnemonic ≠ "MAC.INIT") : row.selects hdr := ⟨hm, fun h => absurd h hname⟩

/-- A command's header is selected by the row of the command's mnemonic. -/
theorem exists_selects_of_selected (hs : Selected ⟨opc, a0, a1, a2, len.toNat⟩ payload i) :
    ∃ row ∈ opcodeRows, row.mnemonic = mnemonicOf i ∧
      row.selects (headerWord opc a0 a1 a2 len) := by
  obtain ⟨hopc, hargs, hlast⟩ := hs
  dsimp only at hopc hargs hlast
  have hlen : i.lenMustBeZero = true → len = 0 := fun hz => by
    rw [if_pos hz] at hlast
    exact BitVec.eq_of_toNat_eq hlast
  subst hopc
  cases i <;> cases hargs
  case sysReset =>
    exact ⟨opcodeRows[0], List.getElem_mem _, rfl,
      selects_of_mask ((fixedMask_iff 0x01).mpr ⟨rfl, rfl, rfl, rfl, hlen rfl⟩) (by decide)⟩
  case sysStatus =>
    exact ⟨opcodeRows[1], List.getElem_mem _, rfl,
      selects_of_mask ((fixedMask_iff 0x02).mpr ⟨rfl, rfl, rfl, rfl, hlen rfl⟩) (by decide)⟩
  case bbOpen =>
    exact ⟨opcodeRows[2], List.getElem_mem _, rfl,
      selects_of_mask ((openMask_iff 0x10).mpr ⟨rfl, rfl, rfl, hlen rfl⟩) (by decide)⟩
  case bbPut =>
    exact ⟨opcodeRows[3], List.getElem_mem _, rfl,
      selects_of_mask ((payloadMask_iff 0x11).mpr ⟨rfl, rfl, rfl, rfl⟩) (by decide)⟩
  case bbFlush =>
    exact ⟨opcodeRows[4], List.getElem_mem _, rfl,
      selects_of_mask ((fixedMask_iff 0x12).mpr ⟨rfl, rfl, rfl, rfl, hlen rfl⟩) (by decide)⟩
  case gcmInit =>
    exact ⟨opcodeRows[5], List.getElem_mem _, rfl,
      selects_of_mask ((dirMask_iff 0x30).mpr ⟨rfl, _, rfl⟩) (by decide)⟩
  case gcmAad =>
    exact ⟨opcodeRows[6], List.getElem_mem _, rfl,
      selects_of_mask ((payloadMask_iff 0x31).mpr ⟨rfl, rfl, rfl, rfl⟩) (by decide)⟩
  case gcmUpdate =>
    exact ⟨opcodeRows[7], List.getElem_mem _, rfl,
      selects_of_mask ((payloadMask_iff 0x32).mpr ⟨rfl, rfl, rfl, rfl⟩) (by decide)⟩
  case gcmFinal =>
    exact ⟨opcodeRows[8], List.getElem_mem _, rfl,
      selects_of_mask ((payloadMask_iff 0x33).mpr ⟨rfl, rfl, rfl, rfl⟩) (by decide)⟩
  case ccmInit =>
    exact ⟨opcodeRows[9], List.getElem_mem _, rfl,
      selects_of_mask ((dirMask_iff 0x40).mpr ⟨rfl, _, rfl⟩) (by decide)⟩
  case ccmAad =>
    exact ⟨opcodeRows[10], List.getElem_mem _, rfl,
      selects_of_mask ((payloadMask_iff 0x41).mpr ⟨rfl, rfl, rfl, rfl⟩) (by decide)⟩
  case ccmUpdate =>
    exact ⟨opcodeRows[11], List.getElem_mem _, rfl,
      selects_of_mask ((payloadMask_iff 0x42).mpr ⟨rfl, rfl, rfl, rfl⟩) (by decide)⟩
  case ccmFinal =>
    exact ⟨opcodeRows[12], List.getElem_mem _, rfl,
      selects_of_mask ((payloadMask_iff 0x43).mpr ⟨rfl, rfl, rfl, rfl⟩) (by decide)⟩
  case macInit =>
    obtain ⟨hm, hvv⟩ := (variantMask_iff 0x50).mpr ⟨rfl, _, rfl⟩
    exact ⟨opcodeRows[13], List.getElem_mem _, rfl, hm, fun _ => hvv⟩
  case macUpdate =>
    exact ⟨opcodeRows[14], List.getElem_mem _, rfl,
      selects_of_mask ((payloadMask_iff 0x51).mpr ⟨rfl, rfl, rfl, rfl⟩) (by decide)⟩
  case macSign =>
    exact ⟨opcodeRows[15], List.getElem_mem _, rfl,
      selects_of_mask ((payloadMask_iff 0x52).mpr ⟨rfl, rfl, rfl, rfl⟩) (by decide)⟩
  case macVerify =>
    exact ⟨opcodeRows[16], List.getElem_mem _, rfl,
      selects_of_mask ((payloadMask_iff 0x53).mpr ⟨rfl, rfl, rfl, rfl⟩) (by decide)⟩

/-- No two rows bear one mnemonic. -/
theorem row_eq_of_mnemonic {r1 r2 : OpcodeRow} (h1 : r1 ∈ opcodeRows) (h2 : r2 ∈ opcodeRows)
    (h : r1.mnemonic = r2.mnemonic) : r1 = r2 :=
  List.inj_on_of_nodup_map (by decide : (opcodeRows.map OpcodeRow.mnemonic).Nodup) h1 h2 h

end Rows

end Sys2Proof

namespace Sys2Proof.Machine

/-- Settles O3: a row selects a header exactly when the decoder reads the row's command from it; that
command is one, and its mnemonic names one row. -/
theorem decoderFollowsTheOpcodeMap : Obligations.DecoderFollowsTheOpcodeMap := by
  intro opc a0 a1 a2 len payload
  refine ⟨fun i hd => exists_selects_of_selected (selected_of_decodeCommand hd),
    fun e he row hrow hs => ?_, fun r1 h1 r2 h2 hs1 hs2 => ?_⟩
  · obtain ⟨i, -, hi⟩ := exists_selected_of_selects (payload := payload) hrow hs
    rw [decodeCommand_of_selected hi] at he
    cases he
  · obtain ⟨i1, hn1, hi1⟩ := exists_selected_of_selects (payload := payload) h1 hs1
    obtain ⟨i2, hn2, hi2⟩ := exists_selected_of_selects (payload := payload) h2 hs2
    have hsame : i1 = i2 := by
      simpa [decodeCommand_of_selected hi1] using decodeCommand_of_selected hi2
    exact row_eq_of_mnemonic h1 h2 (by rw [← hn1, ← hn2, hsame])

end Sys2Proof.Machine
end

section
/-! What a step does with the front of the command port (spec/30_encoding.md R96, R98, R100): it waits,
answers an illegal frame, or runs a command, which answers once. -/

namespace Sys2Proof.Machine

/-! ## The three steps (R20, R98, R100) -/

theorem step_of_wait {s : State} (hf : fetchFrame s.cmdIn = .wait) : step s = .next s := by
  rw [step, hf]

theorem step_of_command {s : State} {i : Instr} {rest : Bytes}
    (hf : fetchFrame s.cmdIn = .command i rest) : step s = exec i (consumeTo rest s) := by
  rw [step, hf]

theorem step_of_illegal {s : State} {opc : Byte} {why : Reject} {rest : Bytes}
    (hf : fetchFrame s.cmdIn = .illegal opc why rest) :
    step s = .next (answerIllegal opc (consumeTo rest s)) := by
  rw [step, hf]

/-- Settles O5: the step runs what was fetched, and consuming the frame writes the command port only. -/
theorem stepRunsTheDecodedCommand : Obligations.StepRunsTheDecodedCommand :=
  fun _ _ _ => step_of_command

/-- Settles O6: both shortages are fetched as `wait`. -/
theorem stepWaitsForAWholeFrame : Obligations.StepWaitsForAWholeFrame :=
  fun _ => ⟨fun h => step_of_wait (fetchFrame_of_short_header h),
    fun _ _ ht hb => step_of_wait (fetchFrame_of_short_body ht hb)⟩

/-! ## Illegal frames (R98) -/

theorem dirByte_le (d : Dir) : (dirByte d).toNat ≤ 1 := by cases d <;> decide

theorem variantByte_lt (v : Variant) : (variantByte v).toNat < 4 := by cases v <;> decide

theorem variantByte_ne_three (v : Variant) : variantByte v ≠ 3#8 := by cases v <;> decide

/-- The header of a command is none of the illegal ones (R97, R98). -/
theorem not_illegalHeader_of_selected {h : Header} {payload : Bytes} {i : Instr}
    (hs : Selected h payload i) : ¬ illegalHeader h := by
  obtain ⟨opc, a0, a1, a2, len⟩ := h
  obtain ⟨hopc, hargs, hlast⟩ := hs
  dsimp only at hopc hargs hlast
  subst hopc
  cases i <;> cases hargs <;> cases hlast <;>
    simp [illegalHeader, Header.unit, Header.op, opcodeOf, opcode_numerals, dirByte_le,
      variantByte_lt, variantByte_ne_three]

theorem decodeCommand_of_illegalHeader {h : Header} (payload : Bytes) (hi : illegalHeader h) :
    ∃ why, decodeCommand h payload = .error why := by
  cases hd : decodeCommand h payload with
  | ok i => exact absurd hi (not_illegalHeader_of_selected (selected_of_decodeCommand hd))
  | error why => exact ⟨why, rfl⟩

/-- Settles O7: the decoder refuses the header, and the answer to a refused frame is one response. -/
theorem illegalFrameIsAnsweredAndChangesNoUnit :
    Obligations.IllegalFrameIsAnsweredAndChangesNoUnit := by
  intro s h payload rest ht hl hi
  obtain ⟨why, hd⟩ := decodeCommand_of_illegalHeader payload hi
  have hf : fetchFrame s.cmdIn = .illegal h.opc why rest := by
    rw [fetchFrame_of_whole ht hl, hd]
    rfl
  exact step_of_illegal hf


/-! ## The one response (R96) -/

/-- `UNIT` of each unit's opcodes; 0 is SYS (R92). -/
def unitNumber : Option UnitId → Nat
  | none => 0
  | some .bb0 => 1
  | some .gcm => 3
  | some .ccm => 4
  | some .mac => 5

/-- The high nibble of a command's opcode names the unit it addresses (R92, R97). -/
theorem opcodeOf_unit (i : Instr) : (opcodeOf i).toNat / 16 = unitNumber (unitOf i) := by
  cases i <;> simp [opcodeOf, opcode_numerals, unitOf, unitNumber]

/-- From `s` to `t` one response was put on the port, and its status is not that of an illegal frame. -/
def AnsweredLegally (s t : State) : Prop :=
  ∃ r, t.respOut = s.respOut ++ [r] ∧ r.status ≠ .illegalCommand

section Answered

variable {s t : State}

theorem answeredLegally_reply {u : UnitId} {k : Status} {opc : Byte} {payload : Bytes}
    (hk : k ≠ .illegalCommand) (ht : t.respOut = s.respOut) :
    AnsweredLegally s (reply u k opc payload t) :=
  ⟨⟨k, opc, phaseCode (phaseOf u t), payload⟩, by rw [← ht]; rfl, hk⟩

theorem answeredLegally_raise {u : UnitId} {k : Status} {opc : Byte}
    (hk : k ≠ .illegalCommand) (ht : t.respOut = s.respOut) :
    AnsweredLegally s (raise u k opc t) :=
  ⟨⟨k, opc, 4, []⟩, by rw [raise_respOut, ht], hk⟩

/-- A test with an error when it holds, in front of a command that answers. -/
theorem AnsweredLegally.guard {c : Prop} [Decidable c] {u : UnitId} {k : Status} {opc : Byte}
    {s0 : State} (hk : k ≠ .illegalCommand) (hs : s0.respOut = s.respOut)
    (h : AnsweredLegally s t) : AnsweredLegally s (if c then raise u k opc s0 else t) := by
  split
  · exact answeredLegally_raise hk hs
  · exact h

/-- A status that depends on a test, neither branch that of an illegal frame. -/
theorem AnsweredLegally.ite {c : Prop} [Decidable c] {t' : State} (h : AnsweredLegally s t)
    (h' : AnsweredLegally s t') : AnsweredLegally s (if c then t else t') := by
  split
  · exact h
  · exact h'

theorem bbPut_answeredLegally (x : Ext) (payload : Bytes) :
    AnsweredLegally s (bbPut x payload s) := by
  unfold bbPut
  refine .guard nofun rfl ?_
  obtain ⟨o, i, hs⟩ := emitWrites_only_sink x (bbCut s.bb0.blen.toNat s.bb0.carry payload).1 s
  dsimp only
  generalize emitWrites x (bbCut s.bb0.blen.toNat s.bb0.carry payload).1 s = r at hs
  obtain ⟨ack, s1⟩ := r
  subst hs
  cases ack
  · exact answeredLegally_raise nofun rfl
  · exact answeredLegally_reply nofun rfl

theorem bbFlush_answeredLegally (x : Ext) : AnsweredLegally s (bbFlush x s) := by
  unfold bbFlush
  refine .guard nofun rfl ?_
  rw [emit_eq]
  cases sinkAnswerAt x s 0 ⟨.flush, s.bb0.carry⟩ == ackByte
  · exact answeredLegally_raise nofun rfl
  · exact answeredLegally_reply nofun rfl

theorem gcmUpdate_answeredLegally (x : Ext) (payload : Bytes) :
    AnsweredLegally s (gcmUpdate x payload s) := by
  unfold gcmUpdate
  refine .guard nofun rfl (.guard nofun rfl ?_)
  dsimp only
  split
  · exact answeredLegally_reply nofun rfl
  · exact answeredLegally_reply nofun rfl

theorem gcmFinal_answeredLegally (x : Ext) (payload : Bytes) :
    AnsweredLegally s (gcmFinal x payload s) := by
  unfold gcmFinal
  refine .guard nofun rfl (.guard nofun rfl ?_)
  dsimp only
  split
  · exact answeredLegally_reply nofun rfl
  · exact .guard nofun rfl (answeredLegally_reply nofun rfl)

theorem ccmFinal_answeredLegally (x : Ext) (payload : Bytes) :
    AnsweredLegally s (ccmFinal x payload s) := by
  unfold ccmFinal
  refine .guard nofun rfl (.guard nofun rfl ?_)
  dsimp only
  split
  · exact answeredLegally_reply nofun rfl
  · exact .guard nofun rfl (answeredLegally_reply nofun rfl)

/-- No command answers with the status of an illegal frame (R270, R276). -/
theorem exec_answeredLegally {i : Instr} (h : exec i s = .next t) : AnsweredLegally s t := by
  cases i <;> cases h
  case sysReset => exact ⟨⟨.ok, opcSysReset, 0, []⟩, rfl, nofun⟩
  case sysStatus => exact ⟨⟨.ok, opcSysStatus, 0, statusBytes s⟩, rfl, nofun⟩
  case bbOpen => exact .guard nofun rfl (answeredLegally_reply nofun rfl)
  case bbPut p => exact bbPut_answeredLegally Config.ext p
  case bbFlush => exact bbFlush_answeredLegally Config.ext
  case gcmInit => exact .guard nofun rfl (answeredLegally_reply nofun rfl)
  case gcmAad =>
    exact .guard nofun rfl (.guard nofun rfl (answeredLegally_reply nofun rfl))
  case gcmUpdate p => exact gcmUpdate_answeredLegally Config.ext p
  case gcmFinal p => exact gcmFinal_answeredLegally Config.ext p
  case ccmInit => exact .guard nofun rfl (answeredLegally_reply nofun rfl)
  case ccmAad =>
    exact .guard nofun rfl (.guard nofun rfl (answeredLegally_reply nofun rfl))
  case ccmUpdate =>
    exact .guard nofun rfl (.guard nofun rfl (answeredLegally_reply nofun rfl))
  case ccmFinal p => exact ccmFinal_answeredLegally Config.ext p
  case macInit => exact .guard nofun rfl (answeredLegally_reply nofun rfl)
  case macUpdate => exact .guard nofun rfl (answeredLegally_reply nofun rfl)
  case macSign => exact .guard nofun rfl (answeredLegally_reply nofun rfl)
  case macVerify =>
    exact .guard nofun rfl
      (.ite (answeredLegally_reply nofun rfl) (answeredLegally_reply nofun rfl))

/-- `RPHASE` of a command that is no illegal frame: the phase code of the unit addressed, 0 for SYS
(R96, R260). -/
def addressedPhase : Option UnitId → State → Byte
  | none, _ => 0
  | some u, t => phaseCode (phaseOf u t)

/-- The one response of a command (R96). -/
theorem exec_response {i : Instr} (h : exec i s = .next t) :
    ∃ r, t.respOut = s.respOut ++ [r] ∧ t.cmdIn = s.cmdIn ∧ r.ropc = opcodeOf i ∧
      r.rphase = addressedPhase (unitOf i) t ∧ r.status ≠ .illegalCommand ∧
      (r.status ≠ .ok → r.payload = []) := by
  cases hu : unitOf i with
  | some u =>
    obtain ⟨r, hr, hopc, hphase, hpayload⟩ := exec_one_response hu h
    obtain ⟨r', hr', hlegal⟩ := exec_answeredLegally h
    obtain rfl : r = r' := by simpa using hr.symm.trans hr'
    obtain ⟨-, -, hcmd, -⟩ := commandsLeaveOtherUnitsAlone i u s t hu h
    exact ⟨r, hr, hcmd, hopc, hphase, hlegal, hpayload⟩
  | none =>
    cases i
    case sysReset =>
      cases h
      exact ⟨⟨.ok, opcSysReset, 0, []⟩, rfl, rfl, rfl, rfl, nofun, fun _ => rfl⟩
    case sysStatus =>
      cases h
      exact ⟨⟨.ok, opcSysStatus, 0, statusBytes s⟩, rfl, rfl, rfl, rfl, nofun,
        fun hn => absurd rfl hn⟩
    all_goals cases hu

/-- `UNIT` of the header says which phase is answered. -/
theorem addressedPhase_of_unit (v : Option UnitId) (t : State) :
    (unitNumber v = 0 → addressedPhase v t = 0) ∧
    (unitNumber v = 1 → addressedPhase v t = phaseCode t.bb0.phase) ∧
    (unitNumber v = 3 → addressedPhase v t = phaseCode t.gcm.phase) ∧
    (unitNumber v = 4 → addressedPhase v t = phaseCode t.ccm.phase) ∧
    (unitNumber v = 5 → addressedPhase v t = phaseCode t.mac.phase) := by
  rcases v with - | (- | - | - | -) <;> simp [unitNumber, addressedPhase, phaseOf]

/-- A payload that fits `RLEN` is sent behind its own length (R96). -/
theorem wire_of_fits {r : Response} (h : r.payload.length < 2 ^ 32) :
    r.wire = [statusCode r.status, r.ropc, r.rphase, 0] ++ beN 4 r.payload.length ++ r.payload := by
  rw [Response.wire, Response.rlen, if_pos h, BitVec.toNat_ofNat, Nat.mod_eq_of_lt h]

end Answered

/-- Settles O8: a decoded command answers once with its unit's phase (`exec_response`), a refused frame
with status 6. -/
theorem everyFrameGetsOneResponse : Obligations.EveryFrameGetsOneResponse := by
  intro s h payload rest ht hl
  have hf := fetchFrame_of_whole ht hl
  cases hd : decodeCommand h payload with
  | error why =>
    rw [hd] at hf
    exact ⟨_, ⟨.illegalCommand, h.opc, 0, []⟩, step_of_illegal hf, rfl, rfl, rfl, fun _ => rfl,
      fun _ => rfl, fun hn => absurd rfl hn, wire_of_fits⟩
  | ok i =>
    rw [hd] at hf
    obtain ⟨hopc, -, -⟩ := selected_of_decodeCommand hd
    have hunit : h.unit = unitNumber (unitOf i) := by rw [Header.unit, hopc, opcodeOf_unit]
    obtain ⟨t, hexec⟩ := exec_answers i (consumeTo rest s)
    obtain ⟨r, hr, hcmd, hropc, hphase, hlegal, hpayload⟩ := exec_response hexec
    obtain ⟨h0, hunits⟩ := addressedPhase_of_unit (unitOf i) t
    rw [← hunit, ← hphase] at h0 hunits
    exact ⟨t, r, (step_of_command hf).trans hexec, hcmd, hr, hropc.trans hopc.symm, hpayload,
      fun hor => h0 (hor.resolve_right hlegal), fun _ => hunits, wire_of_fits⟩

end Sys2Proof.Machine
end

section
/-! Sealing and unsealing with GCM (spec/30_encoding.md R102, spec/42_ghash_gcm.md R160 to R170): what
each accepted command of a session does, that the session computes R170's functions, and that the
function of the data is its own inverse. -/

namespace Sys2Proof.Machine

/-! ## The data under the counter chain (R145, R170) -/

section Ctr

variable (x : Ext) (q : Nat) (k ctr : Bytes)

/-- A whole byte sequence under the counter chain that starts at `ctr`, cut every 16 bytes (R170). -/
def ctrCrypt (p : Bytes) : Bytes := (ctrPieces x q k ctr (pieces 16 p)).flatten

/-- The output of the short last piece, under the counter after the full blocks (R166, R170). -/
def ctrTail (p : Bytes) : Bytes :=
  bxor (remainder 16 p)
    (first (enc x .b16 k (incrIter q (p.length / 16) ctr)) (remainder 16 p).length)

theorem ctrTail_length (p : Bytes) : (ctrTail x q k ctr p).length = (remainder 16 p).length := by
  have hr := remainder_length_lt (n := 16) (by omega) p
  simp only [ctrTail, bxor_length, first_length, enc_length, BlockLen.bytes_b16]
  omega

theorem mem_ctrPieces_length {bs : List Bytes} (h : ∀ b ∈ bs, b.length = 16) {ctr b : Bytes}
    (hb : b ∈ ctrPieces x q k ctr bs) : b.length = 16 := by
  have hmap := ctrPieces_map_length x q k ctr bs fun b hb => (h b hb).le
  have hmem := List.mem_map_of_mem (f := List.length) hb
  rw [hmap, List.mem_map] at hmem
  obtain ⟨b', hb', hlen⟩ := hmem
  exact hlen.symm.trans (h b' hb')

/-- The full blocks and then the short last piece. -/
theorem ctrCrypt_eq (p : Bytes) :
    ctrCrypt x q k ctr p = (ctrPieces x q k ctr (fullBlocks 16 p)).flatten ++ ctrTail x q k ctr p := by
  rw [ctrCrypt, pieces_eq (by omega), ctrPieces_append, List.flatten_append, fullBlocks_length,
    ctrTail]
  split
  next hr => simp [hr, bxor]
  next => simp

/-- The output has its own full blocks and remainder where the input has them. -/
theorem ctrCrypt_cut (p : Bytes) :
    fullBlocks 16 (ctrCrypt x q k ctr p) = ctrPieces x q k ctr (fullBlocks 16 p) ∧
      remainder 16 (ctrCrypt x q k ctr p) = ctrTail x q k ctr p := by
  have htail : (ctrTail x q k ctr p).length < 16 := by
    rw [ctrTail_length]
    exact remainder_length_lt (by omega) p
  rw [ctrCrypt_eq]
  exact fullBlocks_flatten (by omega)
    (fun _ => mem_ctrPieces_length x q k fun _ => mem_fullBlocks_length) htail

theorem ctrCrypt_fullBlocks (p : Bytes) :
    fullBlocks 16 (ctrCrypt x q k ctr p) = ctrPieces x q k ctr (fullBlocks 16 p) := by
  obtain ⟨hblocks, -⟩ := ctrCrypt_cut x q k ctr p
  exact hblocks

theorem ctrCrypt_remainder (p : Bytes) :
    remainder 16 (ctrCrypt x q k ctr p) = ctrTail x q k ctr p := by
  obtain ⟨-, hrest⟩ := ctrCrypt_cut x q k ctr p
  exact hrest

theorem ctrCrypt_length (p : Bytes) : (ctrCrypt x q k ctr p).length = p.length := by
  rw [ctrCrypt_eq, List.length_append, ctrTail_length,
    ctrPieces_flatten_length _ _ _ _ fun _ => mem_fullBlocks_length, fullBlocks_length,
    remainder_length, Nat.div_add_mod]

/-- The same counters undo what they did (R170). -/
theorem ctrCrypt_ctrCrypt (p : Bytes) : ctrCrypt x q k ctr (ctrCrypt x q k ctr p) = p := by
  have hr := remainder_length_lt (n := 16) (by omega) p
  have htail : ctrTail x q k ctr (ctrCrypt x q k ctr p) = remainder 16 p := by
    rw [ctrTail, ctrCrypt_remainder, ctrCrypt_length, ctrTail_length, ctrTail,
      bxor_cancel (by simp; omega)]
  rw [ctrCrypt_eq x q k ctr (ctrCrypt x q k ctr p), ctrCrypt_fullBlocks, htail,
    ctrPieces_cancel _ _ _ _ _ fun b hb => (mem_fullBlocks_length hb).le, fullBlocks_flatten_append]

end Ctr

/-! ## R170's function of the data -/

section Crypt

variable (x : Ext) (q : Nat) (k iv p : Bytes)

/-- The first counter of the data, `incr(J0)` (R170). -/
def gcmFirstCtr : Bytes := incrW q (j0Of (enc x .b16 k (zeros 16)) iv)

theorem gcmCrypt_fullBlocks :
    fullBlocks 16 (gcmCrypt x q k iv p) = ctrPieces x q k (gcmFirstCtr x q k iv) (fullBlocks 16 p) :=
  ctrCrypt_fullBlocks x q k (gcmFirstCtr x q k iv) p

theorem gcmCrypt_remainder :
    remainder 16 (gcmCrypt x q k iv p) = ctrTail x q k (gcmFirstCtr x q k iv) p :=
  ctrCrypt_remainder x q k (gcmFirstCtr x q k iv) p

theorem gcmCrypt_length : (gcmCrypt x q k iv p).length = p.length :=
  ctrCrypt_length x q k (gcmFirstCtr x q k iv) p

/-- Encrypting and decrypting are one function, which undoes itself (R170). -/
theorem gcmCrypt_gcmCrypt : gcmCrypt x q k iv (gcmCrypt x q k iv p) = p :=
  ctrCrypt_ctrCrypt x q k (gcmFirstCtr x q k iv) p

end Crypt

/-! ## The accepted commands of a session (R160, R164, R165, R166) -/

/-- `s` with the registers `g` in the GCM unit and the responses `rs` put on the port. -/
def gcmAnswered (g : GcmRegs) (rs : List Response) (s : State) : State :=
  { s with gcm := g, respOut := s.respOut ++ rs }

/-- The registers GCM.INIT leaves (R160). -/
def gcmKeyed (x : Ext) (p : Params) (d : Dir) (tlen : Byte) (key iv : Bytes) : GcmRegs :=
  { GcmRegs.reset with
    phase := .aad, dir := d, tlen := tlen, kv := true, k := key
    h := enc x .b16 key (zeros 16)
    j0 := j0Of (enc x .b16 key (zeros 16)) iv
    ctr := incrW (gcmIncBytes p) (j0Of (enc x .b16 key (zeros 16)) iv) }

/-- The registers after associated data that is accepted (R164). -/
def gcmWithAad (payload : Bytes) (g : GcmRegs) : GcmRegs :=
  { g with
    alen := BitVec.ofNat 64 (g.alen.toNat + 8 * payload.length)
    x := ghashFrom g.h g.x (fullBlocks 16 (g.abuf ++ payload))
    abuf := remainder 16 (g.abuf ++ payload) }

/-- The registers after data that is accepted: `cipher` are the ciphertext blocks that enter the
accumulator, `out` is what `HOLD` takes (R165). -/
def gcmWithData (p : Params) (payload : Bytes) (cipher : List Bytes) (out : Bytes) (g : GcmRegs) :
    GcmRegs :=
  { g with
    phase := .data
    clen := BitVec.ofNat 64 (g.clen.toNat + 8 * payload.length)
    ctr := incrIter (gcmIncBytes p) (fullBlocks 16 (g.dbuf ++ payload)).length g.ctr
    x := ghashFrom g.h (closedX g) cipher
    abuf := if g.phase = .aad then [] else g.abuf
    dbuf := remainder 16 (g.dbuf ++ payload)
    hold := g.hold ++ out }

/-- The ciphertext or plaintext of the full blocks of carry and payload (R165). -/
def gcmBlocksOut (x : Ext) (p : Params) (payload : Bytes) (g : GcmRegs) : List Bytes :=
  ctrPieces x (gcmIncBytes p) g.k g.ctr (fullBlocks 16 (g.dbuf ++ payload))

section Commands

variable {x : Ext} {s : State} {payload : Bytes}

@[simp] theorem gcmAnswered_gcm (g : GcmRegs) (rs : List Response) (s : State) :
    (gcmAnswered g rs s).gcm = g := rfl

@[simp] theorem gcmAnswered_par (g : GcmRegs) (rs : List Response) (s : State) :
    (gcmAnswered g rs s).par = s.par := rfl

theorem gcmAnswered_gcmAnswered (g g' : GcmRegs) (rs rs' : List Response) (s : State) :
    gcmAnswered g' rs' (gcmAnswered g rs s) = gcmAnswered g' (rs ++ rs') s := by
  simp [gcmAnswered]

theorem bitCountAdd_eq (count : BitVec 64) (n : Nat) :
    bitCountAdd count n = BitVec.ofNat 64 (count.toNat + 8 * n) := by
  rw [BitVec.ofNat_add, BitVec.ofNat_toNat, BitVec.setWidth_eq, bitCountAdd]

/-- R160 in a form whose key and IV are given apart. -/
theorem gcmInitOk_append {p : Params} {klen tlen : Byte} {key iv : Bytes} (hbl : p.blockLen = .b16)
    (hk : klen.toNat = key.length) (hkey : klen.toNat ∈ p.keyLens) (hiv : iv ≠ [])
    (h12 : iv.length = 12 ∨ p.gcmIvNon96 = .derive) (ht : tlen.toNat ∈ p.gcmTagLens) :
    gcmInitOk p klen tlen (key ++ iv) = true ∧ initKey klen (key ++ iv) = key ∧
      initIv klen (key ++ iv) = iv := by
  have hinitKey : initKey klen (key ++ iv) = key := by simp [initKey, slice, hk]
  have hinitIv : initIv klen (key ++ iv) = iv := by simp [initIv, slice, hk]
  refine ⟨?_, hinitKey, hinitIv⟩
  simp [gcmInitOk, hinitIv, hbl, keyLenOk_iff, tagLenOk_iff, hk ▸ hkey, ht, hiv, h12, hk]

theorem gcmInit_accepted {klen tlen : Byte} {key iv : Bytes} (d : Dir)
    (hbl : s.par.blockLen = .b16) (hk : klen.toNat = key.length) (hkey : klen.toNat ∈ s.par.keyLens)
    (hiv : iv ≠ []) (h12 : iv.length = 12 ∨ s.par.gcmIvNon96 = .derive)
    (ht : tlen.toNat ∈ s.par.gcmTagLens) :
    gcmInit x d klen tlen (key ++ iv) s =
      gcmAnswered (gcmKeyed x s.par d tlen key iv) [⟨.ok, opcGcmInit, 1, []⟩] s := by
  obtain ⟨hok, hinitKey, hinitIv⟩ := gcmInitOk_append hbl hk hkey hiv h12 ht
  simp only [gcmInit, hok, hinitKey, hinitIv, gcmDerive, gcmJ0_eq, Bool.not_true,
    Bool.false_eq_true, if_false]
  rfl

theorem gcmAad_accepted (hp : s.gcm.phase = .aad)
    (hfit : s.gcm.alen.toNat + 8 * payload.length ≤ 2 ^ 64 - 1) :
    gcmAad payload s =
      gcmAnswered (gcmWithAad payload s.gcm) [⟨.ok, opcGcmAad, 1, []⟩] s := by
  have hcount : bitCountFits s.gcm.alen maxCount payload.length = true := decide_eq_true hfit
  rw [gcmAad, if_neg (not_not.mpr hp), if_neg (by simp [hcount])]
  simp only [gcmAbsorbAll_eq, bbCut, bitCountAdd_eq]
  simp [gcmAnswered, gcmWithAad, reply, respond, phaseOf, hp, phaseCode]

theorem sessionPhase_iff {ph : Phase} : sessionPhase ph = true ↔ ph = .aad ∨ ph = .data := by
  cases ph <;> simp [sessionPhase]

/-- Closing the associated data where UPDATE and FINAL are accepted (R165, R166). -/
theorem gcmOpenData_of_session {g : GcmRegs} (hp : sessionPhase g.phase = true) :
    gcmOpenData g = { g with
      phase := .data, x := closedX g, abuf := if g.phase = .aad then [] else g.abuf } := by
  rw [gcmOpenData_eq]
  rcases sessionPhase_iff.mp hp with h | h
  · simp [h]
  · simp [h]

theorem gcmUpdate_encrypts (hp : sessionPhase s.gcm.phase = true) (hd : s.gcm.dir = .encrypt)
    (hfit : s.gcm.clen.toNat + 8 * payload.length ≤ s.par.gcmPtLimit.toNat) :
    gcmUpdate x payload s =
      gcmAnswered
        (gcmWithData s.par payload (gcmBlocksOut x s.par payload s.gcm) [] s.gcm)
        [⟨.ok, opcGcmUpdate, 2, (gcmBlocksOut x s.par payload s.gcm).flatten⟩] s := by
  have hcount : bitCountFits s.gcm.clen s.par.gcmPtLimit payload.length = true := decide_eq_true hfit
  rw [gcmUpdate, if_neg (by simp [hp]), if_neg (by simp [hcount]), gcmOpenData_of_session hp]
  dsimp only [bbCut]
  rw [gcmDataBlocks_encrypt (g := { s.gcm with
    phase := .data, x := closedX s.gcm, abuf := if s.gcm.phase = .aad then [] else s.gcm.abuf
    clen := bitCountAdd s.gcm.clen payload.length }) _ _ _ hd fun _ => mem_fullBlocks_length]
  simp only [hd, bitCountAdd_eq]
  simp [gcmAnswered, gcmWithData, gcmBlocksOut, reply, respond, phaseOf, phaseCode, hd]

theorem gcmUpdate_decrypts (hp : sessionPhase s.gcm.phase = true) (hd : s.gcm.dir = .decrypt)
    (hfit : s.gcm.clen.toNat + 8 * payload.length ≤ s.par.gcmPtLimit.toNat) :
    gcmUpdate x payload s =
      gcmAnswered
        (gcmWithData s.par payload (fullBlocks 16 (s.gcm.dbuf ++ payload))
          (gcmBlocksOut x s.par payload s.gcm).flatten s.gcm)
        [⟨.ok, opcGcmUpdate, 2, []⟩] s := by
  have hcount : bitCountFits s.gcm.clen s.par.gcmPtLimit payload.length = true := decide_eq_true hfit
  rw [gcmUpdate, if_neg (by simp [hp]), if_neg (by simp [hcount]), gcmOpenData_of_session hp]
  dsimp only [bbCut]
  rw [gcmDataBlocks_decrypt (g := { s.gcm with
    phase := .data, x := closedX s.gcm, abuf := if s.gcm.phase = .aad then [] else s.gcm.abuf
    clen := bitCountAdd s.gcm.clen payload.length }) _ _ _ hd fun _ => mem_fullBlocks_length]
  simp only [hd, bitCountAdd_eq]
  simp [gcmAnswered, gcmWithData, gcmBlocksOut, reply, respond, phaseOf, phaseCode, hd]

/-- The registers whose tag GCM.FINAL computes: all data absorbed, and the block of the two lengths
(R166). -/
def gcmFinalRegs (x : Ext) (p : Params) (g : GcmRegs) : GcmRegs :=
  gcmAbsorb (gcmLengthBlock (gcmFlushData x p (gcmOpenData g)).2) (gcmFlushData x p (gcmOpenData g)).2

theorem gcmAbsorb_lengthBlock (x : Ext) (p : Params) (g : GcmRegs) :
    gcmAbsorb (gcmLengthBlock (gcmFlushData x p (gcmOpenData g)).2)
      (gcmFlushData x p (gcmOpenData g)).2 = gcmFinalRegs x p g := rfl

/-- What GCM.FINAL returns, from the registers before it (R166). -/
theorem gcmFinalRegs_outputs (x : Ext) (p : Params) (g : GcmRegs) :
    (gcmFlushData x p (gcmOpenData g)).1 = finalPiece x g ∧
    gcmTag x (gcmFinalRegs x p g) = finalTag x g ∧
    (gcmFinalRegs x p g).dir = g.dir ∧ (gcmFinalRegs x p g).hold = g.hold := by
  rw [gcmFinalRegs, gcmOpenData_eq, gcmFlushData_eq]
  exact ⟨rfl, rfl, rfl, rfl⟩

theorem gcmFinal_encrypts (hp : sessionPhase s.gcm.phase = true) (hd : s.gcm.dir = .encrypt) :
    gcmFinal x [] s =
      gcmAnswered { GcmRegs.reset with phase := .done }
        [⟨.ok, opcGcmFinal, 3, finalPiece x s.gcm ++ finalTag x s.gcm⟩] s := by
  obtain ⟨hpiece, htag, hdir, -⟩ := gcmFinalRegs_outputs x s.par s.gcm
  rw [gcmFinal, if_neg (by simp [hp]), if_neg (by simp)]
  simp only [gcmAbsorb_lengthBlock, hpiece, htag, hdir, hd]
  rfl

theorem gcmFinal_decrypts (hp : sessionPhase s.gcm.phase = true) (hd : s.gcm.dir = .decrypt) :
    gcmFinal x payload s =
      if !tagMatches payload (finalTag x s.gcm) then
        raise .gcm .authenticationFailure opcGcmFinal { s with gcm := gcmFinalRegs x s.par s.gcm }
      else
        gcmAnswered { GcmRegs.reset with phase := .done }
          [⟨.ok, opcGcmFinal, 3, s.gcm.hold ++ finalPiece x s.gcm⟩] s := by
  obtain ⟨hpiece, htag, hdir, hhold⟩ := gcmFinalRegs_outputs x s.par s.gcm
  rw [gcmFinal, if_neg (by simp [hp]), if_neg (by simp [hd])]
  simp only [gcmAbsorb_lengthBlock, hpiece, htag, hdir, hd, hhold]
  rfl

theorem gcmFinal_releases (hp : sessionPhase s.gcm.phase = true) (hd : s.gcm.dir = .decrypt)
    (htag : payload = finalTag x s.gcm) :
    gcmFinal x payload s =
      gcmAnswered { GcmRegs.reset with phase := .done }
        [⟨.ok, opcGcmFinal, 3, s.gcm.hold ++ finalPiece x s.gcm⟩] s := by
  have hmatch : tagMatches payload (finalTag x s.gcm) = true := beq_iff_eq.mpr htag
  rw [gcmFinal_decrypts hp hd, if_neg (by simp [hmatch])]

end Commands

/-! ## One session, each input in one command (R170) -/

/-- The ciphertext of the short last piece, which enters the accumulator padded (R166, R168). -/
def cipherPiece (x : Ext) (g : GcmRegs) : Bytes :=
  match g.dir with
  | .encrypt => finalPiece x g
  | .decrypt => g.dbuf

/-- The accumulator after associated data `a`, its short last piece included (R167, R169). -/
def aadX (h a : Bytes) : Bytes :=
  if remainder 16 a = [] then ghashFrom h (zeros 16) (fullBlocks 16 a)
  else gfMul (bxor (ghashFrom h (zeros 16) (fullBlocks 16 a)) (padz (remainder 16 a) 16)) h

section Session

variable {x : Ext} {p : Params} {d : Dir} {tlen : Byte} {key iv aad : Bytes} {g : GcmRegs}

/-- The accumulator after one GCM.AAD, once the associated data is closed. -/
theorem closedX_withAad :
    closedX (gcmWithAad aad (gcmKeyed x p d tlen key iv)) = aadX (enc x .b16 key (zeros 16)) aad := by
  by_cases hr : remainder 16 aad = []
  · simp [closedX, gcmWithAad, gcmKeyed, GcmRegs.reset, aadX, hr]
  · simp [closedX, gcmWithAad, gcmKeyed, GcmRegs.reset, aadX, hr]

/-- The computed tag is R170's when the unit holds the key material, the counts and the accumulator of
`aad` and the ciphertext `c`, all but its short last piece absorbed (R166, R169, R170). -/
theorem finalTag_eq_gcmTagOf {c : Bytes} (hphase : g.phase = .data) (hk : g.k = key)
    (hh : g.h = enc x .b16 key (zeros 16)) (hj : g.j0 = j0Of (enc x .b16 key (zeros 16)) iv)
    (ha : g.alen.toNat = 8 * aad.length) (hc : g.clen.toNat = 8 * c.length)
    (hx : g.x = ghashFrom g.h (aadX g.h aad) (fullBlocks 16 c))
    (hpiece : cipherPiece x g = remainder 16 c) (hempty : g.dbuf = [] ↔ remainder 16 c = []) :
    finalTag x g = gcmTagOf x key iv g.tlen.toNat aad c := by
  have hclosed : closedX g = g.x := by simp [closedX, hphase]
  have hunfold : finalTag x g =
      first (bxor (gfMul (bxor (if g.dbuf = [] then closedX g
        else gfMul (bxor (closedX g) (padz (cipherPiece x g) 16)) g.h)
          (beN 8 g.alen.toNat ++ beN 8 g.clen.toNat)) g.h) (enc x .b16 g.k g.j0)) g.tlen.toNat := rfl
  rw [hunfold, gcmTagOf, ghash_eq]
  simp only [hclosed, hx, hpiece, hempty, ha, hc, hh, hk, hj, aadX]

/-- The unit's registers after GCM.INIT and one GCM.AAD. -/
def gcmOpened (x : Ext) (p : Params) (d : Dir) (tlen : Byte) (key iv aad : Bytes) : GcmRegs :=
  gcmWithAad aad (gcmKeyed x p d tlen key iv)

@[simp] theorem gcmOpened_dbuf : (gcmOpened x p d tlen key iv aad).dbuf = [] := rfl

@[simp] theorem gcmOpened_hold : (gcmOpened x p d tlen key iv aad).hold = [] := rfl

@[simp] theorem gcmWithData_hold (data : Bytes) (cipher : List Bytes) (out : Bytes) :
    (gcmWithData p data cipher out g).hold = g.hold ++ out := rfl

/-- The operands of a session, each input given in one command, are accepted (R160, R164, R165). -/
structure GcmOperandsOk (p : Params) (klen tlen : Byte) (key iv aad data : Bytes) : Prop where
  blockLen : p.blockLen = .b16
  klen_eq : klen.toNat = key.length
  keyLen : klen.toNat ∈ p.keyLens
  iv_ne : iv ≠ []
  iv_length : iv.length = 12 ∨ p.gcmIvNon96 = .derive
  tagLen : tlen.toNat ∈ p.gcmTagLens
  aad_fits : 8 * aad.length ≤ 2 ^ 64 - 1
  data_fits : 8 * data.length ≤ p.gcmPtLimit.toNat

/-- The accumulator, the counts and the carry after one GCM.UPDATE whose ciphertext is `c`: the tag
computed next is R170's. -/
theorem finalTag_withData {data c out : Bytes} {klen : Byte}
    (hok : GcmOperandsOk p klen tlen key iv aad data) (hlen : c.length = data.length)
    (hpiece : cipherPiece x (gcmWithData p data (fullBlocks 16 c) out
      (gcmOpened x p d tlen key iv aad)) = remainder 16 c) :
    finalTag x (gcmWithData p data (fullBlocks 16 c) out (gcmOpened x p d tlen key iv aad)) =
      gcmTagOf x key iv tlen.toNat aad c := by
  have haad := hok.aad_fits
  have hdata := hok.data_fits
  have hlimit := p.gcmPtLimit.isLt
  refine finalTag_eq_gcmTagOf rfl rfl rfl rfl ?_ ?_ ?_ hpiece ?_
  · simp [gcmWithData, gcmOpened, gcmWithAad, gcmKeyed, GcmRegs.reset]
    omega
  · simp [gcmWithData, gcmOpened, gcmWithAad, gcmKeyed, GcmRegs.reset, hlen]
    omega
  · exact congrArg (ghashFrom _ · _) closedX_withAad
  · have hdbuf : (gcmWithData p data (fullBlocks 16 c) out (gcmOpened x p d tlen key iv aad)).dbuf =
        remainder 16 data := rfl
    rw [hdbuf, ← List.length_eq_zero_iff, ← List.length_eq_zero_iff, remainder_length,
      remainder_length, hlen]

/-- The last piece after one GCM.UPDATE of all the data is the last of R170's function (R166). -/
theorem finalPiece_withData (data : Bytes) (cipher : List Bytes) (out : Bytes) :
    finalPiece x (gcmWithData p data cipher out (gcmOpened x p d tlen key iv aad)) =
      remainder 16 (gcmCrypt x (gcmIncBytes p) key iv data) := by
  rw [gcmCrypt_remainder, ctrTail, ← fullBlocks_length]
  rfl

/-- The output of the full blocks of one GCM.UPDATE: those of R170's function (R165). -/
theorem gcmBlocksOut_opened (data : Bytes) :
    gcmBlocksOut x p data (gcmOpened x p d tlen key iv aad) =
      fullBlocks 16 (gcmCrypt x (gcmIncBytes p) key iv data) :=
  (gcmCrypt_fullBlocks ..).symm

/-! ## Runs -/

section Runs

variable {s : State} {klen : Byte} {data : Bytes}

theorem execAll_cons_gcmInit (payload : Bytes) (is : List Instr) :
    execAll (.gcmInit d klen tlen payload :: is) s =
      execAll is (gcmInit Config.ext d klen tlen payload s) := rfl

theorem execAll_cons_gcmAad (payload : Bytes) (is : List Instr) :
    execAll (.gcmAad payload :: is) s = execAll is (gcmAad payload s) := rfl

theorem execAll_cons_gcmUpdate (payload : Bytes) (is : List Instr) :
    execAll (.gcmUpdate payload :: is) s = execAll is (gcmUpdate Config.ext payload s) := rfl

theorem execAll_cons_gcmFinal (payload : Bytes) (is : List Instr) :
    execAll (.gcmFinal payload :: is) s = execAll is (gcmFinal Config.ext payload s) := rfl

/-- The two commands before the data, in either direction. -/
theorem execAll_gcm_open (is : List Instr) (hok : GcmOperandsOk s.par klen tlen key iv aad data) :
    execAll (.gcmInit d klen tlen (key ++ iv) :: .gcmAad aad :: is) s =
      execAll is (gcmAnswered (gcmOpened Config.ext s.par d tlen key iv aad)
        [⟨.ok, opcGcmInit, 1, []⟩, ⟨.ok, opcGcmAad, 1, []⟩] s) := by
  have hfit : (gcmKeyed Config.ext s.par d tlen key iv).alen.toNat + 8 * aad.length ≤ 2 ^ 64 - 1 := by
    simpa [gcmKeyed, GcmRegs.reset] using hok.aad_fits
  rw [execAll_cons_gcmInit, gcmInit_accepted d hok.blockLen hok.klen_eq hok.keyLen hok.iv_ne
    hok.iv_length hok.tagLen, execAll_cons_gcmAad, gcmAad_accepted rfl hfit, gcmAnswered_gcmAnswered]
  rfl

/-- The responses of a session of four commands, all OK (R96). -/
def gcmSessionResponses (updateOut finalOut : Bytes) : List Response :=
  [⟨.ok, opcGcmInit, 1, []⟩, ⟨.ok, opcGcmAad, 1, []⟩, ⟨.ok, opcGcmUpdate, 2, updateOut⟩,
    ⟨.ok, opcGcmFinal, 3, finalOut⟩]

/-- `s` after a session of four commands: the unit cleared, the responses on the port (R166). -/
def gcmSessionEnd (updateOut finalOut : Bytes) (s : State) : State :=
  gcmAnswered { GcmRegs.reset with phase := .done } (gcmSessionResponses updateOut finalOut) s

theorem allOkSince_sessionEnd (updateOut finalOut : Bytes) :
    allOkSince s (gcmSessionEnd updateOut finalOut s) := by
  simp [allOkSince, gcmSessionEnd, gcmAnswered, gcmSessionResponses]

theorem payloadsSince_sessionEnd (updateOut finalOut : Bytes) :
    payloadsSince s (gcmSessionEnd updateOut finalOut s) = updateOut ++ finalOut := by
  simp [payloadsSince, gcmSessionEnd, gcmAnswered, gcmSessionResponses]

theorem gcmOpened_data_fits (hok : GcmOperandsOk p klen tlen key iv aad data) :
    (gcmOpened x p d tlen key iv aad).clen.toNat + 8 * data.length ≤ p.gcmPtLimit.toNat := by
  simpa [gcmOpened, gcmWithAad, gcmKeyed, GcmRegs.reset] using hok.data_fits

/-- GCM.FINAL right after other commands of its session. -/
theorem gcmFinal_releases_of_answered {rs : List Response} {tag : Bytes}
    (hp : sessionPhase g.phase = true) (hd : g.dir = .decrypt) (htag : tag = finalTag x g) :
    gcmFinal x tag (gcmAnswered g rs s) =
      gcmAnswered { GcmRegs.reset with phase := .done }
        (rs ++ [⟨.ok, opcGcmFinal, 3, g.hold ++ finalPiece x g⟩]) s := by
  rw [gcmFinal_releases (s := gcmAnswered g rs s) hp hd htag, gcmAnswered_gcmAnswered,
    gcmAnswered_gcm]

/-- A sealing session returns R170's ciphertext and its tag (R170). -/
theorem execAll_gcm_seal {c : Bytes} (hok : GcmOperandsOk s.par klen tlen key iv aad data)
    (hc : c = gcmCrypt Config.ext (gcmIncBytes s.par) key iv data) :
    execAll [.gcmInit .encrypt klen tlen (key ++ iv), .gcmAad aad, .gcmUpdate data, .gcmFinal []] s =
      .next (gcmSessionEnd (fullBlocks 16 c).flatten
        (remainder 16 c ++ gcmTagOf Config.ext key iv tlen.toNat aad c) s) := by
  have hblocks : gcmBlocksOut Config.ext s.par data
      (gcmOpened Config.ext s.par .encrypt tlen key iv aad) = fullBlocks 16 c := by
    rw [gcmBlocksOut_opened, hc]
  have hpiece : finalPiece Config.ext (gcmWithData s.par data (fullBlocks 16 c) []
      (gcmOpened Config.ext s.par .encrypt tlen key iv aad)) = remainder 16 c := by
    rw [finalPiece_withData, hc]
  have htag := finalTag_withData (x := Config.ext) (d := .encrypt) (out := []) hok
    (by rw [hc, gcmCrypt_length]) hpiece
  rw [execAll_gcm_open _ hok, execAll_cons_gcmUpdate,
    gcmUpdate_encrypts rfl rfl (gcmOpened_data_fits hok), gcmAnswered_gcmAnswered,
    execAll_cons_gcmFinal, gcmFinal_encrypts rfl rfl, gcmAnswered_gcmAnswered]
  simp only [gcmAnswered_gcm, gcmAnswered_par, hblocks, hpiece, htag]
  rfl

/-- An unsealing session that is given the tag of its data returns R170's function of the data, and
nothing before its last command (R170, R314). -/
theorem execAll_gcm_unseal {out : Bytes} (hok : GcmOperandsOk s.par klen tlen key iv aad data)
    (hout : out = gcmCrypt Config.ext (gcmIncBytes s.par) key iv data) :
    execAll [.gcmInit .decrypt klen tlen (key ++ iv), .gcmAad aad, .gcmUpdate data,
        .gcmFinal (gcmTagOf Config.ext key iv tlen.toNat aad data)] s =
      .next (gcmSessionEnd [] out s) := by
  have hblocks : gcmBlocksOut Config.ext s.par data
      (gcmOpened Config.ext s.par .decrypt tlen key iv aad) = fullBlocks 16 out := by
    rw [gcmBlocksOut_opened, hout]
  have hpiece : finalPiece Config.ext (gcmWithData s.par data (fullBlocks 16 data)
      (fullBlocks 16 out).flatten (gcmOpened Config.ext s.par .decrypt tlen key iv aad)) =
        remainder 16 out := by
    rw [finalPiece_withData, hout]
  have htag := finalTag_withData (x := Config.ext) (d := .decrypt) (c := data)
    (out := (fullBlocks 16 out).flatten) hok rfl rfl
  rw [execAll_gcm_open _ hok, execAll_cons_gcmUpdate,
    gcmUpdate_decrypts rfl rfl (gcmOpened_data_fits hok), gcmAnswered_gcmAnswered,
    execAll_cons_gcmFinal]
  simp only [gcmAnswered_gcm, gcmAnswered_par, gcmOpened_dbuf, List.nil_append, hblocks]
  rw [gcmFinal_releases_of_answered rfl rfl htag.symm, hpiece, gcmWithData_hold, gcmOpened_hold,
    List.nil_append, fullBlocks_flatten_append]
  rfl

end Runs

end Session

/-! ## The pseudo-commands (R102) -/

theorem asmGcmInit_eq {key : Bytes} (h : key.length < 256) (d : Dir) (tlen : Option Byte)
    (iv : Bytes) : asmGcmInit d tlen key iv =
      some (.gcmInit d (BitVec.ofNat 8 key.length) (tlen.getD 16) (key ++ iv)) := by
  rw [asmGcmInit, klenOf, if_pos h]
  rfl

/-- Settles O47: both expansions run to their end, and R170's function undoes itself. -/
theorem sealThenUnsealReturnsThePlaintext : Obligations.SealThenUnsealReturnsThePlaintext := by
  intro tlen key iv aad pt s hbl hkey256 hkey hiv h12 htag haad hpt
  have hklen : (BitVec.ofNat 8 key.length).toNat = key.length := by
    rw [BitVec.toNat_ofNat, Nat.mod_eq_of_lt hkey256]
  obtain ⟨c, hc⟩ : ∃ c, c = gcmCrypt Config.ext (gcmIncBytes s.par) key iv pt := ⟨_, rfl⟩
  have hlen : c.length = pt.length := by rw [hc, gcmCrypt_length]
  have hseal : GcmOperandsOk s.par (BitVec.ofNat 8 key.length) (tlen.getD 16) key iv aad pt :=
    ⟨hbl, hklen, by rwa [hklen], hiv, h12, htag, haad, hpt⟩
  have hunseal : GcmOperandsOk s.par (BitVec.ofNat 8 key.length) (tlen.getD 16) key iv aad c :=
    ⟨hbl, hklen, by rwa [hklen], hiv, h12, htag, haad, hlen ▸ hpt⟩
  refine ⟨_, _, c ++ gcmTagOf Config.ext key iv (tlen.getD 16).toNat aad c,
    by rw [pseudoGcmSeal, asmGcmInit_eq hkey256]; rfl, execAll_gcm_seal hseal hc,
    allOkSince_sessionEnd _ _, ?_, ?_⟩
  · rw [payloadsSince_sessionEnd, ← List.append_assoc, fullBlocks_flatten_append]
  · rw [← hlen, List.take_left, List.drop_left]
    refine ⟨_, _, by rw [pseudoGcmUnseal, asmGcmInit_eq hkey256]; rfl,
      execAll_gcm_unseal hunseal rfl, allOkSince_sessionEnd _ _, ?_⟩
    rw [payloadsSince_sessionEnd, List.nil_append]
    exact (congrArg _ hc).trans (gcmCrypt_gcmCrypt ..)

end Sys2Proof.Machine
end

section
/-! The commands of `BB0` and the calls of a BlockBuffer (spec/40_blockbuffer.md R121 to R132): BB.OPEN,
BB.PUT and BB.FLUSH up to the first refused event, and the calls of a whole cut sequence (R124). -/

namespace Sys2Proof.Machine

/-! ## The commands whose event is refused (R127) -/

section Refused

variable {x : Ext} {s : State}

/-- An error of an open `BB0` records its own cause: no earlier one stands (R25, R277). -/
theorem raise_bb0_of_ready (hp : s.bb0.phase = .ready) (k : Status) (opc : Byte) :
    raise .bb0 k opc s = { s with
      bb0 := ⟨.fault, statusCode k, 0, []⟩
      respOut := s.respOut ++ [⟨k, opc, 4, []⟩] } := by
  have herr : (if s.bb0.phase = .fault then s.bb0.err else statusCode k) = statusCode k := by
    simp [hp]
  rw [← herr]
  rfl

/-- BB.PUT whose blocks are `as`, acknowledged, then `b`, refused, then `bs`: those of `bs` are never
emitted, and the carry and the block length are lost (R127, R131, R274). -/
theorem bbPut_first_nak {payload b : Bytes} {as bs : List Bytes} (hp : s.bb0.phase = .ready)
    (hcut : fullBlocks s.bb0.blen.toNat (s.bb0.carry ++ payload) = as ++ b :: bs)
    (has : acksWrites x as s) (hb : sinkAnswerAt x s as.length ⟨.write, b⟩ ≠ 0) :
    bbPut x payload s = { s with
      bb0 := ⟨.fault, 4, 0, []⟩
      sinkOut := s.sinkOut ++ (as.map fun a => ⟨⟨.write, a⟩, 0⟩) ++
        [⟨⟨.write, b⟩, sinkAnswerAt x s as.length ⟨.write, b⟩⟩]
      sinkIn := s.sinkIn.drop (as.length + 1)
      respOut := s.respOut ++ [⟨.ioFailure, opcBbPut, 4, []⟩] } := by
  have hemit := emitWrites_first_nak x as b bs s has hb
  rw [bbPut, if_neg (not_not.mpr hp)]
  simp only [bbCut, hcut, hemit]
  exact raise_bb0_of_ready (by exact hp) .ioFailure opcBbPut

/-- BB.FLUSH whose event is refused: the event stays recorded with its answer (R127, R132, R274). -/
theorem bbFlush_nak (hp : s.bb0.phase = .ready)
    (h : sinkAnswerAt x s 0 ⟨.flush, s.bb0.carry⟩ ≠ 0) :
    bbFlush x s = { s with
      bb0 := ⟨.fault, 4, 0, []⟩
      sinkOut := s.sinkOut ++
        [⟨⟨.flush, s.bb0.carry⟩, sinkAnswerAt x s 0 ⟨.flush, s.bb0.carry⟩⟩]
      sinkIn := s.sinkIn.tail
      respOut := s.respOut ++ [⟨.ioFailure, opcBbFlush, 4, []⟩] } := by
  have hnak : (sinkAnswerAt x s 0 ⟨.flush, s.bb0.carry⟩ == ackByte) = false := by
    simpa [ackByte] using h
  rw [bbFlush, if_neg (not_not.mpr hp), emit_eq, hnak]
  exact raise_bb0_of_ready (by exact hp) .ioFailure opcBbFlush

end Refused

/-! ## The blocks around one of them (R121) -/

/-- The full blocks of `data` are the `m` first slices, the next one, and the rest. -/
theorem fullBlocks_split {n m : Nat} {data : Bytes} (hm : m < data.length / n) :
    fullBlocks n data =
      ((List.range m).map fun j => slice data (j * n) ((j + 1) * n)) ++
        slice data (m * n) ((m + 1) * n) :: (fullBlocks n data).drop (m + 1) := by
  have hlen : m < (fullBlocks n data).length := by simpa using hm
  calc fullBlocks n data
      = (fullBlocks n data).take m ++ (fullBlocks n data)[m] :: (fullBlocks n data).drop (m + 1) := by
        rw [← List.drop_eq_getElem_cons hlen, List.take_append_drop]
    _ = _ := by
        simp [fullBlocks_eq_slices, ← List.map_take, List.take_range, Nat.min_eq_left hm.le]

/-! ## The calls of a BlockBuffer (R124) -/

/-- Putting the pieces and flushing makes the calls of carry and pieces joined (R121, R122). -/
theorem bufferCalls_eq {bl : Nat} (ds : List Bytes) {carry : Bytes} (hc : carry.length < bl) :
    bufferCalls bl carry ds =
      (fullBlocks bl (carry ++ ds.flatten)).map .blockWrite ++
        [.blockFlush (remainder bl (carry ++ ds.flatten))] := by
  induction ds generalizing carry with
  | nil => simp [bufferCalls, fullBlocks_of_lt hc, remainder_of_lt hc]
  | cons d ds ih =>
    have hrest : (remainder bl (carry ++ d)).length < bl :=
      remainder_length_lt (Nat.zero_lt_of_lt hc) _
    have hjoin : carry ++ (d :: ds).flatten = carry ++ d ++ ds.flatten := by simp
    rw [hjoin, fullBlocks_append, ← remainder_append (carry ++ d), List.map_append,
      List.append_assoc, ← ih hrest]
    rfl

/-! ## The obligations -/

/-- Settles O26: the full blocks are the slices, each acknowledged (`bbPut_all_ack`). -/
theorem bbPutForwardsEveryFullBlock : Obligations.BbPutForwardsEveryFullBlock := by
  rintro payload data n k s hp rfl rfl - rfl hwrites
  have hacks : acksWrites Config.ext
      (fullBlocks s.bb0.blen.toNat (s.bb0.carry ++ payload)) s := by
    intro j hj
    simpa [fullBlocks_eq_slices] using hwrites j (by simpa using hj)
  refine congrArg Host.Outcome.next ((bbPut_all_ack hp hacks).trans ?_)
  simp [bbForwarded, fullBlocks_eq_slices, remainder, hp, phaseCode, opcBbPut]

/-- Settles O27: the blocks are split at the refused one (`bbPut_first_nak`). -/
theorem bbPutStopsAtTheFirstRefusal : Obligations.BbPutStopsAtTheFirstRefusal := by
  rintro payload data n k m a s hp rfl rfl rfl hm hwrites rfl hnak
  have hacks : acksWrites Config.ext ((List.range m).map fun j =>
      slice (s.bb0.carry ++ payload) (j * s.bb0.blen.toNat) ((j + 1) * s.bb0.blen.toNat)) s := by
    intro j hj
    simpa using hwrites j (by simpa using hj)
  have hput := bbPut_first_nak hp (fullBlocks_split hm) hacks (by simpa using hnak)
  refine congrArg Host.Outcome.next (hput.trans ?_)
  simp [opcBbPut]

/-- Settles O30, from the calls of the joined pieces (`bufferCalls_eq`) at an empty carry. -/
theorem bufferCallsDoNotDependOnTheCutting : Obligations.BufferCallsDoNotDependOnTheCutting := by
  rintro bl ds m hbl rfl
  rw [bufferCalls_eq ds (carry := []) hbl, List.nil_append, fullBlocks_eq_slices, List.map_map]
  rfl

/-- Settles O24: the unit is reset before it is opened, so that no phase matters. -/
theorem bbOpenOpensAnEmptyBuffer : Obligations.BbOpenOpensAnEmptyBuffer := by
  intro blen s hblen
  refine congrArg Host.Outcome.next ?_
  rw [bbOpen, if_neg hblen]
  rfl

/-- Settles O25: the refusal comes after the reset, so that it is the first cause from every phase. -/
theorem bbOpenRefusesBlockLengthZero : Obligations.BbOpenRefusesBlockLengthZero := fun _ => rfl

/-- Settles O28, by the acknowledged flush (`bbFlush_ack`). -/
theorem bbFlushEmitsTheRemainder : Obligations.BbFlushEmitsTheRemainder := by
  intro s hp hack
  refine congrArg Host.Outcome.next ((bbFlush_ack hp hack).trans ?_)
  simp [hp, phaseCode, opcBbFlush]

/-- Settles O29, by the refused flush (`bbFlush_nak`). -/
theorem bbFlushRefusedFaults : Obligations.BbFlushRefusedFaults := by
  rintro a s hp rfl hnak
  refine congrArg Host.Outcome.next ((bbFlush_nak hp hnak).trans ?_)
  simp [opcBbFlush]

end Sys2Proof.Machine
end

section
/-! The primitives (spec/41_primitives.md R144 to R149): exclusive or and the low bit between bytes
and block values, the doubling of block values and its inverse, and the field laws of the multiply. -/

namespace Sys2Proof

/-! ## Big-endian values (R12, R13) -/

/-- The last byte is the low one. -/
theorem intBe_concat (s : Bytes) (a : Byte) : intBe (s ++ [a]) = intBe s * 256 + a.toNat := by
  simp [intBe]

/-- Encoding turns the exclusive or of values into that of byte sequences. -/
theorem beN_xor (n u v : Nat) : beN n (u ^^^ v) = bxor (beN n u) (beN n v) := by
  induction n with
  | zero => rfl
  | succ n ih => simp [beN, ih, bxor, Nat.shiftRight_xor_distrib, BitVec.ofNat_xor]

end Sys2Proof

namespace Sys2Proof.Machine

/-! ## Block values -/

theorem blockBytes_xor (bl : BlockLen) (u v : BitVec bl.bits) :
    blockBytes bl (u ^^^ v) = bxor (blockBytes bl u) (blockBytes bl v) := by
  simp [blockBytes, beN_xor]

theorem blockOf_bxor {bl : BlockLen} {b c : Bytes} (hb : b.length = bl.bytes)
    (hc : c.length = bl.bytes) : blockOf bl (bxor b c) = blockOf bl b ^^^ blockOf bl c := by
  rw [← blockOf_blockBytes bl (blockOf bl b ^^^ blockOf bl c), blockBytes_xor,
    blockBytes_blockOf hb, blockBytes_blockOf hc]

/-- A block's integer fits the block value. -/
theorem toNat_blockOf {bl : BlockLen} {b : Bytes} (h : b.length = bl.bytes) :
    (blockOf bl b).toNat = intBe b := by
  have hlt : intBe b < 2 ^ bl.bits := by
    rw [bl.bits_eq, Nat.pow_mul, ← h]
    exact intBe_lt b
  rw [blockOf, BitVec.toNat_ofNat, Nat.mod_eq_of_lt hlt]

/-- The low bit of a block value is the low bit of the block's last byte. -/
theorem getLsbD_zero_blockOf {bl : BlockLen} {b : Bytes} (h : b.length = bl.bytes) :
    (blockOf bl b).getLsbD 0 = (b.getD (bl.bytes - 1) 0).getLsbD 0 := by
  have hpos := bl.bytes_pos
  have hb : b ≠ [] := List.length_pos_iff.mp (h ▸ hpos)
  obtain ⟨s, a, rfl⟩ : ∃ s a, b = s ++ [a] := ⟨_, _, (List.dropLast_append_getLast hb).symm⟩
  have hs : bl.bytes - 1 = s.length := by rw [← h]; simp
  have hlast : (s ++ [a]).getD s.length 0 = a := by simp
  rw [hs, hlast, BitVec.getLsbD, BitVec.getLsbD, toNat_blockOf h, intBe_concat, Nat.testBit_zero,
    Nat.testBit_zero, decide_eq_decide]
  omega

/-! ## Doubling (R146, R147) -/

section Doubling

variable {w : Nat}

/-- R146's doubling of a block value, with the reduction constant `r`. -/
def doubleVal (r v : BitVec w) : BitVec w := if v.msb then (v <<< 1) ^^^ r else v <<< 1

/-- R147's inverse doubling of a block value, with the constant `ri`. -/
def halveVal (ri v : BitVec w) : BitVec w := if v.getLsbD 0 then (v >>> 1) ^^^ ri else v >>> 1

/-- Shifting right and back loses the low bit alone. -/
theorem ushiftRight_shiftLeft_one (v : BitVec w) :
    (v >>> 1) <<< 1 = if v.getLsbD 0 then v ^^^ BitVec.twoPow w 0 else v := by
  ext i hi
  cases i with
  | zero => split <;> simp_all [← BitVec.getLsbD_eq_getElem]
  | succ i => split <;> simp [← BitVec.getLsbD_eq_getElem, Nat.add_comm 1, hi]

/-- Shifting left and back loses the high bit alone. -/
theorem shiftLeft_ushiftRight_one (v : BitVec w) :
    (v <<< 1) >>> 1 = if v.msb then v ^^^ BitVec.twoPow w (w - 1) else v := by
  ext i hi
  rcases Nat.lt_or_eq_of_le (Nat.le_sub_one_of_lt hi) with hlt | rfl
  · have : w - 1 ≠ i := by omega
    have : 1 + i < w := by omega
    split <;> simp [*, ← BitVec.getLsbD_eq_getElem]
  · have : w ≤ 1 + (w - 1) := by omega
    have hmsb : v[w - 1] = v.msb := by
      rw [BitVec.msb_eq_getLsbD_last, BitVec.getLsbD_eq_getElem]
    split <;> simp_all

/-- The constant that undoes the doubling with `r`: `r` without its low bit, one bit to the right, and
the high bit that doubling shifts out (R147). -/
def halvingConst (r : BitVec w) : BitVec w := (r >>> 1) ^^^ BitVec.twoPow w (w - 1)

theorem halvingConst_msb {r : BitVec w} (hr : r.getLsbD 0 = true) : (halvingConst r).msb = true := by
  have hw : 0 < w := BitVec.lt_of_getLsbD hr
  simp [halvingConst, hw]

theorem doubleVal_halveVal {r : BitVec w} (hr : r.getLsbD 0 = true) (v : BitVec w) :
    doubleVal r (halveVal (halvingConst r) v) = v := by
  cases hlow : v.getLsbD 0 with
  | false => simp [halveVal, hlow, doubleVal, ushiftRight_shiftLeft_one]
  | true =>
    have hmsb : (v >>> 1 ^^^ halvingConst r).msb = true := by
      simp [halvingConst_msb hr]
    have hconst : halvingConst r <<< 1 = r ^^^ BitVec.twoPow w 0 := by
      rw [halvingConst, BitVec.shiftLeft_xor_distrib, ushiftRight_shiftLeft_one, if_pos hr,
        BitVec.twoPow_eq w (w - 1), ← BitVec.shiftLeft_add,
        BitVec.shiftLeft_eq_zero (by omega), BitVec.xor_zero]
    calc doubleVal r (halveVal (halvingConst r) v)
        = (v >>> 1) <<< 1 ^^^ halvingConst r <<< 1 ^^^ r := by
          simp [halveVal, hlow, doubleVal, hmsb, BitVec.shiftLeft_xor_distrib]
      _ = v := by
          rw [ushiftRight_shiftLeft_one, if_pos hlow, hconst]
          grind

theorem halveVal_doubleVal {r : BitVec w} (hr : r.getLsbD 0 = true) (v : BitVec w) :
    halveVal (halvingConst r) (doubleVal r v) = v := by
  cases hmsb : v.msb with
  | false => simp [halveVal, doubleVal, hmsb, shiftLeft_ushiftRight_one]
  | true =>
    have hlow : (v <<< 1 ^^^ r).getLsbD 0 = true := by simp [hr]
    calc halveVal (halvingConst r) (doubleVal r v)
        = (v <<< 1) >>> 1 ^^^ r >>> 1 ^^^ halvingConst r := by
          simp [halveVal, doubleVal, hmsb, hlow, BitVec.ushiftRight_xor_distrib]
      _ = v := by
          rw [shiftLeft_ushiftRight_one, if_pos hmsb, halvingConst]
          grind

end Doubling

theorem dbl_eq_doubleVal (rb : Byte) (bl : BlockLen) (b : Bytes) :
    dbl rb bl b = blockBytes bl (doubleVal (rb.setWidth bl.bits) (blockOf bl b)) := rfl

theorem invdbl_eq_halveVal (rb : Byte) (bl : BlockLen) (b : Bytes) :
    invdbl rb bl b =
      blockBytes bl (halveVal (BitVec.ofNat bl.bits (invdblConst rb bl)) (blockOf bl b)) := rfl

/-- An odd reduction byte is odd as a block value. -/
theorem getLsbD_zero_reduction {rb : Byte} (bl : BlockLen) (h : rb.toNat % 2 = 1) :
    (rb.setWidth bl.bits).getLsbD 0 = true := by
  cases bl <;> simp [BlockLen.bits, BitVec.getLsbD, h]

/-- The model's constant of R147 is the one that undoes the doubling. -/
theorem ofNat_invdblConst (rb : Byte) (bl : BlockLen) :
    BitVec.ofNat bl.bits (invdblConst rb bl) = halvingConst (rb.setWidth bl.bits) := by
  have hbits : 8 < bl.bits := by cases bl <;> decide
  refine BitVec.eq_of_getLsbD_eq fun i hi => ?_
  have hsum : (2 ^ (bl.bits - 1) + rb.toNat / 2).testBit i =
      (rb.toNat.testBit (i + 1) ^^ decide (i = bl.bits - 1)) := by
    rcases Nat.lt_or_eq_of_le (Nat.le_sub_one_of_lt hi) with hlt | rfl
    · simp [Nat.testBit_two_pow_add_gt hlt, Nat.testBit_div_two, hlt.ne]
    · simp [Nat.testBit_two_pow_add_eq, Nat.testBit_div_two]
  have hbyte : (rb.setWidth bl.bits).getLsbD (i + 1) = rb.toNat.testBit (i + 1) := by
    rw [BitVec.getLsbD, BitVec.toNat_setWidth_of_le hbits.le]
  have hpow : (BitVec.twoPow bl.bits (bl.bits - 1)).getLsbD i = decide (i = bl.bits - 1) := by
    simp [Nat.zero_lt_of_lt hi, eq_comm]
  rw [halvingConst, BitVec.getLsbD_xor, BitVec.getLsbD_ushiftRight, Nat.add_comm 1 i, hbyte, hpow,
    invdblConst, BitVec.getLsbD_ofNat, hsum]
  simp [hi]

theorem dbl_invdbl {rb : Byte} {bl : BlockLen} {b : Bytes} (hrb : rb.toNat % 2 = 1)
    (hb : b.length = bl.bytes) : dbl rb bl (invdbl rb bl b) = b := by
  rw [invdbl_eq_halveVal, dbl_eq_doubleVal, blockOf_blockBytes, ofNat_invdblConst,
    doubleVal_halveVal (getLsbD_zero_reduction bl hrb), blockBytes_blockOf hb]

theorem invdbl_dbl {rb : Byte} {bl : BlockLen} {b : Bytes} (hrb : rb.toNat % 2 = 1)
    (hb : b.length = bl.bytes) : invdbl rb bl (dbl rb bl b) = b := by
  rw [invdbl_eq_halveVal, dbl_eq_doubleVal, blockOf_blockBytes, ofNat_invdblConst,
    halveVal_doubleVal (getLsbD_zero_reduction bl hrb), blockBytes_blockOf hb]

/-! ## The multiply of GHASH (R148, R149) -/

/-- R148's product of block values. -/
def gfMulVal (a v : BitVec 128) : BitVec 128 := gfRounds a 128 0 v

/-- An operation that a product can be pulled through: it is additive and commutes with the
multiplication by `x`, as multiplication by any one element is. -/
structure GfLinear (f : BitVec 128 → BitVec 128) : Prop where
  map_xor : ∀ u v, f (u ^^^ v) = f u ^^^ f v
  map_shift : ∀ v, f (gfShift v) = gfShift (f v)

theorem GfLinear.map_zero {f : BitVec 128 → BitVec 128} (hf : GfLinear f) : f 0 = 0 := by
  have h := hf.map_xor 0 0
  simpa using h

theorem GfLinear.map_gfRounds {f : BitVec 128 → BitVec 128} (hf : GfLinear f) (a : BitVec 128)
    (n : Nat) (z v : BitVec 128) : f (gfRounds a n z v) = gfRounds a n (f z) (f v) := by
  induction n generalizing z v with
  | zero => rfl
  | succ n ih =>
    rw [gfRounds, gfRounds, ih, hf.map_shift, apply_ite f, hf.map_xor]

theorem GfLinear.map_gfMulVal {f : BitVec 128 → BitVec 128} (hf : GfLinear f) (a v : BitVec 128) :
    f (gfMulVal a v) = gfMulVal a (f v) := by
  rw [gfMulVal, hf.map_gfRounds, hf.map_zero, gfMulVal]

theorem gfShift_linear : GfLinear gfShift := ⟨gfShift_xor, fun _ => rfl⟩

theorem gfRounds_xor (a : BitVec 128) (n : Nat) (z z' v v' : BitVec 128) :
    gfRounds a n (z ^^^ z') (v ^^^ v') = gfRounds a n z v ^^^ gfRounds a n z' v' := by
  induction n generalizing z z' v v' with
  | zero => rfl
  | succ n ih =>
    simp only [gfRounds, gfShift_xor, ← ih]
    split
    · congr 1
      ac_rfl
    · rfl

theorem gfMulVal_xor (a u v : BitVec 128) :
    gfMulVal a (u ^^^ v) = gfMulVal a u ^^^ gfMulVal a v := by
  have hzero : (0 : BitVec 128) = 0 ^^^ 0 := rfl
  rw [gfMulVal, hzero, gfRounds_xor]
  rfl

theorem gfMulVal_linear (a : BitVec 128) : GfLinear (gfMulVal a) :=
  ⟨gfMulVal_xor a, fun v => (gfShift_linear.map_gfMulVal a v).symm⟩

/-- The identity `80 00..00` as a block value: `x` to the power 0 (R149). -/
def gfOne : BitVec 128 := BitVec.twoPow 128 127

/-- The powers of `x` go from the high bit down: no reduction before the last bit. -/
theorem gfShift_twoPow {n : Nat} (h : n + 1 < 128) :
    gfShift (BitVec.twoPow 128 (n + 1)) = BitVec.twoPow 128 n := by
  have hlow : (BitVec.twoPow 128 (n + 1)).getLsbD 0 = false := by simp
  rw [gfShift, hlow, if_neg (by decide)]
  ext i hi
  simp [eq_comm, Nat.add_comm 1, h]

/-- The low `n` bits of an element, the high ones cleared. -/
def lowBits (n : Nat) (a : BitVec 128) : BitVec 128 := (a.setWidth n).setWidth 128

theorem lowBits_zero (a : BitVec 128) : lowBits 0 a = 0 := by
  simp [lowBits, BitVec.of_length_zero]

theorem lowBits_all (a : BitVec 128) : lowBits 128 a = a := by simp [lowBits]

theorem lowBits_succ (a : BitVec 128) (n : Nat) :
    lowBits (n + 1) a = if a.getLsbD n then lowBits n a ^^^ BitVec.twoPow 128 n else lowBits n a := by
  split
  next hbit =>
    rw [lowBits, BitVec.setWidth_setWidth_succ_eq_setWidth_setWidth_or_twoPow_of_getLsbD_true hbit,
      lowBits]
    ext i hi
    by_cases hin : i = n <;> simp [hin]
  next hbit =>
    exact BitVec.setWidth_setWidth_succ_eq_setWidth_setWidth_of_getLsbD_false (by simpa using hbit)

/-- The last rounds of the product with a power of `x` gather the low bits of `a`. -/
theorem gfRounds_twoPow (a : BitVec 128) {n : Nat} (h : n < 128) (z : BitVec 128) :
    gfRounds a (n + 1) z (BitVec.twoPow 128 n) = z ^^^ lowBits (n + 1) a := by
  induction n generalizing z with
  | zero =>
    simp only [gfRounds, lowBits_succ, lowBits_zero]
    split <;> simp
  | succ n ih =>
    rw [gfRounds, gfShift_twoPow h, ih (by omega), lowBits_succ a (n + 1)]
    split
    · ac_rfl
    · rfl

theorem gfMulVal_one (a : BitVec 128) : gfMulVal a gfOne = a := by
  rw [gfMulVal, gfOne, gfRounds_twoPow a (by decide), lowBits_all]
  exact BitVec.zero_xor

/-- Multiplications are pulled through each other down to the identity. -/
theorem gfMulVal_comm (a b : BitVec 128) : gfMulVal a b = gfMulVal b a :=
  calc gfMulVal a b
      = gfMulVal a (gfMulVal b gfOne) := by rw [gfMulVal_one]
    _ = gfMulVal b (gfMulVal a gfOne) := (gfMulVal_linear a).map_gfMulVal b gfOne
    _ = gfMulVal b a := by rw [gfMulVal_one]

theorem gfMulVal_assoc (a b c : BitVec 128) :
    gfMulVal (gfMulVal a b) c = gfMulVal a (gfMulVal b c) :=
  calc gfMulVal (gfMulVal a b) c
      = gfMulVal c (gfMulVal a b) := gfMulVal_comm _ _
    _ = gfMulVal a (gfMulVal c b) := (gfMulVal_linear c).map_gfMulVal a b
    _ = gfMulVal a (gfMulVal b c) := by rw [gfMulVal_comm c b]

theorem gfMulVal_shift_one (v : BitVec 128) : gfMulVal (gfShift gfOne) v = gfShift v := by
  rw [gfMulVal_comm, (gfMulVal_linear v).map_shift, gfMulVal_one]

/-! ### The product of blocks -/

/-- A 16-byte block as an element of the field, whose width is written out (R148). -/
def gfOf (b : Bytes) : BitVec 128 := blockOf .b16 b

/-- An element of the field as its 16-byte block (R148). -/
def gfBytes (v : BitVec 128) : Bytes := blockBytes .b16 v

theorem gfMul_eq (a b : Bytes) : gfMul a b = gfBytes (gfMulVal (gfOf a) (gfOf b)) := rfl

theorem gfOf_gfBytes (v : BitVec 128) : gfOf (gfBytes v) = v := blockOf_blockBytes .b16 v

theorem gfBytes_gfOf {b : Bytes} (h : b.length = 16) : gfBytes (gfOf b) = b :=
  blockBytes_blockOf (bl := .b16) h

theorem gfBytes_xor (u v : BitVec 128) : gfBytes (u ^^^ v) = bxor (gfBytes u) (gfBytes v) :=
  blockBytes_xor .b16 u v

theorem gfOf_bxor {b c : Bytes} (hb : b.length = 16) (hc : c.length = 16) :
    gfOf (bxor b c) = gfOf b ^^^ gfOf c :=
  blockOf_bxor (bl := .b16) hb hc

theorem gfBytes_zero : gfBytes 0 = zeros 16 := rfl

theorem gfBytes_one : gfBytes gfOne = [0x80] ++ zeros 15 := rfl

theorem gfBytes_x : gfBytes (gfShift gfOne) = [0x40] ++ zeros 15 := rfl

/-- Multiplying a block by `x`, in bytes: a shift to the right, reduced by the last byte's low bit. -/
theorem gfBytes_gfShift {b : Bytes} (hb : b.length = 16) :
    gfBytes (gfShift (gfOf b)) =
      if (b.getD 15 0).getLsbD 0 then bxor (beN 16 (intBe b >>> 1)) ([0xE1] ++ zeros 15)
      else beN 16 (intBe b >>> 1) := by
  have hlow : (gfOf b).getLsbD 0 = (b.getD 15 0).getLsbD 0 := getLsbD_zero_blockOf (bl := .b16) hb
  have hshift : gfBytes (gfOf b >>> 1) = beN 16 (intBe b >>> 1) :=
    congrArg (fun n => beN 16 (n >>> 1)) (toNat_blockOf (bl := .b16) hb)
  have hconst : gfBytes ghashConst = [0xE1] ++ zeros 15 := rfl
  rw [gfShift, hlow, apply_ite gfBytes, gfBytes_xor, hshift, hconst]

theorem gfMul_comm (a b : Bytes) : gfMul a b = gfMul b a := by
  rw [gfMul_eq, gfMulVal_comm, gfMul_eq]

theorem gfMul_assoc (a b c : Bytes) : gfMul (gfMul a b) c = gfMul a (gfMul b c) := by
  simp only [gfMul_eq, gfOf_gfBytes, gfMulVal_assoc]

theorem gfMul_bxor (a : Bytes) {b c : Bytes} (hb : b.length = 16) (hc : c.length = 16) :
    gfMul a (bxor b c) = bxor (gfMul a b) (gfMul a c) := by
  simp only [gfMul_eq, gfOf_bxor hb hc, gfMulVal_xor, gfBytes_xor]

theorem zeros_gfMul (b : Bytes) : gfMul (zeros 16) b = zeros 16 := by
  rw [gfMul_comm, gfMul_eq, ← gfBytes_zero, gfOf_gfBytes, (gfMulVal_linear _).map_zero]

theorem one_gfMul {b : Bytes} (hb : b.length = 16) : gfMul ([0x80] ++ zeros 15) b = b := by
  rw [gfMul_comm, gfMul_eq, ← gfBytes_one, gfOf_gfBytes, gfMulVal_one, gfBytes_gfOf hb]

theorem x_gfMul {b : Bytes} (hb : b.length = 16) :
    gfMul ([0x40] ++ zeros 15) b =
      if (b.getD 15 0).getLsbD 0 then bxor (beN 16 (intBe b >>> 1)) ([0xE1] ++ zeros 15)
      else beN 16 (intBe b >>> 1) := by
  rw [gfMul_eq, ← gfBytes_x, gfOf_gfBytes, gfMulVal_shift_one, gfBytes_gfShift hb]

/-! ## The obligations -/

/-- Settles O36, from the laws of the product of block values: it commutes because multiplications
commute as linear maps (`gfMulVal_comm`). -/
theorem fieldMultiplyLaws : Obligations.FieldMultiplyLaws := fun a b c _ hb hc =>
  ⟨gfMul_comm a b, gfMul_assoc a b c, gfMul_bxor a hb hc, zeros_gfMul b, one_gfMul hb, x_gfMul hb⟩

/-- Settles O32, because the output is as long as its input, so that the same bytes of the key stream
are added twice. -/
theorem ctrStepDecryptsWhatItEncrypts : Obligations.CtrStepDecryptsWhatItEncrypts := by
  intro x bl q k ctr p hp
  have hlen : (bxor p (first (enc x bl k ctr) p.length)).length = p.length := by simp [hp]
  refine Prod.ext ?_ rfl
  simp only [ctrStep, hlen]
  exact bxor_cancel (by simp [hp])

/-- Settles O33: the counting bytes are the encoding of the next value. -/
theorem counterIncrementWraps : Obligations.CounterIncrementWraps := by
  intro q c hq
  refine ⟨incrW_length hq, incrW_prefix hq, ?_⟩
  have hdrop : (incrW q c).drop (c.length - q) =
      beN q ((intBe (c.drop (c.length - q)) + 1) % 2 ^ (8 * q)) :=
    List.drop_left' (by simp)
  rw [hdrop, intBe_beN, Nat.pow_mul]
  exact Nat.mod_mod _ _

/-- Settles O34: `D` undoes `E` and the vector cancels. -/
theorem cbcDecryptInvertsEncrypt : Obligations.CbcDecryptInvertsEncrypt := by
  intro x bl k v p hv hp
  have hblock : (bxor p v).length = bl.bytes := by simp [hp, hv]
  rw [cbcDecStep, cbcEncStep, dec_enc x k hblock, bxor_cancel (hp.trans hv.symm).le]

/-- Settles O35, from the two directions on block values (`doubleVal_halveVal`,
`halveVal_doubleVal`). -/
theorem doublingAndInverseDoublingCancel : Obligations.DoublingAndInverseDoublingCancel :=
  ⟨fun _ _ _ hrb hb => ⟨dbl_invdbl hrb hb, invdbl_dbl hrb hb⟩, by decide, by decide⟩

end Sys2Proof.Machine
end

section
/-! The GHASH and GCM statements (spec/42_ghash_gcm.md R160 to R172): the counter widths agree until
the low word wraps, what each accepted command of the GCM unit does, and that a session computes
R170's functions however its inputs are cut. -/

namespace Sys2Proof.Machine

/-! ## The two counter widths (R145, R172) -/

section CounterWidth

variable {q : Nat} {a b : Bytes}

/-- The bytes before the counting ones stay in front (R145). -/
theorem incrW_append (h : b.length = q) : incrW q (a ++ b) = a ++ incrW q b := by
  simp [incrW, h]

/-- `i` steps of a counter block add `i` to its low word while that word does not wrap, where each
single step adds one. -/
theorem incrIter_append_beN {w : Nat}
    (hstep : ∀ v, v + 1 < 256 ^ w → incrW q (a ++ beN w v) = a ++ beN w (v + 1)) {i v : Nat}
    (hv : v + i < 256 ^ w) : incrIter q i (a ++ beN w v) = a ++ beN w (v + i) := by
  induction i generalizing v with
  | zero => rfl
  | succ i ih =>
    rw [incrIter_succ, hstep v (by omega), ih (by omega), Nat.add_assoc, Nat.add_comm 1 i]

/-- Settles O37: from a 16-byte block, both widths add one to the low word at each step below the
wrap. -/
theorem counterWidthUnseenWithoutWrap : Obligations.CounterWidthUnseenWithoutWrap := by
  intro j0 n hlen hn i hi
  have hlow : beN 4 (intBe (j0.drop 12)) = j0.drop 12 := by
    have h := beN_intBe (j0.drop 12)
    rwa [List.length_drop, hlen] at h
  have hj0 : j0 = j0.take 12 ++ beN 4 (intBe (j0.drop 12)) := by
    rw [hlow, List.take_append_drop]
  have hfits : intBe (j0.drop 12) + i < 256 ^ 4 := by omega
  have h32 : incrIter 4 i j0 = j0.take 12 ++ beN 4 (intBe (j0.drop 12) + i) := by
    conv_lhs => rw [hj0]
    refine incrIter_append_beN (fun v hv => ?_) hfits
    rw [incrW_append (beN_length 4 v)]
    exact congrArg (j0.take 12 ++ ·) (incrW_append_beN (a := []) rfl hv)
  have h128 : incrIter 16 i j0 = j0.take 12 ++ beN 4 (intBe (j0.drop 12) + i) := by
    conv_lhs => rw [hj0]
    exact incrIter_append_beN (fun v hv => incrW_append_beN (by simp [hlen]) hv) hfits
  exact ⟨h32.trans h128.symm, h32⟩

end CounterWidth

/-! ## The commands of a session (R160, R164 to R166) -/

/-- Settles O38: the operands pass R160's tests, and the key and the IV are taken apart again. -/
theorem gcmInitOpensASession : Obligations.GcmInitOpensASession :=
  fun d _ _ _ _ _ hbl hk hkey hiv h12 ht =>
    congrArg Host.Outcome.next (gcmInit_accepted d hbl hk hkey hiv h12 ht)

/-- Settles O39: the phase and the bit counter pass R164's tests. -/
theorem gcmAadEntersTheAccumulator : Obligations.GcmAadEntersTheAccumulator :=
  fun _ _ hp hfit => congrArg Host.Outcome.next (gcmAad_accepted hp hfit)

/-- Settles O40: while encrypting `HOLD` takes nothing. -/
theorem gcmUpdateEncrypts : Obligations.GcmUpdateEncrypts := by
  rintro payload blocks q s hp hd hfit rfl rfl
  refine congrArg Host.Outcome.next
    ((gcmUpdate_encrypts (sessionPhase_iff.mpr hp) hd hfit).trans ?_)
  rw [gcmWithData, List.append_nil]
  rfl

/-- Settles O41: the phase, the direction and the bit counter select the branch that keeps the
output back. -/
theorem gcmUpdateDecryptsIntoHold : Obligations.GcmUpdateDecryptsIntoHold := by
  rintro payload blocks q s hp hd hfit rfl rfl
  exact congrArg Host.Outcome.next (gcmUpdate_decrypts (sessionPhase_iff.mpr hp) hd hfit)

/-- Settles O42: no payload, so that R166's length test passes. -/
theorem gcmFinalEncryptReturnsTheTag : Obligations.GcmFinalEncryptReturnsTheTag :=
  fun _ hp hd => congrArg Host.Outcome.next (gcmFinal_encrypts (sessionPhase_iff.mpr hp) hd)

/-- Settles O43: the comparison of the whole sequences succeeds. -/
theorem gcmFinalDecryptReleasesOnMatch : Obligations.GcmFinalDecryptReleasesOnMatch :=
  fun _ _ hp hd htag =>
    congrArg Host.Outcome.next (gcmFinal_releases (sessionPhase_iff.mpr hp) hd htag)

theorem gcmFinalRegs_phase (x : Ext) (p : Params) {g : GcmRegs} (hp : sessionPhase g.phase = true) :
    (gcmFinalRegs x p g).phase = .data := by
  rw [gcmFinalRegs, gcmOpenData_of_session hp, gcmFlushData_eq]
  rfl

/-- GCM.FINAL with a byte sequence that is not the computed tag: the unit was in a session, so that
the recorded cause is the new one (R166, R273, R277). -/
theorem gcmFinal_rejects {x : Ext} {s : State} {tag : Bytes} (hp : sessionPhase s.gcm.phase = true)
    (hd : s.gcm.dir = .decrypt) (htag : tag ≠ finalTag x s.gcm) :
    gcmFinal x tag s =
      gcmAnswered { GcmRegs.reset with phase := .fault, err := 3 }
        [⟨.authenticationFailure, opcGcmFinal, 4, []⟩] s := by
  have hmatch : tagMatches tag (finalTag x s.gcm) = false := beq_eq_false_iff_ne.mpr htag
  have hcause : ¬ phaseOf .gcm { s with gcm := gcmFinalRegs x s.par s.gcm } = .fault := by
    simp [phaseOf, gcmFinalRegs_phase x s.par hp]
  rw [gcmFinal_decrypts hp hd, if_pos (by simp [hmatch]), raise, if_neg hcause]
  rfl

/-- Settles O44: the comparison fails for every other sequence. -/
theorem gcmFinalDecryptReleasesNothingOnMismatch :
    Obligations.GcmFinalDecryptReleasesNothingOnMismatch :=
  fun _ _ hp hd htag =>
    congrArg Host.Outcome.next (gcmFinal_rejects (sessionPhase_iff.mpr hp) hd htag)

/-! ## Several commands are one command with the joined payload (R124, R164, R165) -/

section Joining

variable {x : Ext} {p : Params} {g : GcmRegs} {a b payload : Bytes}

/-- A count of bits in two parts is the count of both. -/
theorem ofNat_toNat_ofNat_add (m n : Nat) :
    BitVec.ofNat 64 ((BitVec.ofNat 64 m).toNat + n) = BitVec.ofNat 64 (m + n) := by
  rw [BitVec.ofNat_add, BitVec.ofNat_toNat, BitVec.setWidth_eq, ← BitVec.ofNat_add]

theorem toNat_ofNat_add_le {m n limit : Nat} (h : m + n ≤ limit) :
    (BitVec.ofNat 64 m).toNat + n ≤ limit := by
  rw [BitVec.toNat_ofNat]
  exact le_trans (Nat.add_le_add_right (Nat.mod_le _ _) n) h

theorem gcmWithAad_nil (habuf : g.abuf.length < 16) : gcmWithAad [] g = g := by
  simp [gcmWithAad, fullBlocks_of_lt habuf, remainder_of_lt habuf]

theorem gcmWithAad_gcmWithAad : gcmWithAad b (gcmWithAad a g) = gcmWithAad (a ++ b) g := by
  simp only [gcmWithAad, ofNat_toNat_ofNat_add, remainder_append, ← ghashFrom_append,
    ← fullBlocks_append, ← List.append_assoc, List.length_append, Nat.mul_add, Nat.add_assoc]

/-- The ciphertext blocks that GCM.UPDATE puts into the accumulator (R168). -/
def gcmCipherBlocks (x : Ext) (p : Params) (payload : Bytes) (g : GcmRegs) : List Bytes :=
  match g.dir with
  | .encrypt => gcmBlocksOut x p payload g
  | .decrypt => fullBlocks 16 (g.dbuf ++ payload)

/-- The part of the output that a command of direction `d` returns at once (R165). -/
def gcmReturned (d : Dir) (out : Bytes) : Bytes :=
  match d with
  | .encrypt => out
  | .decrypt => []

/-- The part of the output that goes to `HOLD` (R165, R314). -/
def gcmHeld (d : Dir) (out : Bytes) : Bytes :=
  match d with
  | .encrypt => []
  | .decrypt => out

/-- The registers after an accepted GCM.UPDATE, in either direction (R165). -/
def gcmUpdated (x : Ext) (p : Params) (payload : Bytes) (g : GcmRegs) : GcmRegs :=
  gcmWithData p payload (gcmCipherBlocks x p payload g)
    (gcmHeld g.dir (gcmBlocksOut x p payload g).flatten) g

theorem gcmUpdate_accepted {s : State} (hp : sessionPhase s.gcm.phase = true)
    (hfit : s.gcm.clen.toNat + 8 * payload.length ≤ s.par.gcmPtLimit.toNat) :
    gcmUpdate x payload s =
      gcmAnswered (gcmUpdated x s.par payload s.gcm)
        [⟨.ok, opcGcmUpdate, 2,
          gcmReturned s.gcm.dir (gcmBlocksOut x s.par payload s.gcm).flatten⟩] s := by
  cases hd : s.gcm.dir with
  | encrypt => simp only [gcmUpdate_encrypts hp hd hfit, gcmUpdated, gcmCipherBlocks, gcmHeld,
      gcmReturned, hd]
  | decrypt => simp only [gcmUpdate_decrypts hp hd hfit, gcmUpdated, gcmCipherBlocks, gcmHeld,
      gcmReturned, hd]

theorem gcmReturned_append (d : Dir) :
    gcmReturned d (a ++ b) = gcmReturned d a ++ gcmReturned d b := by cases d <;> rfl

theorem gcmHeld_append (d : Dir) : gcmHeld d (a ++ b) = gcmHeld d a ++ gcmHeld d b := by
  cases d <;> rfl

/-- The second of two pieces goes on with the carry and the counter that the first left. -/
theorem gcmBlocksOut_append :
    gcmBlocksOut x p (a ++ b) g =
      gcmBlocksOut x p a g ++ gcmBlocksOut x p b (gcmUpdated x p a g) := by
  rw [gcmBlocksOut, ← List.append_assoc, fullBlocks_append, ctrPieces_append]
  rfl

theorem gcmCipherBlocks_append :
    gcmCipherBlocks x p (a ++ b) g =
      gcmCipherBlocks x p a g ++ gcmCipherBlocks x p b (gcmUpdated x p a g) := by
  have hdir : (gcmUpdated x p a g).dir = g.dir := rfl
  cases hd : g.dir with
  | encrypt => simp only [gcmCipherBlocks, hdir, hd, gcmBlocksOut_append]
  | decrypt =>
    simp only [gcmCipherBlocks, hdir, hd]
    rw [← List.append_assoc, fullBlocks_append]
    rfl

theorem gcmWithData_gcmWithData {c c' : List Bytes} {out out' : Bytes} :
    gcmWithData p b c' out' (gcmWithData p a c out g) =
      gcmWithData p (a ++ b) (c ++ c') (out ++ out') g := by
  have hclosed : closedX (gcmWithData p a c out g) = ghashFrom g.h (closedX g) c := by
    simp [closedX, gcmWithData]
  have hctr (ctr : Bytes) :
      incrIter (gcmIncBytes p) (fullBlocks 16 (remainder 16 (g.dbuf ++ a) ++ b)).length
        (incrIter (gcmIncBytes p) (fullBlocks 16 (g.dbuf ++ a)).length ctr) =
      incrIter (gcmIncBytes p) (fullBlocks 16 (g.dbuf ++ (a ++ b))).length ctr := by
    rw [← incrIter_add, ← List.length_append, ← fullBlocks_append, List.append_assoc]
  rw [gcmWithData, hclosed]
  simp [gcmWithData, ofNat_toNat_ofNat_add, hctr, remainder_append, ghashFrom_append, Nat.mul_add,
    Nat.add_assoc, -fullBlocks_length, -BitVec.toNat_ofNat]

theorem gcmUpdated_gcmUpdated :
    gcmUpdated x p b (gcmUpdated x p a g) = gcmUpdated x p (a ++ b) g := by
  rw [gcmUpdated, gcmUpdated, gcmWithData_gcmWithData, gcmUpdated, gcmCipherBlocks_append,
    gcmBlocksOut_append, List.flatten_append, gcmHeld_append]
  rfl

/-- A command without payload closes the associated data and does nothing more. -/
theorem gcmUpdated_nil (hp : sessionPhase g.phase = true) (hdbuf : g.dbuf.length < 16) :
    gcmUpdated x p [] g = gcmOpenData g := by
  have hblocks : fullBlocks 16 (g.dbuf ++ []) = [] := by
    rw [List.append_nil, fullBlocks_of_lt hdbuf]
  have hout : gcmBlocksOut x p [] g = [] := by rw [gcmBlocksOut, hblocks, ctrPieces_nil]
  have hcipher : gcmCipherBlocks x p [] g = [] := by
    rw [gcmCipherBlocks, hout, hblocks]
    cases g.dir <;> rfl
  have hheld : gcmHeld g.dir [] = [] := by cases g.dir <;> rfl
  rw [gcmOpenData_of_session hp, gcmUpdated, hout, hcipher, List.flatten_nil, hheld]
  simp [gcmWithData, fullBlocks_of_lt hdbuf, remainder_of_lt hdbuf]

/-- GCM.FINAL closes the associated data itself, so that it does not matter whether a command before
it did (R166, R167). -/
theorem finalTag_openData (hp : sessionPhase g.phase = true) :
    finalTag x (gcmOpenData g) = finalTag x g := by
  have hclosed : closedX (gcmOpenData g) = closedX g := by
    rw [gcmOpenData_of_session hp]
    simp [closedX]
  rw [finalTag, hclosed, gcmOpenData_of_session hp]
  rfl

theorem finalPiece_openData : finalPiece x (gcmOpenData g) = finalPiece x g := by
  rw [gcmOpenData_eq]
  rfl

theorem gcmOpenData_hold : (gcmOpenData g).hold = g.hold := by rw [gcmOpenData_eq]

theorem gcmOpenData_dir : (gcmOpenData g).dir = g.dir := by rw [gcmOpenData_eq]

end Joining

/-! ## Runs of a session's commands -/

/-- Responses that are all OK and whose payloads join to `out` (R96, R169). -/
structure OkResponses (rs : List Response) (out : Bytes) : Prop where
  statuses : ∀ r ∈ rs, r.status = .ok
  payloads : (rs.map Response.payload).flatten = out

section Runs

variable {s : State} {g : GcmRegs} {rs : List Response} {out : Bytes}

theorem OkResponses.concat (h : OkResponses rs out) (opc rphase : Byte) (payload : Bytes) :
    OkResponses (rs ++ [⟨.ok, opc, rphase, payload⟩]) (out ++ payload) where
  statuses r hr := by
    rcases List.mem_append.mp hr with hr | hr
    · exact h.statuses r hr
    · rw [List.mem_singleton.mp hr]
  payloads := by simp [h.payloads]

theorem allOkSince_gcmAnswered (h : OkResponses rs out) : allOkSince s (gcmAnswered g rs s) := by
  simpa [allOkSince, gcmAnswered] using h.statuses

theorem payloadsSince_gcmAnswered (h : OkResponses rs out) :
    payloadsSince s (gcmAnswered g rs s) = out := by
  simpa [payloadsSince, gcmAnswered] using h.payloads

/-- Several GCM.AAD commands leave the registers of one with the joined payload (R124, R164). -/
theorem execAll_gcmAads (is : List Instr) (aads : List Bytes) (hrs : OkResponses rs out)
    (hp : g.phase = .aad) (habuf : g.abuf.length < 16)
    (hfit : g.alen.toNat + 8 * aads.flatten.length ≤ 2 ^ 64 - 1) :
    ∃ rs', OkResponses rs' out ∧
      execAll (aads.map Instr.gcmAad ++ is) (gcmAnswered g rs s) =
        execAll is (gcmAnswered (gcmWithAad aads.flatten g) rs' s) := by
  induction aads generalizing g rs with
  | nil => exact ⟨rs, hrs, by rw [List.flatten_nil, gcmWithAad_nil habuf]; rfl⟩
  | cons a aads ih =>
    rw [List.flatten_cons, List.length_append, Nat.mul_add, ← Nat.add_assoc] at hfit
    have hrs' := hrs.concat opcGcmAad 1 []
    rw [List.append_nil] at hrs'
    obtain ⟨rs', hok, hrun⟩ := ih hrs' (g := gcmWithAad a g) hp
      (remainder_length_lt (by omega) _) (toNat_ofNat_add_le hfit)
    refine ⟨rs', hok, ?_⟩
    rw [List.map_cons, List.cons_append, execAll_cons_gcmAad,
      gcmAad_accepted (s := gcmAnswered g rs s) hp (by exact le_of_add_le_left hfit),
      gcmAnswered_gcmAnswered, gcmAnswered_gcm, hrun, gcmWithAad_gcmWithAad, List.flatten_cons]

/-- Several GCM.UPDATE commands leave the registers of one with the joined payload, but for closing
the associated data, which no command has done where there is none (R124, R165). -/
theorem execAll_gcmUpdates (is : List Instr) (datas : List Bytes) (hrs : OkResponses rs out)
    (hp : sessionPhase g.phase = true) (hdbuf : g.dbuf.length < 16)
    (hfit : g.clen.toNat + 8 * datas.flatten.length ≤ s.par.gcmPtLimit.toNat) :
    ∃ g' rs', sessionPhase g'.phase = true ∧
      gcmOpenData g' = gcmUpdated Config.ext s.par datas.flatten g ∧
      OkResponses rs' (out ++
        gcmReturned g.dir (gcmBlocksOut Config.ext s.par datas.flatten g).flatten) ∧
      execAll (datas.map Instr.gcmUpdate ++ is) (gcmAnswered g rs s) =
        execAll is (gcmAnswered g' rs' s) := by
  induction datas generalizing g rs out with
  | nil =>
    have hout : gcmReturned g.dir (gcmBlocksOut Config.ext s.par [] g).flatten = [] := by
      rw [gcmBlocksOut, List.append_nil, fullBlocks_of_lt hdbuf]
      cases g.dir <;> rfl
    exact ⟨g, rs, hp, (gcmUpdated_nil hp hdbuf).symm, by
      rwa [List.flatten_nil, hout, List.append_nil], rfl⟩
  | cons d datas ih =>
    rw [List.flatten_cons, List.length_append, Nat.mul_add, ← Nat.add_assoc] at hfit
    obtain ⟨g', rs', hp', hregs, hok, hrun⟩ := ih
      (hrs.concat opcGcmUpdate 2
        (gcmReturned g.dir (gcmBlocksOut Config.ext s.par d g).flatten))
      (g := gcmUpdated Config.ext s.par d g) rfl (remainder_length_lt (by omega) _)
      (toNat_ofNat_add_le hfit)
    refine ⟨g', rs', hp', ?_, ?_, ?_⟩
    · rw [hregs, gcmUpdated_gcmUpdated, List.flatten_cons]
    · rw [List.flatten_cons, gcmBlocksOut_append, List.flatten_append, gcmReturned_append,
        ← List.append_assoc]
      exact hok
    · rw [List.map_cons, List.cons_append, execAll_cons_gcmUpdate,
        gcmUpdate_accepted (s := gcmAnswered g rs s) hp (by exact le_of_add_le_left hfit),
        gcmAnswered_gcmAnswered]
      exact hrun

end Runs

/-! ## Sessions, however their inputs are cut (R169, R170) -/

section Cut

variable {s : State} {x : Ext} {p : Params} {d : Dir} {klen tlen : Byte}
  {key iv aad data : Bytes} {aads datas : List Bytes}

/-- The unit's registers after GCM.INIT, the associated data and the data of a session, each input
given in one command. -/
def gcmFed (x : Ext) (p : Params) (d : Dir) (tlen : Byte) (key iv aad data : Bytes) : GcmRegs :=
  gcmUpdated x p data (gcmOpened x p d tlen key iv aad)

theorem gcmFed_encrypt :
    gcmFed x p .encrypt tlen key iv aad data =
      gcmWithData p data (fullBlocks 16 (gcmCrypt x (gcmIncBytes p) key iv data)) []
        (gcmOpened x p .encrypt tlen key iv aad) := by
  rw [← gcmBlocksOut_opened]
  rfl

theorem gcmFed_decrypt :
    gcmFed x p .decrypt tlen key iv aad data =
      gcmWithData p data (fullBlocks 16 data)
        (fullBlocks 16 (gcmCrypt x (gcmIncBytes p) key iv data)).flatten
        (gcmOpened x p .decrypt tlen key iv aad) := by
  rw [← gcmBlocksOut_opened]
  rfl

/-- A session before its GCM.FINAL: whatever the cutting, FINAL sees the registers of the session
with each input in one command, and the responses so far return the full blocks of R170's
function. -/
theorem execAll_gcm_cut (d : Dir) (is : List Instr)
    (hok : GcmOperandsOk s.par klen tlen key iv aads.flatten datas.flatten) :
    ∃ g rs, sessionPhase g.phase = true ∧
      gcmOpenData g = gcmFed Config.ext s.par d tlen key iv aads.flatten datas.flatten ∧
      OkResponses rs (gcmReturned d
        (fullBlocks 16 (gcmCrypt Config.ext (gcmIncBytes s.par) key iv datas.flatten)).flatten) ∧
      execAll (.gcmInit d klen tlen (key ++ iv) ::
        (aads.map Instr.gcmAad ++ (datas.map Instr.gcmUpdate ++ is))) s =
        execAll is (gcmAnswered g rs s) := by
  have hinit : OkResponses [⟨.ok, opcGcmInit, 1, []⟩] [] := ⟨by simp, rfl⟩
  have haad : (gcmKeyed Config.ext s.par d tlen key iv).alen.toNat + 8 * aads.flatten.length ≤
      2 ^ 64 - 1 := by
    simpa [gcmKeyed, GcmRegs.reset] using hok.aad_fits
  obtain ⟨rs, hrs, hopen⟩ := execAll_gcmAads (s := s) (datas.map Instr.gcmUpdate ++ is) aads hinit
    (g := gcmKeyed Config.ext s.par d tlen key iv) rfl (by simp [gcmKeyed, GcmRegs.reset]) haad
  obtain ⟨g, rs', hp, hregs, hrs', hrun⟩ := execAll_gcmUpdates is datas hrs
    (g := gcmOpened Config.ext s.par d tlen key iv aads.flatten) rfl (by simp)
    (gcmOpened_data_fits hok)
  refine ⟨g, rs', hp, hregs, ?_, ?_⟩
  · rwa [List.nil_append, gcmBlocksOut_opened] at hrs'
  · rw [execAll_cons_gcmInit, gcmInit_accepted d hok.blockLen hok.klen_eq hok.keyLen hok.iv_ne
      hok.iv_length hok.tagLen, hopen]
    exact hrun

/-- Settles O45: GCM.FINAL adds the short last piece of the ciphertext and the tag to the blocks
returned before it. -/
theorem gcmEncryptionSessionComputesGcm : Obligations.GcmEncryptionSessionComputesGcm := by
  intro klen tlen key iv aads datas c s hbl hk hkey hiv h12 ht haad hdata hc
  have hok : GcmOperandsOk s.par klen tlen key iv aads.flatten datas.flatten :=
    ⟨hbl, hk, hkey, hiv, h12, ht, haad, hdata⟩
  obtain ⟨g, rs, hp, hregs, hrs, hrun⟩ := execAll_gcm_cut .encrypt [.gcmFinal []] hok
  rw [gcmFed_encrypt, ← hc] at hregs
  have hdir : g.dir = .encrypt := by
    rw [← gcmOpenData_dir, hregs]
    rfl
  have hpiece : finalPiece Config.ext g = remainder 16 c := by
    rw [← finalPiece_openData, hregs, finalPiece_withData, hc]
  have htag : finalTag Config.ext g = gcmTagOf Config.ext key iv tlen.toNat aads.flatten c := by
    rw [← finalTag_openData hp, hregs]
    refine finalTag_withData hok (by rw [hc, gcmCrypt_length]) ?_
    exact (finalPiece_withData ..).trans (by rw [hc])
  have hall := hrs.concat opcGcmFinal 3 (finalPiece Config.ext g ++ finalTag Config.ext g)
  refine ⟨_, hrun.trans (congrArg Host.Outcome.next
    ((gcmFinal_encrypts (s := gcmAnswered g rs s) hp hdir).trans (gcmAnswered_gcmAnswered ..))),
    allOkSince_gcmAnswered hall, rfl, ?_⟩
  refine (payloadsSince_gcmAnswered hall).trans ?_
  rw [gcmReturned, ← hc, hpiece, htag, ← List.append_assoc, fullBlocks_flatten_append]

/-- Settles O46: GCM.FINAL accepts the tag, returns what is held and the short last piece, and
R170's function undoes itself. -/
theorem gcmDecryptionSessionReturnsThePlaintext :
    Obligations.GcmDecryptionSessionReturnsThePlaintext := by
  intro klen tlen key iv plain aads datas s hbl hk hkey hiv h12 ht haad hdata hcipher
  have hok : GcmOperandsOk s.par klen tlen key iv aads.flatten datas.flatten :=
    ⟨hbl, hk, hkey, hiv, h12, ht, haad, hdata⟩
  have hplain : gcmCrypt Config.ext (gcmIncBytes s.par) key iv datas.flatten = plain := by
    rw [hcipher, gcmCrypt_gcmCrypt]
  obtain ⟨g, rs, hp, hregs, hrs, hrun⟩ := execAll_gcm_cut .decrypt
    [.gcmFinal (gcmTagOf Config.ext key iv tlen.toNat aads.flatten datas.flatten)] hok
  rw [gcmFed_decrypt, hplain] at hregs
  have hdir : g.dir = .decrypt := by
    rw [← gcmOpenData_dir, hregs]
    rfl
  have hpiece : finalPiece Config.ext g = remainder 16 plain := by
    rw [← finalPiece_openData, hregs, finalPiece_withData, hplain]
  have hhold : g.hold = (fullBlocks 16 plain).flatten := by
    rw [← gcmOpenData_hold, hregs, gcmWithData_hold, gcmOpened_hold, List.nil_append]
  have htag : finalTag Config.ext g =
      gcmTagOf Config.ext key iv tlen.toNat aads.flatten datas.flatten := by
    rw [← finalTag_openData hp, hregs]
    exact finalTag_withData hok rfl rfl
  have hall := hrs.concat opcGcmFinal 3 (g.hold ++ finalPiece Config.ext g)
  refine ⟨_, hrun.trans (congrArg Host.Outcome.next
    (gcmFinal_releases_of_answered hp hdir htag.symm)), allOkSince_gcmAnswered hall, rfl, ?_⟩
  refine (payloadsSince_gcmAnswered hall).trans ?_
  rw [gcmReturned, List.nil_append, hhold, hpiece, fullBlocks_flatten_append]

end Cut

end Sys2Proof.Machine
end

section
/-! The CCM statements (spec/43_ccm.md R200 to R210): the counter blocks of a nonce are a counter
chain, what each accepted command of the CCM unit does, and that a session computes R210's functions
however its inputs are cut. -/

namespace Sys2Proof.Machine

/-! ## The blocks of a nonce (R205, R207) -/

section Blocks

variable {c : CcmRegs} {n : Bytes}

/-- The registers format the counter blocks of their nonce (R207). -/
theorem ccmCtrBlock_eq (hn : c.n.length = c.nlen.toNat) (i : Nat) :
    ccmCtrBlock c i = ccmCounterBlock c.n i := by
  rw [ccmCtrBlock, ccmCounterBlock, ccmLf, hn]

/-- The registers format the first block of their nonce, tag length and associated data (R205). -/
theorem ccmB0_eq (hn : c.n.length = c.nlen.toNat) (lm : Nat) :
    ccmB0 c lm = ccmFirstBlock c.n c.tlen.toNat c.astore lm := by
  rw [ccmB0, ccmFirstBlock, ccmLf, hn]

theorem ccmCounterBlock_length (hn : n.length ≤ 13) (i : Nat) :
    (ccmCounterBlock n i).length = 16 := by
  simp [ccmCounterBlock]
  omega

/-- A 128-bit step from a counter block adds one to the counter value, which its field holds
(R207). -/
theorem incrW_ccmCounterBlock (hn : n.length ≤ 13) {i : Nat} (hi : i + 1 < 256 ^ (15 - n.length)) :
    incrW 16 (ccmCounterBlock n i) = ccmCounterBlock n (i + 1) :=
  incrW_append_beN (by simp; omega) hi

theorem incrIter_ccmCounterBlock (hn : n.length ≤ 13) {i v : Nat}
    (hv : v + i < 256 ^ (15 - n.length)) :
    incrIter 16 i (ccmCounterBlock n v) = ccmCounterBlock n (v + i) :=
  incrIter_append_beN (fun _ => incrW_ccmCounterBlock hn) hv

/-- Settles O51: the counter value stands in the last bytes of the block and does not overflow
them. -/
theorem ccmCounterBlocksStepByOne : Obligations.CcmCounterBlocksStepByOne := by
  intro c i _ h13 hn _
  refine ⟨rfl, ?_, fun hi => ?_⟩
  · rw [ccmCtrBlock_eq hn, ccmCounterBlock_length (hn ▸ h13)]
  · rw [ccmCtrBlock_eq hn, ccmCtrBlock_eq hn]
    exact incrW_ccmCounterBlock (hn ▸ h13) (by rwa [hn, ← Nat.pow_mul 2 8])

end Blocks

/-! ## R210's function of the message -/

section Crypt

variable (x : Ext) (k : Bytes) {n p : Bytes}

theorem pieces_length (n : Nat) (s : Bytes) : (pieces n s).length = (s.length + (n - 1)) / n :=
  cut_length _ _ _

/-- The message is under the counter chain that starts at counter block 1: it is too short for the
counter field to wrap (R203, R209, R210). -/
theorem ccmCrypt_eq_ctrCrypt (hn : n.length ≤ 13) (hp : p.length < 2 ^ (8 * (15 - n.length))) :
    ccmCrypt x k n p = ctrCrypt x 16 k (ccmCounterBlock n 1) p := by
  have hblocks : p.length < 256 ^ (15 - n.length) := by rwa [← Nat.pow_mul 2 8]
  rw [ccmCrypt, ctrCrypt, ctrPieces]
  refine congrArg List.flatten (List.ext_getElem (by simp) fun i hi _ => ?_)
  rw [List.length_mapIdx, pieces_length] at hi
  have hctr := incrIter_ccmCounterBlock hn (i := i) (v := 1) (by omega)
  simp [hctr, Nat.add_comm 1 i]

theorem ccmCrypt_length (hn : n.length ≤ 13) (hp : p.length < 2 ^ (8 * (15 - n.length))) :
    (ccmCrypt x k n p).length = p.length := by
  rw [ccmCrypt_eq_ctrCrypt x k hn hp, ctrCrypt_length]

/-- Encrypting and decrypting are one function, which undoes itself (R210). -/
theorem ccmCrypt_ccmCrypt (hn : n.length ≤ 13) (hp : p.length < 2 ^ (8 * (15 - n.length))) :
    ccmCrypt x k n (ccmCrypt x k n p) = p := by
  rw [ccmCrypt_eq_ctrCrypt x k hn (by rwa [ccmCrypt_length x k hn hp]),
    ccmCrypt_eq_ctrCrypt x k hn hp, ctrCrypt_ctrCrypt]

end Crypt

/-! ## The commands that open a session and store (R201 to R203) -/

/-- `s` with the registers `c` in the CCM unit and the responses `rs` put on the port. -/
def ccmAnswered (c : CcmRegs) (rs : List Response) (s : State) : State :=
  { s with ccm := c, respOut := s.respOut ++ rs }

/-- The registers of a session in phase `ph` that has stored `aad` and `data` (R201 to R203). -/
def ccmFed (ph : Phase) (d : Dir) (tlen : Byte) (key nonce aad data : Bytes) : CcmRegs :=
  { CcmRegs.reset with
    phase := ph, dir := d, tlen := tlen, nlen := BitVec.ofNat 8 nonce.length, kv := true
    k := key, n := nonce, astore := aad, mstore := data }

section Store

variable {s : State} {payload : Bytes}

theorem ccmAnswered_ccmAnswered (c c' : CcmRegs) (rs rs' : List Response) (s : State) :
    ccmAnswered c' rs' (ccmAnswered c rs s) = ccmAnswered c' (rs ++ rs') s := by
  simp [ccmAnswered]

/-- R201 in a form whose key and nonce are given apart. -/
theorem ccmInitOk_append {p : Params} {klen tlen : Byte} {key nonce : Bytes}
    (hbl : p.blockLen = .b16) (hk : klen.toNat = key.length) (hkey : klen.toNat ∈ p.keyLens)
    (hn7 : 7 ≤ nonce.length) (hn13 : nonce.length ≤ 13) (ht4 : 4 ≤ tlen.toNat)
    (ht16 : tlen.toNat ≤ 16) (heven : tlen.toNat % 2 = 0) :
    ccmInitOk p klen tlen (key ++ nonce) = true := by
  simp [ccmInitOk, ccmTagLenOk, keyLenOk_iff, hbl, hk ▸ hkey, hk, hn7, hn13, ht4, ht16, heven]

theorem ccmInit_accepted {klen tlen : Byte} {key nonce : Bytes} (d : Dir)
    (hbl : s.par.blockLen = .b16) (hk : klen.toNat = key.length) (hkey : klen.toNat ∈ s.par.keyLens)
    (hn7 : 7 ≤ nonce.length) (hn13 : nonce.length ≤ 13) (ht4 : 4 ≤ tlen.toNat)
    (ht16 : tlen.toNat ≤ 16) (heven : tlen.toNat % 2 = 0) :
    ccmInit d klen tlen (key ++ nonce) s =
      ccmAnswered (ccmFed .aad d tlen key nonce [] []) [⟨.ok, opcCcmInit, 1, []⟩] s := by
  have hok := ccmInitOk_append hbl hk hkey hn7 hn13 ht4 ht16 heven
  have hinitKey : initKey klen (key ++ nonce) = key := by simp [initKey, slice, hk]
  have hinitIv : initIv klen (key ++ nonce) = nonce := by simp [initIv, slice, hk]
  have hnlen : (key ++ nonce).length - klen.toNat = nonce.length := by simp [hk]
  simp only [ccmInit, hok, hinitKey, hinitIv, hnlen, Bool.not_true, Bool.false_eq_true, if_false]
  rfl

theorem ccmAad_accepted (hp : s.ccm.phase = .aad)
    (hfit : s.ccm.astore.length + payload.length < 2 ^ 64) :
    ccmAad payload s =
      ccmAnswered { s.ccm with astore := s.ccm.astore ++ payload } [⟨.ok, opcCcmAad, 1, []⟩] s := by
  have hfits := (ccmAadFits_iff s.ccm payload.length).mpr hfit
  rw [ccmAad, if_neg (not_not.mpr hp), if_neg (by simp [hfits])]
  simp [ccmAnswered, reply, respond, phaseOf, hp, phaseCode]

theorem ccmUpdate_accepted (hp : sessionPhase s.ccm.phase = true)
    (hfit : s.ccm.mstore.length + payload.length < 2 ^ (8 * (15 - s.ccm.nlen.toNat))) :
    ccmUpdate payload s =
      ccmAnswered { s.ccm with mstore := s.ccm.mstore ++ payload, phase := .data }
        [⟨.ok, opcCcmUpdate, 2, []⟩] s := by
  have hfits := (ccmMsgFits_iff s.ccm payload.length).mpr hfit
  rw [ccmUpdate, if_neg (by simp [hp]), if_neg (by simp [hfits])]
  rfl

end Store

/-- Settles O48: the operands pass R201's tests, and the key and the nonce are taken apart again. -/
theorem ccmInitOpensASession : Obligations.CcmInitOpensASession :=
  fun d _ _ _ _ _ hbl hk hkey hn7 hn13 ht4 ht16 heven =>
    congrArg Host.Outcome.next (ccmInit_accepted d hbl hk hkey hn7 hn13 ht4 ht16 heven)

/-- Settles O49: the phase and the length pass R202's tests. -/
theorem ccmAadStores : Obligations.CcmAadStores :=
  fun _ _ hp hfit => congrArg Host.Outcome.next (ccmAad_accepted hp hfit)

/-- Settles O50: the phase and the length pass R203's tests. -/
theorem ccmUpdateStores : Obligations.CcmUpdateStores :=
  fun _ _ hp hfit =>
    congrArg Host.Outcome.next (ccmUpdate_accepted (sessionPhase_iff.mpr hp) hfit)

/-! ## CCM.FINAL (R204, R208, R209) -/

/-- The nonce and the message the registers hold are as R43 keeps them: the counter blocks are those
of the nonce, and the message does not wrap them. -/
structure CcmHolds (c : CcmRegs) : Prop where
  nlen_le : c.nlen.toNat ≤ 13
  nonce_length : c.n.length = c.nlen.toNat
  message_fits : c.mstore.length < 2 ^ (8 * (15 - c.nlen.toNat))

section Final

variable {x : Ext} {s : State} {c : CcmRegs} {payload : Bytes}

/-- The CTR pass as R210's counter chain, and the working counter it leaves (R209). -/
theorem ccmCtr_eq (x : Ext) (data : Bytes) (c : CcmRegs) :
    ccmCtr x data c =
      (ctrCrypt x 16 c.k c.a data,
        { c with a := incrIter 16 (pieces 16 data).length c.a }) :=
  ccmCtrPieces_eq x (pieces 16 data) c

@[simp] theorem ccmStart_dir : (ccmStart x c).dir = c.dir := by simp only [ccmStart]

@[simp] theorem ccmStart_mstore : (ccmStart x c).mstore = c.mstore := by
  simp only [ccmStart]

/-- Keystream block 0 is kept for the tag (R204, R207). -/
theorem ccmStart_s0 (hn : c.n.length = c.nlen.toNat) :
    (ccmStart x c).s0 = enc x .b16 c.k (ccmCounterBlock c.n 0) := by
  rw [← ccmCtrBlock_eq hn]
  rfl

/-- The CTR pass sets out from counter block 1 (R204, R207). -/
theorem ccmStart_a (hc : CcmHolds c) : (ccmStart x c).a = ccmCounterBlock c.n 1 := by
  have h13 : c.n.length ≤ 13 := hc.nonce_length.trans_le hc.nlen_le
  have hone : 0 + 1 < 256 ^ (15 - c.n.length) := Nat.one_lt_pow (by omega) (by omega)
  rw [← incrW_ccmCounterBlock h13 hone, ← ccmCtrBlock_eq hc.nonce_length]
  rfl

/-- The CTR pass over the stored message computes R210's function (R209, R210). -/
theorem ccmCtr_output (hc : CcmHolds c) {w : CcmRegs} (hk : w.k = c.k)
    (ha : w.a = (ccmStart x c).a) : (ccmCtr x c.mstore w).1 = ccmCrypt x c.k c.n c.mstore := by
  have hfits := hc.message_fits
  rw [← hc.nonce_length] at hfits
  rw [ccmCtr_eq, hk, ha, ccmStart_a hc,
    ccmCrypt_eq_ctrCrypt x c.k (hc.nonce_length.trans_le hc.nlen_le) hfits]

/-- The authentication value of the plaintext, truncated and masked, is R210's tag (R204, R208). -/
theorem ccmMaskedTag_ccmMac (hn : c.n.length = c.nlen.toNat)
    (hs0 : c.s0 = enc x .b16 c.k (ccmCounterBlock c.n 0)) (p : Bytes) :
    ccmMaskedTag (ccmMac x p c) = ccmTagOf x c.k c.n c.tlen.toNat c.astore p := by
  rw [ccmMac, ccmB0_eq hn, ccmMaskedTag, ccmTagOf, ← hs0]
  rfl

/-- The CTR pass leaves what the tag is made of. -/
theorem ccmMaskedTag_ccmCtr (data : Bytes) :
    ccmMaskedTag (ccmCtr x data c).2 = ccmMaskedTag c := by
  rw [ccmCtr_eq]
  rfl

/-- The tag over the stored plaintext, the CTR pass coming after it (R204). -/
theorem ccmMaskedTag_encrypt (hc : CcmHolds c) :
    ccmMaskedTag (ccmCtr x c.mstore (ccmMac x c.mstore (ccmStart x c))).2 =
      ccmTagOf x c.k c.n c.tlen.toNat c.astore c.mstore := by
  rw [ccmMaskedTag_ccmCtr]
  exact ccmMaskedTag_ccmMac (c := ccmStart x c) hc.nonce_length (ccmStart_s0 hc.nonce_length) _

/-- The tag over the plaintext `p`, the CTR pass coming before it (R204). -/
theorem ccmMaskedTag_decrypt (hc : CcmHolds c) (p : Bytes) :
    ccmMaskedTag (ccmMac x p (ccmCtr x c.mstore (ccmStart x c)).2) =
      ccmTagOf x c.k c.n c.tlen.toNat c.astore p := by
  rw [ccmCtr_eq]
  exact ccmMaskedTag_ccmMac (c := { ccmStart x c with a := _ }) hc.nonce_length
    (ccmStart_s0 hc.nonce_length) p

/-- An error in a session: the recorded cause is the new one (R25, R277). -/
theorem raise_ccm_of_session (k : Status) (opc : Byte) (hp : sessionPhase s.ccm.phase = true) :
    raise .ccm k opc s =
      ccmAnswered { CcmRegs.reset with phase := .fault, err := statusCode k }
        [⟨k, opc, 4, []⟩] s := by
  have hcause : ¬ phaseOf .ccm s = .fault := ne_fault_of_sessionPhase hp
  rw [raise, if_neg hcause]
  rfl

theorem ccmFinal_encrypts (hp : sessionPhase s.ccm.phase = true) (hd : s.ccm.dir = .encrypt)
    (hc : CcmHolds s.ccm) :
    ccmFinal x [] s =
      ccmAnswered { CcmRegs.reset with phase := .done }
        [⟨.ok, opcCcmFinal, 3, ccmCrypt x s.ccm.k s.ccm.n s.ccm.mstore ++
          ccmTagOf x s.ccm.k s.ccm.n s.ccm.tlen.toNat s.ccm.astore s.ccm.mstore⟩] s := by
  have hout : (ccmCtr x s.ccm.mstore (ccmMac x s.ccm.mstore (ccmStart x s.ccm))).1 =
      ccmCrypt x s.ccm.k s.ccm.n s.ccm.mstore := ccmCtr_output hc rfl rfl
  rw [ccmFinal, if_neg (by simp [hp]), if_neg (by simp)]
  simp only [ccmStart_dir, ccmStart_mstore, hd, hout, ccmMaskedTag_encrypt hc]
  rfl

/-- The plaintext is returned on the computed tag, and nothing on any other byte sequence
(R204, R273). -/
theorem ccmFinal_decrypts (hp : sessionPhase s.ccm.phase = true) (hd : s.ccm.dir = .decrypt)
    (hc : CcmHolds s.ccm) :
    ccmFinal x payload s =
      if tagMatches payload (ccmTagOf x s.ccm.k s.ccm.n s.ccm.tlen.toNat s.ccm.astore
          (ccmCrypt x s.ccm.k s.ccm.n s.ccm.mstore)) then
        ccmAnswered { CcmRegs.reset with phase := .done }
          [⟨.ok, opcCcmFinal, 3, ccmCrypt x s.ccm.k s.ccm.n s.ccm.mstore⟩] s
      else
        ccmAnswered { CcmRegs.reset with phase := .fault, err := 3 }
          [⟨.authenticationFailure, opcCcmFinal, 4, []⟩] s := by
  have hout : (ccmCtr x s.ccm.mstore (ccmStart x s.ccm)).1 =
      ccmCrypt x s.ccm.k s.ccm.n s.ccm.mstore := ccmCtr_output hc rfl rfl
  rw [ccmFinal, if_neg (by simp [hp]), if_neg (by simp [hd])]
  simp only [ccmStart_dir, ccmStart_mstore, hd, hout, ccmMaskedTag_decrypt hc]
  cases tagMatches payload (ccmTagOf x s.ccm.k s.ccm.n s.ccm.tlen.toNat s.ccm.astore
    (ccmCrypt x s.ccm.k s.ccm.n s.ccm.mstore)) with
  | true => rfl
  | false =>
    have hphase := (ccm_passes_phase x (ccmCrypt x s.ccm.k s.ccm.n s.ccm.mstore) s.ccm.mstore
      s.ccm).symm ▸ hp
    exact raise_ccm_of_session _ _ hphase

theorem ccmFinal_releases (hp : sessionPhase s.ccm.phase = true) (hd : s.ccm.dir = .decrypt)
    (hc : CcmHolds s.ccm)
    (htag : payload = ccmTagOf x s.ccm.k s.ccm.n s.ccm.tlen.toNat s.ccm.astore
      (ccmCrypt x s.ccm.k s.ccm.n s.ccm.mstore)) :
    ccmFinal x payload s =
      ccmAnswered { CcmRegs.reset with phase := .done }
        [⟨.ok, opcCcmFinal, 3, ccmCrypt x s.ccm.k s.ccm.n s.ccm.mstore⟩] s :=
  (ccmFinal_decrypts hp hd hc).trans (if_pos (beq_iff_eq.mpr htag))

theorem ccmFinal_rejects (hp : sessionPhase s.ccm.phase = true) (hd : s.ccm.dir = .decrypt)
    (hc : CcmHolds s.ccm)
    (htag : payload ≠ ccmTagOf x s.ccm.k s.ccm.n s.ccm.tlen.toNat s.ccm.astore
      (ccmCrypt x s.ccm.k s.ccm.n s.ccm.mstore)) :
    ccmFinal x payload s =
      ccmAnswered { CcmRegs.reset with phase := .fault, err := 3 }
        [⟨.authenticationFailure, opcCcmFinal, 4, []⟩] s :=
  (ccmFinal_decrypts hp hd hc).trans (if_neg (mt beq_iff_eq.mp htag))

end Final

/-- Settles O52: no payload, so that R204's length test passes. -/
theorem ccmFinalEncryptReturnsCiphertextAndTag :
    Obligations.CcmFinalEncryptReturnsCiphertextAndTag :=
  fun _ hp hd _ h13 hn hm =>
    congrArg Host.Outcome.next (ccmFinal_encrypts (sessionPhase_iff.mpr hp) hd ⟨h13, hn, hm⟩)

/-- Settles O53: the comparison of the whole sequences succeeds for the computed tag and fails for
every other sequence. -/
theorem ccmFinalDecryptReleasesOnMatchOnly : Obligations.CcmFinalDecryptReleasesOnMatchOnly := by
  rintro tag p s hp hd - h13 hn hm rfl
  have hphase := sessionPhase_iff.mpr hp
  exact ⟨fun htag => congrArg Host.Outcome.next (ccmFinal_releases hphase hd ⟨h13, hn, hm⟩ htag),
    fun htag => congrArg Host.Outcome.next (ccmFinal_rejects hphase hd ⟨h13, hn, hm⟩ htag)⟩

/-! ## Sessions, however their inputs are cut (R210) -/

section Runs

variable {s t : State} {rs : List Response} {out : Bytes} {ph : Phase} {d : Dir} {klen tlen : Byte}
  {key nonce aad data payload : Bytes} {aads datas : List Bytes}

theorem allOkSince_of_appended (h : OkResponses rs out) (ht : t.respOut = s.respOut ++ rs) :
    allOkSince s t := by
  simpa [allOkSince, ht] using h.statuses

theorem payloadsSince_of_appended (h : OkResponses rs out) (ht : t.respOut = s.respOut ++ rs) :
    payloadsSince s t = out := by
  simpa [payloadsSince, ht] using h.payloads

/-- A response without payload adds nothing to what a session has returned. -/
theorem OkResponses.concat_nil (h : OkResponses rs out) (opc rphase : Byte) :
    OkResponses (rs ++ [⟨.ok, opc, rphase, []⟩]) out := by
  simpa using h.concat opc rphase []

theorem execAll_cons_ccmInit (is : List Instr) :
    execAll (.ccmInit d klen tlen payload :: is) s =
      execAll is (ccmInit d klen tlen payload s) := rfl

theorem execAll_cons_ccmAad (is : List Instr) :
    execAll (.ccmAad payload :: is) s = execAll is (ccmAad payload s) := rfl

theorem execAll_cons_ccmUpdate (is : List Instr) :
    execAll (.ccmUpdate payload :: is) s = execAll is (ccmUpdate payload s) := rfl

theorem execAll_ccmFinal :
    execAll [.ccmFinal payload] s = .next (ccmFinal Config.ext payload s) := rfl

/-- Several CCM.AAD commands store the joined payload (R202). -/
theorem execAll_ccmAads (is : List Instr) (aads : List Bytes) (hrs : OkResponses rs out)
    (hfit : aad.length + aads.flatten.length < 2 ^ 64) :
    ∃ rs', OkResponses rs' out ∧
      execAll (aads.map Instr.ccmAad ++ is)
        (ccmAnswered (ccmFed .aad d tlen key nonce aad data) rs s) =
        execAll is (ccmAnswered (ccmFed .aad d tlen key nonce (aad ++ aads.flatten) data) rs' s) := by
  induction aads generalizing aad rs with
  | nil => exact ⟨rs, hrs, by rw [List.flatten_nil, List.append_nil]; rfl⟩
  | cons a aads ih =>
    rw [List.flatten_cons, List.length_append, ← Nat.add_assoc] at hfit
    obtain ⟨rs', hok, hrun⟩ := ih (hrs.concat_nil opcCcmAad 1) (aad := aad ++ a)
      (by rwa [List.length_append])
    refine ⟨rs', hok, ?_⟩
    rw [List.map_cons, List.cons_append, execAll_cons_ccmAad,
      ccmAad_accepted (by rfl) (by exact lt_of_le_of_lt (Nat.le_add_right _ _) hfit),
      ccmAnswered_ccmAnswered, List.flatten_cons, ← List.append_assoc]
    exact hrun

theorem toNat_nlen (hn : nonce.length ≤ 13) :
    (BitVec.ofNat 8 nonce.length).toNat = nonce.length := by
  rw [BitVec.toNat_ofNat, Nat.mod_eq_of_lt (by omega)]

/-- Several CCM.UPDATE commands store the joined payload; without one the phase stays `AAD`
(R203). -/
theorem execAll_ccmUpdates (is : List Instr) (datas : List Bytes) (hrs : OkResponses rs out)
    (hp : sessionPhase ph = true) (hn : nonce.length ≤ 13)
    (hfit : data.length + datas.flatten.length < 2 ^ (8 * (15 - nonce.length))) :
    ∃ ph' rs', sessionPhase ph' = true ∧ OkResponses rs' out ∧
      execAll (datas.map Instr.ccmUpdate ++ is)
        (ccmAnswered (ccmFed ph d tlen key nonce aad data) rs s) =
        execAll is (ccmAnswered (ccmFed ph' d tlen key nonce aad (data ++ datas.flatten)) rs' s) := by
  induction datas generalizing ph data rs with
  | nil => exact ⟨ph, rs, hp, hrs, by rw [List.flatten_nil, List.append_nil]; rfl⟩
  | cons p datas ih =>
    rw [List.flatten_cons, List.length_append, ← Nat.add_assoc] at hfit
    obtain ⟨ph', rs', hp', hok, hrun⟩ := ih (hrs.concat_nil opcCcmUpdate 2) (ph := .data)
      (data := data ++ p) rfl (by rwa [List.length_append])
    have hfirst : data.length + p.length <
        2 ^ (8 * (15 - (ccmFed ph d tlen key nonce aad data).nlen.toNat)) := by
      rw [ccmFed, toNat_nlen hn]
      exact lt_of_le_of_lt (Nat.le_add_right _ _) hfit
    refine ⟨ph', rs', hp', hok, ?_⟩
    rw [List.map_cons, List.cons_append, execAll_cons_ccmUpdate,
      ccmUpdate_accepted (by exact hp) (by exact hfirst), ccmAnswered_ccmAnswered,
      List.flatten_cons, ← List.append_assoc]
    exact hrun

/-- The operands of a session, each input given in one command, are accepted (R201 to R203). -/
structure CcmOperandsOk (p : Params) (klen tlen : Byte) (key nonce aad data : Bytes) : Prop where
  blockLen : p.blockLen = .b16
  klen_eq : klen.toNat = key.length
  keyLen : klen.toNat ∈ p.keyLens
  nonce_ge : 7 ≤ nonce.length
  nonce_le : nonce.length ≤ 13
  tlen_ge : 4 ≤ tlen.toNat
  tlen_le : tlen.toNat ≤ 16
  tlen_even : tlen.toNat % 2 = 0
  aad_fits : aad.length < 2 ^ 64
  data_fits : data.length < 2 ^ (8 * (15 - nonce.length))

theorem CcmOperandsOk.holds {p : Params} (h : CcmOperandsOk p klen tlen key nonce aad data) :
    CcmHolds (ccmFed ph d tlen key nonce aad data) where
  nlen_le := (toNat_nlen h.nonce_le).trans_le h.nonce_le
  nonce_length := (toNat_nlen h.nonce_le).symm
  message_fits := by
    rw [ccmFed, toNat_nlen h.nonce_le]
    exact h.data_fits

/-- A session before its CCM.FINAL: whatever the cutting, FINAL sees the joined inputs stored, and
nothing has been returned (R202, R203). -/
theorem execAll_ccm_cut (d : Dir) (is : List Instr)
    (hok : CcmOperandsOk s.par klen tlen key nonce aads.flatten datas.flatten) :
    ∃ ph rs, sessionPhase ph = true ∧ OkResponses rs [] ∧
      execAll (.ccmInit d klen tlen (key ++ nonce) ::
        (aads.map Instr.ccmAad ++ (datas.map Instr.ccmUpdate ++ is))) s =
        execAll is
          (ccmAnswered (ccmFed ph d tlen key nonce aads.flatten datas.flatten) rs s) := by
  have hinit : OkResponses [⟨.ok, opcCcmInit, 1, []⟩] [] := ⟨by simp, rfl⟩
  obtain ⟨rs, hrs, haads⟩ := execAll_ccmAads (s := s) (d := d) (tlen := tlen) (key := key)
    (nonce := nonce) (aad := []) (data := []) (datas.map Instr.ccmUpdate ++ is) aads hinit
    (by simpa using hok.aad_fits)
  obtain ⟨ph, rs', hp, hrs', hdatas⟩ := execAll_ccmUpdates (s := s) (ph := .aad) (d := d)
    (tlen := tlen) (key := key) (aad := aads.flatten) (data := []) is datas hrs rfl hok.nonce_le
    (by simpa using hok.data_fits)
  refine ⟨ph, rs', hp, hrs', ?_⟩
  rw [execAll_cons_ccmInit, ccmInit_accepted d hok.blockLen hok.klen_eq hok.keyLen hok.nonce_ge
    hok.nonce_le hok.tlen_ge hok.tlen_le hok.tlen_even, haads]
  exact hdatas

/-- An encrypting session returns R210's ciphertext and tag (R210). -/
theorem execAll_ccm_encrypt
    (hok : CcmOperandsOk s.par klen tlen key nonce aads.flatten datas.flatten) :
    ∃ t, execAll (.ccmInit .encrypt klen tlen (key ++ nonce) ::
        (aads.map Instr.ccmAad ++ (datas.map Instr.ccmUpdate ++ [.ccmFinal []]))) s = .next t ∧
      allOkSince s t ∧ t.ccm = { CcmRegs.reset with phase := .done } ∧
      payloadsSince s t = ccmCrypt Config.ext key nonce datas.flatten ++
        ccmTagOf Config.ext key nonce tlen.toNat aads.flatten datas.flatten := by
  obtain ⟨ph, rs, hp, hrs, hrun⟩ := execAll_ccm_cut .encrypt [.ccmFinal []] hok
  have hall := hrs.concat opcCcmFinal 3 (ccmCrypt Config.ext key nonce datas.flatten ++
    ccmTagOf Config.ext key nonce tlen.toNat aads.flatten datas.flatten)
  rw [execAll_ccmFinal, ccmFinal_encrypts (by exact hp) (by rfl) (by exact hok.holds),
    ccmAnswered_ccmAnswered] at hrun
  exact ⟨_, hrun, allOkSince_of_appended hall rfl, rfl, payloadsSince_of_appended hall rfl⟩

/-- A decrypting session that is given the tag of R210's function of its message returns that
function, and nothing before its last command (R204, R210). -/
theorem execAll_ccm_decrypt {p : Bytes}
    (hok : CcmOperandsOk s.par klen tlen key nonce aads.flatten datas.flatten)
    (hp : p = ccmCrypt Config.ext key nonce datas.flatten) :
    ∃ t, execAll (.ccmInit .decrypt klen tlen (key ++ nonce) ::
        (aads.map Instr.ccmAad ++ (datas.map Instr.ccmUpdate ++
          [.ccmFinal (ccmTagOf Config.ext key nonce tlen.toNat aads.flatten p)]))) s = .next t ∧
      allOkSince s t ∧ t.ccm = { CcmRegs.reset with phase := .done } ∧ payloadsSince s t = p := by
  subst hp
  obtain ⟨ph, rs, hp, hrs, hrun⟩ := execAll_ccm_cut .decrypt [.ccmFinal (ccmTagOf Config.ext key
    nonce tlen.toNat aads.flatten (ccmCrypt Config.ext key nonce datas.flatten))] hok
  have hall := hrs.concat opcCcmFinal 3 (ccmCrypt Config.ext key nonce datas.flatten)
  rw [execAll_ccmFinal, ccmFinal_releases (by exact hp) (by rfl) (by exact hok.holds) (by rfl),
    ccmAnswered_ccmAnswered] at hrun
  exact ⟨_, hrun, allOkSince_of_appended hall rfl, rfl, payloadsSince_of_appended hall rfl⟩

end Runs

/-- Settles O54: CCM.FINAL sees the joined inputs of either session, and R210's function undoes
itself. -/
theorem ccmSessionsComputeCcmAndInvertIt : Obligations.CcmSessionsComputeCcmAndInvertIt := by
  rintro klen tlen key nonce aads aads' datas datas' c u s hbl hk hkey hn7 hn13 ht4 ht16 heven haad
    hdata rfl rfl haads hdatas
  have hseal : CcmOperandsOk s.par klen tlen key nonce aads.flatten datas.flatten :=
    ⟨hbl, hk, hkey, hn7, hn13, ht4, ht16, heven, haad, hdata⟩
  have hopen : CcmOperandsOk s.par klen tlen key nonce aads'.flatten datas'.flatten :=
    { hseal with
      aad_fits := haads ▸ haad
      data_fits := by rwa [hdatas, ccmCrypt_length _ _ hn13 hdata] }
  refine ⟨execAll_ccm_encrypt hseal, ?_⟩
  rw [← haads]
  exact execAll_ccm_decrypt hopen (by rw [hdatas, ccmCrypt_ccmCrypt _ _ hn13 hdata])

end Sys2Proof.Machine
end

section
/-! The MAC statements (spec/44_cmac.md R230 to R240): what each accepted command of the MAC unit
does, that a session computes R240's function however its message is cut, and that OMAC2 and CMAC
agree on whole blocks. -/

namespace Sys2Proof.Machine

/-! ## The commands (R231 to R238) -/

/-- `s` with the registers `m` in the MAC unit and the responses `rs` put on the port. -/
def macAnswered (m : MacRegs) (rs : List Response) (s : State) : State :=
  { s with mac := m, respOut := s.respOut ++ rs }

/-- The registers MAC.INIT leaves: the subkeys of the variant, and an empty accumulator (R231, R232,
R236). -/
def macKeyed (x : Ext) (p : Params) (vv : Variant) (tlen : Byte) (key : Bytes) : MacRegs :=
  macDerive x p { MacRegs.reset p.blockLen with
    phase := .ready, var := vv, tlen := tlen, kv := true, k := key }

section Commands

variable {x : Ext} {bl : BlockLen} {m : MacRegs} {s : State} {payload : Bytes}

theorem macAnswered_macAnswered (m m' : MacRegs) (rs rs' : List Response) (s : State) :
    macAnswered m' rs' (macAnswered m rs s) = macAnswered m' (rs ++ rs') s := by
  simp [macAnswered]

theorem macAnswered_self (s : State) : macAnswered s.mac [] s = s := by simp [macAnswered]

theorem reply_mac_eq (st : Status) (opc : Byte) (out : Bytes) (hp : m.phase = .ready) :
    reply .mac st opc out { s with mac := m } = macAnswered m [⟨st, opc, 5, out⟩] s := by
  simp [macAnswered, reply, respond, phaseOf, hp, phaseCode]

theorem macPut_phase (data : Bytes) : (macPut x bl data m).phase = m.phase := by rw [macPut_eq]

theorem macResetAcc_macPut (data : Bytes) :
    macResetAcc bl (macPut x bl data m) = macResetAcc bl m := by
  rw [macPut_eq]; rfl

theorem macResetAcc_of_ready (hp : m.phase = .ready) :
    macResetAcc bl m =
      { m with x := zeros bl.bytes, buf := [], held := zeros bl.bytes, heldv := false } := by
  rw [macResetAcc, ← hp]

/-- `macFinalize_regs` in the model's own words (R235). -/
theorem macFinalize_snd (m : MacRegs) : (macFinalize x bl m).2 = macResetAcc bl m :=
  macFinalize_regs x bl m

/-- The operands pass R231's tests. -/
theorem macInitOk_of {p : Params} {vv : Variant} {klen tlen : Byte} {key : Bytes}
    (hk : klen.toNat = key.length) (hkey : klen.toNat ∈ p.keyLens)
    (hxcbc : vv = .xcbc → p.blockLen.bytes ∈ p.keyLens) (ht1 : 1 ≤ tlen.toNat)
    (ht : tlen.toNat ≤ p.blockLen.bytes) : macInitOk p vv klen tlen key = true := by
  have hvariant : (vv != .xcbc || keyLenOk p p.blockLen.bytes) = true := by
    by_cases hv : vv = .xcbc
    · rw [(keyLenOk_iff _ _).mpr (hxcbc hv), Bool.or_true]
    · simp [hv]
  simp [macInitOk, hvariant, (keyLenOk_iff _ _).mpr (hk ▸ hkey), hk, ht1, ht]

theorem macInit_accepted {vv : Variant} {klen tlen : Byte} {key : Bytes}
    (hk : klen.toNat = key.length) (hkey : klen.toNat ∈ s.par.keyLens)
    (hxcbc : vv = .xcbc → s.par.blockLen.bytes ∈ s.par.keyLens) (ht1 : 1 ≤ tlen.toNat)
    (ht : tlen.toNat ≤ s.par.blockLen.bytes) :
    macInit x vv klen tlen key s =
      macAnswered (macKeyed x s.par vv tlen key) [⟨.ok, opcMacInit, 5, []⟩] s := by
  simp only [macInit, macInitOk_of hk hkey hxcbc ht1 ht, Bool.not_true, Bool.false_eq_true,
    if_false]
  cases vv <;> rfl

theorem macUpdate_accepted (hp : s.mac.phase = .ready) :
    macUpdate x payload s =
      macAnswered (macPut x s.par.blockLen payload s.mac) [⟨.ok, opcMacUpdate, 5, []⟩] s := by
  rw [macUpdate, if_neg (not_not.mpr hp), reply_mac_eq _ _ _ ((macPut_phase payload).trans hp)]

theorem macSign_accepted (hp : s.mac.phase = .ready) :
    macSign x payload s =
      macAnswered (macResetAcc s.par.blockLen s.mac) [⟨.ok, opcMacSign, 5,
        first (macTagFrom x s.par.blockLen s.mac payload) s.mac.tlen.toNat⟩] s := by
  rw [macSign, if_neg (not_not.mpr hp)]
  simp only [macFinalize_snd, macFinalize_put, macResetAcc_macPut]
  exact reply_mac_eq _ _ _ rfl

/-- MAC.VERIFY in `READY`: only the status tells a match from a mismatch (R238). -/
theorem macVerify_accepted (tag : Bytes) (hp : s.mac.phase = .ready)
    (hbuf : s.mac.buf.length < s.par.blockLen.bytes) :
    macVerify x tag s =
      macAnswered (macResetAcc s.par.blockLen s.mac)
        [⟨if tag = first (macTagFrom x s.par.blockLen s.mac []) s.mac.tlen.toNat then .ok
          else .authenticationFailure, opcMacVerify, 5, []⟩] s := by
  have htag := macFinalize_put x s.par.blockLen [] s.mac
  rw [macPut_nil x hbuf] at htag
  rw [macVerify, if_neg (not_not.mpr hp)]
  simp only [macFinalize_snd, htag, tagMatches, beq_iff_eq]
  split
  · exact reply_mac_eq _ _ _ rfl
  · exact reply_mac_eq _ _ _ rfl

end Commands

/-- Settles O55: the operands pass R231's tests, and each variant derives as in R232. -/
theorem macInitDerivesTheSubkeys : Obligations.MacInitDerivesTheSubkeys := by
  rintro vv klen tlen key l z bl rb s rfl h16 h8 hk hkey hxcbc ht1 ht rfl rfl
  have hrb : dblConst s.par s.par.blockLen = rb := by
    cases hbl : s.par.blockLen
    · exact (h8 hbl).symm
    · exact (h16 hbl).symm
  refine congrArg Host.Outcome.next ((macInit_accepted hk hkey hxcbc ht1 ht).trans ?_)
  cases vv
  case cmac => rw [← hrb]; rfl
  case omac2 => rw [← hrb]; rfl
  case xcbc => rfl

/-- Settles O56, by what `bb_put` with `mac_block` as listener does (`macPut_eq`). -/
theorem macUpdateChainsAllButTheLastBlock : Obligations.MacUpdateChainsAllButTheLastBlock := by
  rintro payload blocks bl s hp rfl rfl
  refine congrArg Host.Outcome.next ((macUpdate_accepted hp).trans ?_)
  rw [macPut_eq]
  rfl

/-- Settles O57: the phase passes R237's test. -/
theorem macSignReturnsTheTag : Obligations.MacSignReturnsTheTag := by
  rintro payload z bl s hp rfl rfl
  refine congrArg Host.Outcome.next ((macSign_accepted hp).trans ?_)
  rw [macResetAcc_of_ready hp]
  rfl

/-- Settles O58: the two outcomes differ in the status only. -/
theorem macVerifyReportsAndStaysReady : Obligations.MacVerifyReportsAndStaysReady := by
  rintro tag z bl s hp rfl rfl hbuf
  have hverify := macVerify_accepted (x := Config.ext) tag hp hbuf
  rw [macResetAcc_of_ready hp] at hverify
  constructor
  · intro htag
    rw [if_pos htag] at hverify
    exact congrArg Host.Outcome.next hverify
  · intro htag
    rw [if_neg htag] at hverify
    exact congrArg Host.Outcome.next hverify

/-! ## R240's function -/

section WholeMessage

variable {x : Ext} {bl : BlockLen} {kc ka kb m : Bytes}

theorem blockCount_pos {n : Nat} (hn : 0 < n) (hpos : 0 < m.length) (hmod : m.length % n = 0) :
    0 < m.length / n :=
  Nat.div_pos (Nat.le_of_dvd hpos (Nat.dvd_of_mod_eq_zero hmod)) hn

/-- A non-empty message of whole blocks: the blocks before the last are R240's first `q - 1`. -/
theorem fullBlocks_of_whole {n : Nat} (hn : 0 < n) (hpos : 0 < m.length) (hmod : m.length % n = 0) :
    fullBlocks n m = cut n (m.length / n - 1) m ++ [m.drop ((m.length / n - 1) * n)] := by
  obtain ⟨q, hq⟩ : ∃ q, m.length / n = q + 1 :=
    Nat.exists_eq_succ_of_ne_zero (blockCount_pos hn hpos hmod).ne'
  have hlen : m.length = (q + 1) * n := by
    rw [← hq, Nat.div_mul_cancel (Nat.dvd_of_mod_eq_zero hmod)]
  have hlast : (m.drop (q * n)).length ≤ n := by
    rw [List.length_drop, hlen, Nat.succ_mul, Nat.add_sub_cancel_left]
  rw [fullBlocks, hq, Nat.add_sub_cancel, cut_add, cut, cut, List.take_of_length_le hlast]

/-- R240's number of pieces, in terms of the full blocks and the remainder. -/
theorem pieceCount_eq {n : Nat} (hn : 0 < n) (s : Bytes) :
    (s.length + (n - 1)) / n = s.length / n + if remainder n s = [] then 0 else 1 := by
  rw [← pieces_length, pieces_eq hn, List.length_append, fullBlocks_length]
  split
  · rfl
  · rfl

theorem remainder_eq_nil_iff {n : Nat} {s : Bytes} : remainder n s = [] ↔ s.length % n = 0 := by
  rw [← List.length_eq_zero_iff, remainder_length]

/-- `macOf` of a non-empty message of whole blocks: the last block is masked with `ka` (R240). -/
theorem macOf_of_whole (hpos : 0 < m.length) (hmod : m.length % bl.bytes = 0) :
    macOf x bl kc ka kb m =
      enc x bl kc (bxor (cbcMac x bl kc (zeros bl.bytes) (fullBlocks bl.bytes m).dropLast)
        (bxor ((fullBlocks bl.bytes m).getLastD []) ka)) := by
  have hq : max 1 ((m.length + (bl.bytes - 1)) / bl.bytes) = m.length / bl.bytes := by
    rw [pieceCount_eq bl.bytes_pos, if_pos (remainder_of_mod hmod), Nat.add_zero,
      max_eq_right (blockCount_pos bl.bytes_pos hpos hmod)]
  rw [macOf, hq, if_pos ⟨hpos, hmod⟩, fullBlocks_of_whole bl.bytes_pos hpos hmod,
    List.dropLast_concat, List.getLastD_concat]

/-- `macOf` of any other message: the remainder is padded and masked with `kb` (R240). -/
theorem macOf_of_not_whole (h : ¬ (0 < m.length ∧ m.length % bl.bytes = 0)) :
    macOf x bl kc ka kb m =
      enc x bl kc (bxor (cbcMac x bl kc (zeros bl.bytes) (fullBlocks bl.bytes m))
        (bxor (pad80 (remainder bl.bytes m) bl.bytes) kb)) := by
  have hq : max 1 ((m.length + (bl.bytes - 1)) / bl.bytes) - 1 = m.length / bl.bytes := by
    rw [pieceCount_eq bl.bytes_pos]
    by_cases hmod : m.length % bl.bytes = 0
    · have hzero : m.length = 0 := Nat.eq_zero_of_not_pos fun hpos => h ⟨hpos, hmod⟩
      simp [remainder_eq_nil_iff, hzero]
    · simp [remainder_eq_nil_iff, hmod]
  rw [macOf, hq, if_neg h, fullBlocks, remainder]

theorem macOf_length (x : Ext) (bl : BlockLen) (kc ka kb m : Bytes) :
    (macOf x bl kc ka kb m).length = bl.bytes := by
  unfold macOf
  split
  · exact enc_length ..
  · exact enc_length ..

end WholeMessage

/-! ## Sessions, however the message is cut (R240) -/

/-- The unit is ready for a fresh message: the accumulator is as R236 leaves it. -/
structure MacFresh (bl : BlockLen) (m : MacRegs) : Prop where
  phase : m.phase = .ready
  x : m.x = zeros bl.bytes
  buf : m.buf = []
  held : m.held = zeros bl.bytes
  heldv : m.heldv = false

section Runs

variable {x : Ext} {bl : BlockLen} {m : MacRegs} {s : State} {rs : List Response} {out : Bytes}

/-- On a fresh message R235's tag is R240's function of the whole message. -/
theorem macTagFrom_fresh (hm : MacFresh bl m) (data : Bytes) :
    macTagFrom x bl m data = macOf x bl m.kc (macKa m) (macKb m) data := by
  have hiff : (remainder bl.bytes data = [] ∧ fullBlocks bl.bytes data ≠ []) ↔
      (0 < data.length ∧ data.length % bl.bytes = 0) := by
    rw [remainder_eq_nil_iff, and_comm]
    refine and_congr_left fun hmod => ?_
    rw [← List.length_pos_iff, fullBlocks_length]
    exact ⟨Nat.pos_of_div_pos, fun hpos => blockCount_pos bl.bytes_pos hpos hmod⟩
  simp only [macTagFrom, hm.heldv, hm.buf, hm.x, Bool.false_eq_true, if_false, List.nil_append,
    hiff]
  split
  next hwhole => exact (macOf_of_whole hwhole.1 hwhole.2).symm
  next hwhole => exact (macOf_of_not_whole hwhole).symm

/-- Resetting the accumulator of a fresh unit changes nothing (R236). -/
theorem MacFresh.resetAcc (hm : MacFresh bl m) : macResetAcc bl m = m := by
  obtain ⟨hphase, hx, hbuf, hheld, hheldv⟩ := hm
  cases m
  simp_all [macResetAcc]

/-- MAC.INIT leaves a unit ready for a fresh message, under every variant (R231, R236). -/
theorem macFresh_macKeyed (x : Ext) (p : Params) (vv : Variant) (tlen : Byte) (key : Bytes) :
    MacFresh p.blockLen (macKeyed x p vv tlen key) := by
  cases vv
  case cmac => exact ⟨rfl, rfl, rfl, rfl, rfl⟩
  case omac2 => exact ⟨rfl, rfl, rfl, rfl, rfl⟩
  case xcbc => exact ⟨rfl, rfl, rfl, rfl, rfl⟩

theorem execAll_cons_macInit (vv : Variant) (klen tlen : Byte) (key : Bytes) (is : List Instr) :
    execAll (.macInit vv klen tlen key :: is) s =
      execAll is (macInit Config.ext vv klen tlen key s) := rfl

theorem execAll_cons_macUpdate (payload : Bytes) (is : List Instr) :
    execAll (.macUpdate payload :: is) s = execAll is (macUpdate Config.ext payload s) := rfl

theorem execAll_macSign (payload : Bytes) :
    execAll [.macSign payload] s = .next (macSign Config.ext payload s) := rfl

/-- Several MAC.UPDATE commands leave the registers of one with the joined payload, and return
nothing (R124, R234). -/
theorem execAll_macUpdates (is : List Instr) (ds : List Bytes) (hrs : OkResponses rs out)
    (hp : m.phase = .ready) (hbuf : m.buf.length < s.par.blockLen.bytes) :
    ∃ rs', OkResponses rs' out ∧
      execAll (ds.map Instr.macUpdate ++ is) (macAnswered m rs s) =
        execAll is (macAnswered (macPut Config.ext s.par.blockLen ds.flatten m) rs' s) := by
  induction ds generalizing m rs with
  | nil => exact ⟨rs, hrs, by rw [List.flatten_nil, macPut_nil _ hbuf]; rfl⟩
  | cons d ds ih =>
    have hcarry : (macPut Config.ext s.par.blockLen d m).buf.length < s.par.blockLen.bytes := by
      rw [macPut_eq]
      exact remainder_length_lt s.par.blockLen.bytes_pos _
    obtain ⟨rs', hok, hrun⟩ := ih (hrs.concat_nil opcMacUpdate 5) ((macPut_phase d).trans hp) hcarry
    refine ⟨rs', hok, ?_⟩
    rw [List.map_cons, List.cons_append, execAll_cons_macUpdate, macUpdate_accepted (by exact hp),
      macAnswered_macAnswered, List.flatten_cons, ← macPut_put]
    exact hrun

/-- A session on a fresh unit returns R240's function of the joined message, truncated, and leaves
the registers as they were (R236, R240). -/
theorem execAll_mac_session (ds : List Bytes) (d0 : Bytes) (hrs : OkResponses rs out)
    (hm : MacFresh s.par.blockLen m) :
    ∃ rs', OkResponses rs' (out ++ first (macOf Config.ext s.par.blockLen m.kc (macKa m) (macKb m)
        (ds.flatten ++ d0)) m.tlen.toNat) ∧
      execAll (ds.map Instr.macUpdate ++ [.macSign d0]) (macAnswered m rs s) =
        .next (macAnswered m rs' s) := by
  have hbuf : m.buf.length < s.par.blockLen.bytes := by
    rw [hm.buf]
    exact s.par.blockLen.bytes_pos
  obtain ⟨rs', hok, hrun⟩ := execAll_macUpdates [.macSign d0] ds hrs hm.phase hbuf
  have htlen : (macPut Config.ext s.par.blockLen ds.flatten m).tlen = m.tlen := by rw [macPut_eq]
  refine ⟨_, hok.concat opcMacSign 5 _, ?_⟩
  rw [hrun, execAll_macSign, macSign_accepted (by exact (macPut_phase _).trans hm.phase),
    macAnswered_macAnswered]
  simp only [macAnswered, macTagFrom_put, macResetAcc_macPut, hm.resetAcc, macTagFrom_fresh hm,
    htlen]

/-- MAC.INIT and one MAC.SIGN with the whole message (R231, R240). -/
theorem execAll_mac_init_sign {vv : Variant} {klen tlen : Byte} {key : Bytes} (data : Bytes)
    (hk : klen.toNat = key.length) (hkey : klen.toNat ∈ s.par.keyLens)
    (hxcbc : vv = .xcbc → s.par.blockLen.bytes ∈ s.par.keyLens) (ht1 : 1 ≤ tlen.toNat)
    (ht : tlen.toNat ≤ s.par.blockLen.bytes) (hm : m = macKeyed Config.ext s.par vv tlen key) :
    ∃ t, execAll [.macInit vv klen tlen key, .macSign data] s = .next t ∧ allOkSince s t ∧
      payloadsSince s t =
        first (macOf Config.ext s.par.blockLen m.kc (macKa m) (macKb m) data) m.tlen.toNat := by
  have hinit : OkResponses [⟨.ok, opcMacInit, 5, []⟩] [] := ⟨by simp, rfl⟩
  subst hm
  obtain ⟨rs, hok, hrun⟩ := execAll_mac_session (s := s) [] data hinit
    (macFresh_macKeyed Config.ext s.par vv tlen key)
  rw [execAll_cons_macInit, macInit_accepted hk hkey hxcbc ht1 ht]
  exact ⟨_, hrun, allOkSince_of_appended hok rfl, payloadsSince_of_appended hok rfl⟩

end Runs

/-- Settles O59: MAC.SIGN sees the joined message on a fresh unit, and `ka`, `kb` are R239's. -/
theorem macSessionComputesTheMac : Obligations.MacSessionComputesTheMac := by
  rintro ds d0 m ka kb z bl s hp rfl rfl hx hbuf hheld hheldv hxcbc hother rfl
  have hsel : ka = macKa s.mac ∧ kb = macKb s.mac := by
    cases hv : s.mac.var
    case cmac => simpa [macKa, macKb, hv] using hother (by simp [hv])
    case omac2 => simpa [macKa, macKb, hv] using hother (by simp [hv])
    case xcbc => simpa [macKa, macKb, hv] using hxcbc hv
  obtain ⟨rfl, rfl⟩ := hsel
  obtain ⟨rs, hok, hrun⟩ := execAll_mac_session (s := s) (rs := []) (out := []) ds d0
    ⟨by simp, rfl⟩ ⟨hp, hx, hbuf, hheld, hheldv⟩
  rw [macAnswered_self] at hrun
  exact ⟨_, hrun, allOkSince_of_appended hok rfl, rfl, payloadsSince_of_appended hok rfl⟩

/-- Settles O60: the two variants differ in `KB` only, which a message of whole blocks does not
use. -/
theorem omac2OfWholeBlocksEqualsCmac : Obligations.Omac2OfWholeBlocksEqualsCmac := by
  intro klen tlen key m s hk hkey ht1 ht hne hmod
  have hpos : 0 < m.length := List.length_pos_iff.mpr hne
  obtain ⟨t, hrun, hok, hout⟩ :=
    execAll_mac_init_sign (vv := .cmac) m hk hkey nofun ht1 ht rfl
  obtain ⟨t', hrun', hok', hout'⟩ :=
    execAll_mac_init_sign (vv := .omac2) m hk hkey nofun ht1 ht rfl
  refine ⟨t, t', hrun, hrun', hok, hok', ?_, ?_⟩
  · rw [hout, hout', macOf_of_whole hpos hmod, macOf_of_whole hpos hmod]
    rfl
  · rw [hout, first_length, macOf_length]
    exact min_eq_left ht

end Sys2Proof.Machine
end

section
/-! The system commands (spec/45_sys.md R260 to R262): SYS.RESET puts the registers of the four units
at reset and nothing else, SYS.STATUS only answers. -/

namespace Sys2Proof.Machine

/-- The reset event sets the four register files and leaves the parameters and the ports (R261, R301). -/
theorem resetAll_eq (s : State) :
    resetAll s = { s with
      bb0 := BbRegs.reset
      gcm := GcmRegs.reset
      ccm := CcmRegs.reset
      mac := MacRegs.reset s.par.blockLen } := rfl

theorem exec_sysReset (s : State) :
    exec .sysReset s = .next (respond .ok opcSysReset 0 [] (resetAll s)) := rfl

theorem exec_sysStatus (s : State) :
    exec .sysStatus s = .next (respond .ok opcSysStatus 0 (statusBytes s) s) := rfl

/-- Settles O14: the reset event (`resetAll_eq`) and one response; each register file has the values
of R63. -/
theorem sysResetRestoresEveryRegister : Obligations.SysResetRestoresEveryRegister := by
  intro s
  rw [exec_sysReset, resetAll_eq]
  rfl

/-- Settles O15: the answer is all that SYS.STATUS does, and its payload is R262's. -/
theorem sysStatusReportsPhasesAndErrors : Obligations.SysStatusReportsPhasesAndErrors := by
  intro s
  rw [exec_sysStatus, statusBytes]
  rfl

end Sys2Proof.Machine
end

section
/-! Errors and the transition table (spec/60_exceptions.md R270 to R278, R290): taking an error,
what a command does that its unit's phase does not accept, and what an accepted one can do. -/

namespace Sys2Proof.Machine

/-- Settles O16: the wiped unit is its reset values with the phase and the recorded cause. -/
theorem raiseWipesTheUnit : Obligations.RaiseWipesTheUnit := by
  intro k opc s
  refine ⟨rfl, rfl, rfl, ?_⟩
  rintro z rfl
  rfl

/-! ## Commands out of order (R275, R278) -/

section OutOfOrder

variable {i : Instr} {u : UnitId} {s : State}

/-- The session phases of R165 and R203 are the cells of the table of R290 for UPDATE and FINAL. -/
theorem sessionPhase_eq (ph : Phase) : sessionPhase ph = (ph == .aad || ph == .data) := by
  cases ph <;> rfl

/-- A command that its unit's phase does not accept takes SequenceError and does nothing else
(R275). -/
theorem exec_of_not_accepted (hu : unitOf i = some u) (h : acceptedIn i (phaseOf u s) = false) :
    exec i s = .next (raise u .sequenceError (opcodeOf i) s) := by
  cases i <;> cases hu <;> simp only [acceptedIn, phaseOf, beq_eq_false_iff_ne, Bool.true_eq_false,
    ← sessionPhase_eq] at h
  case bbPut => exact congrArg _ (if_pos h)
  case bbFlush => exact congrArg _ (if_pos h)
  case gcmAad => exact congrArg _ (if_pos h)
  case gcmUpdate => exact congrArg _ (if_pos (by rw [h]; rfl))
  case gcmFinal => exact congrArg _ (if_pos (by rw [h]; rfl))
  case ccmAad => exact congrArg _ (if_pos h)
  case ccmUpdate => exact congrArg _ (if_pos (by rw [h]; rfl))
  case ccmFinal => exact congrArg _ (if_pos (by rw [h]; rfl))
  case macUpdate => exact congrArg _ (if_pos h)
  case macSign => exact congrArg _ (if_pos h)
  case macVerify => exact congrArg _ (if_pos h)

/-- Nothing but INIT and OPEN is accepted in `FAULT` (R278, R281). -/
theorem acceptedIn_fault (hu : unitOf i = some u) (hi : isInit i = false) :
    acceptedIn i .fault = false := by
  revert hu hi
  cases i <;> simp [unitOf, isInit, acceptedIn]

/-- An error in a legal `FAULT` unit finds every register as it leaves it (R277, R278). -/
theorem sameUnit_raise_of_fault (k : Status) (opc : Byte) (hs : unitLegal u s)
    (hf : phaseOf u s = .fault) : sameUnit u s (raise u k opc s) := by
  cases u <;> simp only [phaseOf] at hf <;>
    simp only [unitLegal, bbLegal, gcmLegal, ccmLegal, macLegal, hf] at hs <;>
    simp only [sameUnit, raise_bb0_bb0, raise_gcm_gcm, raise_ccm_ccm, raise_mac_mac, if_pos hf]
  case bb0 =>
    obtain ⟨hblen, hcarry, -⟩ := hs
    rw [BbRegs.reset, ← hf, ← hblen, ← hcarry]
  case gcm => obtain ⟨hregs, -⟩ := hs; exact hregs
  case ccm => obtain ⟨hregs, -⟩ := hs; exact hregs
  case mac => obtain ⟨hregs, -⟩ := hs; exact hregs

end OutOfOrder

/-- Settles O18: the command takes SequenceError (`exec_of_not_accepted`). -/
theorem outOfOrderCommandFaultsTheUnit : Obligations.OutOfOrderCommandFaultsTheUnit := by
  intro i u s hu h
  exact ⟨_, exec_of_not_accepted hu h, raise_phaseOf _ _ _ _, raise_errOf _ _ _ _,
    raise_respOut _ _ _ _, raise_sinkOut _ _ _ _⟩

/-- Settles O17: in `FAULT` the command is out of order, the first cause stands, and the wiped
registers are wiped again. -/
theorem faultIsSticky : Obligations.FaultIsSticky := by
  intro i u s hu hi hf
  have hrefused : acceptedIn i (phaseOf u s) = false := hf ▸ acceptedIn_fault hu hi
  refine ⟨_, exec_of_not_accepted hu hrefused, raise_phaseOf _ _ _ _, ?_, raise_respOut _ _ _ _,
    raise_sinkOut _ _ _ _, fun hs => ?_⟩
  · rw [raise_errOf, if_pos hf]
  · obtain ⟨-, hunits⟩ := (inv_iff_unitLegal s).mp hs
    exact sameUnit_raise_of_fault _ _ (hunits u) hf

/-! ## Accepted commands (R271 to R274, R290) -/

/-- Everything an accepted command `i` of unit `u` can do from `s`, with the causes under which it
does so. -/
inductive AcceptedRun (i : Instr) (u : UnitId) (s : State) : State → Prop
  /-- InvalidParameterLength (R271); INIT and OPEN raise it after their reset, hence `s'`. -/
  | lengthError {s' : State} (hcause : lengthCause i s) (hresp : s'.respOut = s.respOut)
      (hphase : phaseOf u s' ≠ .fault) :
      AcceptedRun i u s (raise u .invalidParameterLength (opcodeOf i) s')
  /-- MessageTooLong, raised from `s` itself: no byte has been used (R272). -/
  | tooLong (hcause : tooLongCause i s) (hphase : phaseOf u s ≠ .fault) :
      AcceptedRun i u s (raise u .messageTooLong (opcodeOf i) s)
  /-- A tag that does not match at an AEAD's FINAL, or a refused sink event (R273, R274). -/
  | failure {k : Status} {s' : State} (hlength : ¬ lengthCause i s) (hlong : ¬ tooLongCause i s)
      (hk : k = .authenticationFailure ∨ k = .ioFailure) (hi : ∀ p, i ≠ .macVerify p)
      (hresp : s'.respOut = s.respOut) : AcceptedRun i u s (raise u k (opcodeOf i) s')
  /-- A mismatch at MAC.VERIFY is reported and no fault (R238). -/
  | mismatch {p : Bytes} {r : Response} {t : State} (hi : i = .macVerify p)
      (hstatus : r.status = .authenticationFailure) (hresp : t.respOut = s.respOut ++ [r])
      (hphase : phaseOf u t = .ready) : AcceptedRun i u s t
  /-- The "ok" column of R290. -/
  | success {r : Response} {t : State} (hlength : ¬ lengthCause i s) (hlong : ¬ tooLongCause i s)
      (hstatus : r.status = .ok) (hresp : t.respOut = s.respOut ++ [r])
      (hphase : phaseOf u t = phaseOnSuccess i) : AcceptedRun i u s t

section Accepted

variable {i : Instr} {u : UnitId} {s : State} {payload : Bytes}

/-! ### The length tests against the table of R271 -/

/-- A test that passes exactly without its cause refuses exactly for it. -/
theorem refused_iff {ok : Bool} {cause : Prop} (h : ok = true ↔ ¬ cause) :
    (!ok) = true ↔ cause := by
  rw [Bool.not_eq_true', ← Bool.not_eq_true, h, not_not]

theorem gcmInitOk_iff (d : Dir) (klen tlen : Byte) :
    gcmInitOk s.par klen tlen payload = true ↔ ¬ lengthCause (.gcmInit d klen tlen payload) s := by
  have hnon96 : s.par.gcmIvNon96 = .derive ↔ s.par.gcmIvNon96 ≠ .refuse := by
    cases s.par.gcmIvNon96 <;> decide
  simp only [gcmInitOk, lengthCause, Bool.and_eq_true, Bool.or_eq_true, Bool.not_eq_true',
    beq_iff_eq, decide_eq_true_eq, keyLenOk_iff, tagLenOk_iff, List.isEmpty_eq_false_iff,
    ← List.length_pos_iff, initIv_length, hnon96]
  grind

theorem ccmInitOk_iff (d : Dir) (klen tlen : Byte) :
    ccmInitOk s.par klen tlen payload = true ↔ ¬ lengthCause (.ccmInit d klen tlen payload) s := by
  simp only [ccmInitOk, ccmTagLenOk, lengthCause, Bool.and_eq_true, beq_iff_eq, decide_eq_true_eq,
    keyLenOk_iff]
  grind

theorem macInitOk_iff (vv : Variant) (klen tlen : Byte) :
    macInitOk s.par vv klen tlen payload = true ↔
      ¬ lengthCause (.macInit vv klen tlen payload) s := by
  have htlen : tlen = 0 ↔ tlen.toNat = 0 := by rw [← BitVec.toNat_inj]; rfl
  simp only [macInitOk, lengthCause, Bool.and_eq_true, Bool.or_eq_true, beq_iff_eq, bne_iff_ne,
    decide_eq_true_eq, keyLenOk_iff, htlen]
  grind

theorem bitCountFits_iff (count limit : BitVec 64) (n : Nat) :
    bitCountFits count limit n = true ↔ ¬ limit.toNat < count.toNat + 8 * n :=
  decide_eq_true_iff.trans Nat.not_lt.symm

/-- No command can take both length errors (R271, R272). -/
theorem not_tooLongCause_of_lengthCause (h : lengthCause i s) : ¬ tooLongCause i s := by
  revert h
  cases i <;> simp [lengthCause, tooLongCause]

/-! ### One lemma per command -/

/-- An accepted command that answers OK. -/
theorem acceptedRun_reply {out : Bytes} {s' : State} (hlength : ¬ lengthCause i s)
    (hlong : ¬ tooLongCause i s) (hresp : s'.respOut = s.respOut)
    (hphase : phaseOf u s' = phaseOnSuccess i) :
    AcceptedRun i u s (reply u .ok (opcodeOf i) out s') :=
  .success (r := ⟨.ok, opcodeOf i, phaseCode (phaseOf u s'), out⟩) hlength hlong
    rfl (by rw [reply_respOut, hresp]) hphase

/-- An INIT: the test of its operands is the table of R271. -/
theorem acceptedRun_of_operands {ok : Bool} {out : Bytes} {s0 s1 : State}
    (hok : ok = true ↔ ¬ lengthCause i s) (hlong : ¬ tooLongCause i s)
    (hresp0 : s0.respOut = s.respOut) (hphase0 : phaseOf u s0 ≠ .fault)
    (hresp1 : s1.respOut = s.respOut) (hphase1 : phaseOf u s1 = phaseOnSuccess i) :
    AcceptedRun i u s (if !ok then raise u .invalidParameterLength (opcodeOf i) s0
      else reply u .ok (opcodeOf i) out s1) := by
  split
  next h => exact .lengthError ((refused_iff hok).mp h) hresp0 hphase0
  next h => exact acceptedRun_reply ((refused_iff hok).not.mp h) hlong hresp1 hphase1

theorem bbOpen_run (blen : Byte) : AcceptedRun (.bbOpen blen) .bb0 s (bbOpen blen s) := by
  unfold bbOpen
  dsimp only
  split
  next h => exact .lengthError h rfl nofun
  next h => exact acceptedRun_reply h id rfl rfl

theorem bbPut_run (x : Ext) (hp : s.bb0.phase = .ready) :
    AcceptedRun (.bbPut payload) .bb0 s (bbPut x payload s) := by
  obtain ⟨o, n, hs⟩ := emitWrites_only_sink x (bbCut s.bb0.blen.toNat s.bb0.carry payload).1 s
  rw [bbPut, if_neg (not_not.mpr hp)]
  dsimp only
  generalize emitWrites x (bbCut s.bb0.blen.toNat s.bb0.carry payload).1 s = r at hs
  obtain ⟨ack, s1⟩ := r
  subst hs
  cases ack
  · exact .failure id id (.inr rfl) nofun rfl
  · exact acceptedRun_reply id id rfl hp

theorem bbFlush_run (x : Ext) (hp : s.bb0.phase = .ready) :
    AcceptedRun .bbFlush .bb0 s (bbFlush x s) := by
  rw [bbFlush, if_neg (not_not.mpr hp), emit_eq]
  cases sinkAnswerAt x s 0 ⟨.flush, s.bb0.carry⟩ == ackByte
  · exact .failure id id (.inr rfl) nofun rfl
  · exact acceptedRun_reply id id rfl hp

theorem gcmInit_run (x : Ext) (d : Dir) (klen tlen : Byte) :
    AcceptedRun (.gcmInit d klen tlen payload) .gcm s (gcmInit x d klen tlen payload s) :=
  acceptedRun_of_operands (gcmInitOk_iff d klen tlen) id rfl nofun rfl rfl

theorem gcmAad_run (hp : s.gcm.phase = .aad) :
    AcceptedRun (.gcmAad payload) .gcm s (gcmAad payload s) := by
  by_cases hlong : tooLongCause (.gcmAad payload) s
  · rw [gcmAad, if_neg (not_not.mpr hp), if_pos ((refused_iff (bitCountFits_iff _ _ _)).mpr hlong)]
    exact .tooLong hlong (by simp [phaseOf, hp])
  · rw [gcmAad_accepted hp (Nat.not_lt.mp hlong)]
    exact .success id hlong rfl rfl hp

theorem gcmUpdate_run (x : Ext) (hp : sessionPhase s.gcm.phase = true) :
    AcceptedRun (.gcmUpdate payload) .gcm s (gcmUpdate x payload s) := by
  by_cases hlong : tooLongCause (.gcmUpdate payload) s
  · rw [gcmUpdate, if_neg (by simp [hp]), if_pos ((refused_iff (bitCountFits_iff _ _ _)).mpr hlong)]
    exact .tooLong hlong (ne_fault_of_sessionPhase hp)
  · rw [gcmUpdate_accepted hp (Nat.not_lt.mp hlong)]
    exact .success id hlong rfl rfl rfl

theorem gcmFinal_run (x : Ext) (hp : sessionPhase s.gcm.phase = true) :
    AcceptedRun (.gcmFinal payload) .gcm s (gcmFinal x payload s) := by
  rw [gcmFinal, if_neg (by simp [hp])]
  split
  next h =>
    exact .lengthError (by simpa [lengthCause] using h) rfl (ne_fault_of_sessionPhase hp)
  next h =>
    have hlength : ¬ lengthCause (.gcmFinal payload) s := by simpa [lengthCause] using h
    dsimp only
    split
    · exact acceptedRun_reply hlength id rfl rfl
    · split
      · exact .failure hlength id (.inl rfl) nofun rfl
      · exact acceptedRun_reply hlength id rfl rfl

theorem ccmInit_run (d : Dir) (klen tlen : Byte) :
    AcceptedRun (.ccmInit d klen tlen payload) .ccm s (ccmInit d klen tlen payload s) :=
  acceptedRun_of_operands (ccmInitOk_iff d klen tlen) id rfl nofun rfl rfl

theorem ccmAad_run (hp : s.ccm.phase = .aad) :
    AcceptedRun (.ccmAad payload) .ccm s (ccmAad payload s) := by
  by_cases hlong : tooLongCause (.ccmAad payload) s
  · have hfits := (ccmAadFits_iff s.ccm payload.length).trans Nat.not_le.symm
    rw [ccmAad, if_neg (not_not.mpr hp), if_pos ((refused_iff hfits).mpr hlong)]
    exact .tooLong hlong (by simp [phaseOf, hp])
  · rw [ccmAad_accepted hp (Nat.not_le.mp hlong)]
    exact .success id hlong rfl rfl hp

theorem ccmUpdate_run (hp : sessionPhase s.ccm.phase = true) :
    AcceptedRun (.ccmUpdate payload) .ccm s (ccmUpdate payload s) := by
  by_cases hlong : tooLongCause (.ccmUpdate payload) s
  · have hfits := (ccmMsgFits_iff s.ccm payload.length).trans Nat.not_le.symm
    rw [ccmUpdate, if_neg (by simp [hp]), if_pos ((refused_iff hfits).mpr hlong)]
    exact .tooLong hlong (ne_fault_of_sessionPhase hp)
  · rw [ccmUpdate_accepted hp (Nat.not_le.mp hlong)]
    exact .success id hlong rfl rfl rfl

theorem ccmFinal_run (x : Ext) (hp : sessionPhase s.ccm.phase = true) :
    AcceptedRun (.ccmFinal payload) .ccm s (ccmFinal x payload s) := by
  rw [ccmFinal, if_neg (by simp [hp])]
  split
  next h =>
    exact .lengthError (by simpa [lengthCause] using h) rfl (ne_fault_of_sessionPhase hp)
  next h =>
    have hlength : ¬ lengthCause (.ccmFinal payload) s := by simpa [lengthCause] using h
    dsimp only
    split
    · exact acceptedRun_reply hlength id rfl rfl
    · split
      · exact .failure hlength id (.inl rfl) nofun rfl
      · exact acceptedRun_reply hlength id rfl rfl

theorem macInit_run (x : Ext) (vv : Variant) (klen tlen : Byte) :
    AcceptedRun (.macInit vv klen tlen payload) .mac s (macInit x vv klen tlen payload s) :=
  acceptedRun_of_operands (macInitOk_iff vv klen tlen) id rfl nofun rfl rfl

theorem macUpdate_run (x : Ext) (hp : s.mac.phase = .ready) :
    AcceptedRun (.macUpdate payload) .mac s (macUpdate x payload s) := by
  rw [macUpdate_accepted hp]
  exact .success id id rfl rfl ((macPut_phase payload).trans hp)

theorem macSign_run (x : Ext) (hp : s.mac.phase = .ready) :
    AcceptedRun (.macSign payload) .mac s (macSign x payload s) := by
  rw [macSign_accepted hp]
  exact .success id id rfl rfl rfl

theorem macVerify_run (x : Ext) (hp : s.mac.phase = .ready) :
    AcceptedRun (.macVerify payload) .mac s (macVerify x payload s) := by
  rw [macVerify, if_neg (not_not.mpr hp)]
  dsimp only
  split
  · exact acceptedRun_reply id id rfl (macFinalize_phase _ _ _)
  · exact .mismatch rfl rfl (reply_respOut _ _ _ _ _) (macFinalize_phase _ _ _)

/-- Everything a command can do that its unit's phase accepts. -/
theorem exec_of_accepted (hu : unitOf i = some u) (h : acceptedIn i (phaseOf u s) = true) :
    ∃ t, exec i s = .next t ∧ AcceptedRun i u s t := by
  cases i <;> cases hu <;> simp only [acceptedIn, phaseOf, beq_iff_eq, ← sessionPhase_eq] at h
  case bbOpen blen => exact ⟨_, rfl, bbOpen_run blen⟩
  case bbPut => exact ⟨_, rfl, bbPut_run Config.ext h⟩
  case bbFlush => exact ⟨_, rfl, bbFlush_run Config.ext h⟩
  case gcmInit d k n p => exact ⟨_, rfl, gcmInit_run Config.ext d k n⟩
  case gcmAad => exact ⟨_, rfl, gcmAad_run h⟩
  case gcmUpdate => exact ⟨_, rfl, gcmUpdate_run Config.ext h⟩
  case gcmFinal => exact ⟨_, rfl, gcmFinal_run Config.ext h⟩
  case ccmInit d k n p => exact ⟨_, rfl, ccmInit_run d k n⟩
  case ccmAad => exact ⟨_, rfl, ccmAad_run h⟩
  case ccmUpdate => exact ⟨_, rfl, ccmUpdate_run h⟩
  case ccmFinal => exact ⟨_, rfl, ccmFinal_run Config.ext h⟩
  case macInit v k n p => exact ⟨_, rfl, macInit_run Config.ext v k n⟩
  case macUpdate => exact ⟨_, rfl, macUpdate_run Config.ext h⟩
  case macSign => exact ⟨_, rfl, macSign_run Config.ext h⟩
  case macVerify => exact ⟨_, rfl, macVerify_run Config.ext h⟩

end Accepted

/-! ## The transition table and the causes of the length errors -/

section Answers

variable {u : UnitId} {s s' : State}

/-- An error is answered once also when the unit was changed before it was taken. -/
theorem raise_respOut_of_eq (h : s'.respOut = s.respOut) (k : Status) (opc : Byte) :
    (raise u k opc s').respOut = s.respOut ++ [⟨k, opc, 4, []⟩] := by
  rw [raise_respOut, h]

/-- The cause an error records when the unit was not in `FAULT` (R25). -/
theorem raise_errOf_of_not_fault (h : phaseOf u s ≠ .fault) (k : Status) (opc : Byte) :
    errOf u (raise u k opc s) = statusCode k := by
  rw [raise_errOf, if_neg h]

/-- An answer with neither the status `k` nor its cause says nothing about that error. -/
theorem iff_cause_of_other_status {st k : Status} {accepted : Bool} {cause outcome : Prop}
    (hst : st ≠ k) (hcause : accepted = true → ¬ cause) :
    (st = k ↔ accepted = true ∧ cause) ∧ (st = k → outcome) :=
  ⟨iff_of_false hst fun ⟨ha, hc⟩ => hcause ha hc, fun h => absurd h hst⟩

end Answers

/-- Settles O19: the `F(5)` cells are `exec_of_not_accepted`, the others the cases of
`exec_of_accepted`. -/
theorem phaseTransitionsFollowTheTable : Obligations.PhaseTransitionsFollowTheTable := by
  refine ⟨fun i u s hu => ?_, fun u s => ⟨⟨_, exec_sysReset s, ?_⟩, _, exec_sysStatus s, ?_⟩⟩
  · cases ha : acceptedIn i (phaseOf u s)
    case false =>
      exact ⟨_, _, exec_of_not_accepted hu ha, raise_respOut _ _ _ _,
        fun _ => ⟨rfl, raise_phaseOf _ _ _ _⟩, nofun, nofun, nofun⟩
    case true =>
      obtain ⟨t, he, hrun⟩ := exec_of_accepted hu ha
      cases hrun
      case lengthError hcause hresp _ =>
        exact ⟨_, _, he, raise_respOut_of_eq hresp _ _, nofun, nofun,
          fun _ _ _ => raise_phaseOf _ _ _ _, fun _ _ ⟨_, hi⟩ => by rw [hi] at hcause; cases hcause⟩
      case tooLong hcause _ =>
        exact ⟨_, _, he, raise_respOut _ _ _ _, nofun, nofun,
          fun _ _ _ => raise_phaseOf _ _ _ _, fun _ _ ⟨_, hi⟩ => by rw [hi] at hcause; cases hcause⟩
      case failure k s' hlength hlong hk hi hresp =>
        have hne : k ≠ .ok := by rintro rfl; simp at hk
        exact ⟨_, _, he, raise_respOut_of_eq hresp _ _, nofun, fun _ h => absurd h hne,
          fun _ _ _ => raise_phaseOf _ _ _ _, fun _ _ ⟨p, h⟩ => absurd h (hi p)⟩
      case mismatch p r hi hstatus hresp hphase =>
        exact ⟨t, r, he, hresp, nofun, fun _ h => absurd (hstatus.symm.trans h) nofun,
          fun _ _ h => absurd hi (h p), fun _ _ _ => ⟨hstatus, hphase⟩⟩
      case success r hlength hlong hstatus hresp hphase =>
        exact ⟨t, r, he, hresp, nofun, fun _ _ => hphase, fun _ h => absurd hstatus h,
          fun _ h => absurd hstatus h⟩
  · cases u <;> rfl
  · cases u <;> rfl

/-- Settles O22: only the first case of `AcceptedRun` answers InvalidParameterLength, and only there
is a cause of R271 present. -/
theorem lengthErrorsHaveExactlyTheListedCauses :
    Obligations.LengthErrorsHaveExactlyTheListedCauses := by
  intro i u s hu
  cases ha : acceptedIn i (phaseOf u s)
  case false =>
    exact ⟨_, _, exec_of_not_accepted hu ha, raise_respOut _ _ _ _,
      iff_cause_of_other_status nofun nofun⟩
  case true =>
    obtain ⟨t, he, hrun⟩ := exec_of_accepted hu ha
    cases hrun
    case lengthError hcause hresp hphase =>
      exact ⟨_, _, he, raise_respOut_of_eq hresp _ _, iff_of_true rfl ⟨rfl, hcause⟩,
        fun _ => ⟨raise_phaseOf _ _ _ _, raise_errOf_of_not_fault hphase _ _⟩⟩
    case tooLong hcause _ =>
      exact ⟨_, _, he, raise_respOut _ _ _ _,
        iff_cause_of_other_status nofun fun _ h => not_tooLongCause_of_lengthCause h hcause⟩
    case failure k s' hlength hlong hk hi hresp =>
      have hne : k ≠ .invalidParameterLength := by rintro rfl; simp at hk
      exact ⟨_, _, he, raise_respOut_of_eq hresp _ _,
        iff_cause_of_other_status hne fun _ => hlength⟩
    case mismatch p r hi hstatus hresp hphase =>
      subst hi
      exact ⟨t, r, he, hresp, iff_cause_of_other_status (by simp [hstatus]) fun _ => id⟩
    case success r hlength hlong hstatus hresp hphase =>
      exact ⟨t, r, he, hresp, iff_cause_of_other_status (by simp [hstatus]) fun _ => hlength⟩

/-- Settles O23: only the second case of `AcceptedRun` answers MessageTooLong, and only there is a
cause of R272 present. -/
theorem tooLongMessagesAreRefusedOnArrival : Obligations.TooLongMessagesAreRefusedOnArrival := by
  intro i u s hu
  cases ha : acceptedIn i (phaseOf u s)
  case false =>
    exact ⟨_, _, exec_of_not_accepted hu ha, raise_respOut _ _ _ _,
      iff_cause_of_other_status nofun nofun⟩
  case true =>
    obtain ⟨t, he, hrun⟩ := exec_of_accepted hu ha
    cases hrun
    case lengthError hcause hresp _ =>
      exact ⟨_, _, he, raise_respOut_of_eq hresp _ _,
        iff_cause_of_other_status nofun fun _ => not_tooLongCause_of_lengthCause hcause⟩
    case tooLong hcause hphase =>
      exact ⟨_, _, he, raise_respOut _ _ _ _, iff_of_true rfl ⟨rfl, hcause⟩,
        fun _ => ⟨raise_phaseOf _ _ _ _, raise_errOf_of_not_fault hphase _ _⟩⟩
    case failure k s' hlength hlong hk hi hresp =>
      have hne : k ≠ .messageTooLong := by rintro rfl; simp at hk
      exact ⟨_, _, he, raise_respOut_of_eq hresp _ _,
        iff_cause_of_other_status hne fun _ => hlong⟩
    case mismatch p r hi hstatus hresp hphase =>
      subst hi
      exact ⟨t, r, he, hresp, iff_cause_of_other_status (by simp [hstatus]) fun _ => id⟩
    case success r hlength hlong hstatus hresp hphase =>
      exact ⟨t, r, he, hresp, iff_cause_of_other_status (by simp [hstatus]) fun _ => hlong⟩

end Sys2Proof.Machine
end
